-- ==== Sys2Proof/Word.lean ====
section
/-! DEFINITION. The word types of the SPR block (00_scope.md R9): registers, ARG values and stitch entries are 32 bits,
chip bytes and chroma samples 8 bits, luma elements 16 bits. -/

namespace Sys2Proof

/-- A chip byte, a CPU ROM byte or a chroma sample (R9). -/
abbrev Byte := BitVec 8

/-- A plane or raster sample as the block carries it: 16 bits hold a luma element whole (R38, R49); a chroma sample is
zero-extended. -/
abbrev Sample := BitVec 16

/-- A register, an ARG value or a command word (R9, R68). -/
abbrev Word := BitVec 32

end Sys2Proof
end

