-- ==== Sys2Proof/Syntax.lean ====
section
/-! DEFINITION. The commands of the SPR block: one constructor for each row of spec/opcode_table.json (30_encoding.md R69).
A command word carries no immediates (R75): its one field besides the opcode is COMP, and every other operand is read from
ARG0 to ARG3 when the command runs. -/

namespace Sys2Proof

/-- The four values of the COMP field (30_encoding.md R70): 0, 1, 2, 3 in this order. -/
inductive Comp
  | luma
  | lumaLsb
  | rY
  | bY
  deriving DecidableEq, Repr

/-- The thirteen commands. `comp` stands only in a command whose "uses COMP" entry in R69 is "yes". -/
inductive Instr
  | nop
  | reconLuma
  | reconChroma (comp : Comp)
  | splitLuma
  | splitChroma (comp : Comp)
  | vdec
  | venc (comp : Comp)
  | stitchGen
  | asmLine (comp : Comp)
  | asmBlank (comp : Comp)
  | asmFrame (comp : Comp)
  | fragClear
  | fragQuery (comp : Comp)
  deriving DecidableEq, Repr

end Sys2Proof
end

