-- ==== Sys2Proof/Decode.lean ====
section
/-! DEFINITION. The command word (30_encoding.md R68 to R75, R83, R87): the decoder, total on every 32-bit word and rejecting
by name, and after it the encoder and the opcode table's rows. -/

namespace Sys2Proof

/-- Why a word is illegal (R73). All three lead to the one fault ILLEGAL. -/
inductive Reject
  /-- RSVD [31:10] is not 0. -/
  | reservedBits
  /-- OPC is not listed in R69. -/
  | reservedOpcode
  /-- COMP is not 0 for an opcode that does not use it (R72). -/
  | compNotUsed
  deriving DecidableEq, Repr

/-- OPC, bits [7:0] (R68). -/
def opcField (w : Word) : BitVec 8 := w.extractLsb' 0 8

/-- COMP, bits [9:8] (R68). -/
def compField (w : Word) : BitVec 2 := w.extractLsb' 8 2

/-- RSVD, bits [31:10] (R68). -/
def rsvdField (w : Word) : BitVec 22 := w.extractLsb' 10 22

/-- R70: the component a COMP value selects. -/
def compOfBits (b : BitVec 2) : Comp :=
  if b = 0 then .luma else if b = 1 then .lumaLsb else if b = 2 then .rY else .bY

/-- R70: the COMP value of a component. -/
def compBits : Comp → BitVec 2
  | .luma => 0
  | .lumaLsb => 1
  | .rY => 2
  | .bY => 3

/-- R72: an opcode that does not use COMP takes COMP = 0 only. -/
def noComp (w : Word) (i : Instr) : Except Reject Instr :=
  if compField w = 0 then .ok i else .error .compNotUsed

/-- R69: the command of an opcode, the COMP field read from the word. -/
def decodeOpc (w : Word) : Except Reject Instr :=
  let c := compOfBits (compField w)
  match (opcField w).toNat with
  | 0x00 => noComp w .nop
  | 0x01 => noComp w .reconLuma
  | 0x02 => .ok (.reconChroma c)
  | 0x03 => noComp w .splitLuma
  | 0x04 => .ok (.splitChroma c)
  | 0x10 => noComp w .vdec
  | 0x11 => .ok (.venc c)
  | 0x20 => noComp w .stitchGen
  | 0x21 => .ok (.asmLine c)
  | 0x22 => .ok (.asmBlank c)
  | 0x23 => .ok (.asmFrame c)
  | 0x30 => noComp w .fragClear
  | 0x31 => .ok (.fragQuery c)
  | _ => .error .reservedOpcode

/-- The decoder: R68, R69, R72, R73. -/
def decode (w : Word) : Except Reject Instr :=
  if rsvdField w = 0 then decodeOpc w else .error .reservedBits

/-- R73: a word is illegal when the decoder rejects it. -/
def illegal (w : Word) : Bool :=
  match decode w with
  | .ok _ => false
  | .error _ => true

/-! ## The encoder (R87) -/

/-- R69: the operation code of a command. -/
def opcOf : Instr → BitVec 8
  | .nop => 0x00
  | .reconLuma => 0x01
  | .reconChroma _ => 0x02
  | .splitLuma => 0x03
  | .splitChroma _ => 0x04
  | .vdec => 0x10
  | .venc _ => 0x11
  | .stitchGen => 0x20
  | .asmLine _ => 0x21
  | .asmBlank _ => 0x22
  | .asmFrame _ => 0x23
  | .fragClear => 0x30
  | .fragQuery _ => 0x31

/-- The COMP field of a command's word: R70, and 0 for an opcode that does not use COMP (R72). -/
def compOf : Instr → BitVec 2
  | .nop => 0
  | .reconLuma => 0
  | .reconChroma c => compBits c
  | .splitLuma => 0
  | .splitChroma c => compBits c
  | .vdec => 0
  | .venc c => compBits c
  | .stitchGen => 0
  | .asmLine c => compBits c
  | .asmBlank c => compBits c
  | .asmFrame c => compBits c
  | .fragClear => 0
  | .fragQuery c => compBits c

/-- R87: `CMD = COMP << 8 | OPC`, with RSVD = 0. -/
def encode (i : Instr) : Word :=
  (0 : BitVec 22) ++ compOf i ++ opcOf i

/-! ## The opcode table's rows -/

/-- One row of spec/opcode_table.json: a word belongs to it when its bits under the mask are those of the pattern. -/
structure OpcodeRow where
  mnemonic : String
  pattern : Word
  mask : Word
  deriving DecidableEq, Repr

/-- Does the word belong to the row? -/
def OpcodeRow.takes (r : OpcodeRow) (w : Word) : Bool := w &&& r.mask == r.pattern

/-- spec/opcode_table.json, in its order. -/
def opcodeRows : List OpcodeRow :=
  [⟨"NOP", 0x00000000, 0xFFFFFFFF⟩, ⟨"RECON_LUMA", 0x00000001, 0xFFFFFFFF⟩,
   ⟨"RECON_CHROMA", 0x00000002, 0xFFFFFCFF⟩, ⟨"SPLIT_LUMA", 0x00000003, 0xFFFFFFFF⟩,
   ⟨"SPLIT_CHROMA", 0x00000004, 0xFFFFFCFF⟩] ++
  [⟨"VDEC", 0x00000010, 0xFFFFFFFF⟩, ⟨"VENC", 0x00000011, 0xFFFFFCFF⟩] ++
  [⟨"STITCH_GEN", 0x00000020, 0xFFFFFFFF⟩, ⟨"ASM_LINE", 0x00000021, 0xFFFFFCFF⟩,
   ⟨"ASM_BLANK", 0x00000022, 0xFFFFFCFF⟩, ⟨"ASM_FRAME", 0x00000023, 0xFFFFFCFF⟩] ++
  [⟨"FRAG_CLEAR", 0x00000030, 0xFFFFFFFF⟩, ⟨"FRAG_QUERY", 0x00000031, 0xFFFFFCFF⟩]

/-- The opcode table's row of a command: its mnemonic. -/
def mnemonicOf : Instr → String
  | .nop => "NOP"
  | .reconLuma => "RECON_LUMA"
  | .reconChroma _ => "RECON_CHROMA"
  | .splitLuma => "SPLIT_LUMA"
  | .splitChroma _ => "SPLIT_CHROMA"
  | .vdec => "VDEC"
  | .venc _ => "VENC"
  | .stitchGen => "STITCH_GEN"
  | .asmLine _ => "ASM_LINE"
  | .asmBlank _ => "ASM_BLANK"
  | .asmFrame _ => "ASM_FRAME"
  | .fragClear => "FRAG_CLEAR"
  | .fragQuery _ => "FRAG_QUERY"

/-- The command the decoder reads from a word numbered as the opcode table numbers it (bit 0 the least significant; every
bit from `nbits` up is 0). A command is one 32-bit word (R68, R83), written to CMD as a whole, so no byte order enters. -/
def decodeTableWord (nbits w : Nat) : Option Instr :=
  match decode (BitVec.ofNat 32 (w % 2 ^ nbits)) with
  | .ok i => some i
  | .error _ => none

end Sys2Proof
end

