-- ==== Sys2Proof/Config.lean ====
section
/-! DEFINITION. The implementation parameters of 00_scope.md R7 and the free value of the host port (20_memory.md R57, R58).
A parameter that R7 calls OPEN is an opaque constant: nothing in Lean can evaluate it, so a proof about the reset state holds
whatever it is. The machine reads its parameters from its State (`State.params`), so a statement about every state holds for
every value of them. -/

namespace Sys2Proof

/-- ROM_BYTES is open between two sizes (R7, D40). -/
inductive RomSize
  | kib64
  | kib512
  deriving DecidableEq, Repr, Inhabited

/-- LSB_ORDER (R7, D11): which selector bit of the pair (p, p+4) is luma sample bit 0. -/
inductive LsbOrder
  | normal
  | swapped
  deriving DecidableEq, Repr, Inhabited

/-- BP169_MODE (R7, D18): the units the 16:9 back-porch offset is subtracted in. -/
inductive Bp169Mode
  | raw
  | scaled
  deriving DecidableEq, Repr, Inhabited

/-- One low-byte pattern of the 4:3 format: (lowBack, lowCentre, lowFront) (30_encoding.md R78). -/
structure Pattern where
  back : Byte
  centre : Byte
  front : Byte
  deriving DecidableEq, Repr, Inhabited

/-- The parameters of R7 that are not the same constant on every SPR block. `LOWBYTE_PATTERN[2]`, RPC and BP169_OFF are fixed
and stand in Machine/Operands.lean. -/
structure Params where
  romSize : RomSize
  /-- CPU_ROM_BYTES. -/
  cpuRomBytes : Nat
  pat0 : Pattern
  pat1 : Pattern
  pat3 : Pattern
  lsbOrder : LsbOrder
  bp169Mode : Bp169Mode
  /-- WHITE_LUMA, the reset value of BLANK_Y. -/
  whiteLuma : BitVec 10
  stitchCap : Nat
  rasterCapY : Nat
  rasterCapC : Nat
  /-- FRAG_CAP; `none` is "unbounded". -/
  fragCap : Option Nat
  vecCap : Nat
  deriving DecidableEq, Repr

/-- ROM_BYTES, the length L of every plane chip (R7). -/
def Params.romBytes (p : Params) : Nat :=
  match p.romSize with
  | .kib64 => 65536
  | .kib512 => 524288

/-- A bounded FRAG_CAP is below 0xFFFFFFFF, the value by which P_FRAG_CAP reports "unbounded" (10_state.md R23).
DEDUCED (log 7), safe. -/
abbrev Params.fragCapOk (p : Params) : Prop :=
  ∀ n ∈ p.fragCap, n < 0xFFFFFFFF

/-- The bounds that R7 puts on the parameters. -/
abbrev Params.wf (p : Params) : Prop :=
  p.cpuRomBytes ≤ 2 ^ 24 ∧ (1 ≤ p.stitchCap ∧ p.stitchCap ≤ 2 ^ 22) ∧ p.rasterCapY ≤ 2 ^ 23 ∧ p.rasterCapC ≤ 2 ^ 24 ∧
  (1 ≤ p.vecCap ∧ p.vecCap ≤ 2 ^ 20) ∧ p.fragCapOk

/-! ## The open parameters -/

/-- ROM_BYTES, OPEN between 65536 and 524288 (R7). -/
opaque Config.romSize : RomSize

/-- CPU_ROM_BYTES, OPEN, at most 2^24 (R7). -/
opaque Config.cpuRomBytes : Fin (2 ^ 24 + 1)

/-- LOWBYTE_PATTERN[0], OPEN (R7, R78). -/
opaque Config.pat0 : Pattern

/-- LOWBYTE_PATTERN[1], OPEN (R7, R78). -/
opaque Config.pat1 : Pattern

/-- LOWBYTE_PATTERN[3], OPEN (R7, R78). -/
opaque Config.pat3 : Pattern

/-- WHITE_LUMA, OPEN, 0 to 1023 (R7). -/
opaque Config.whiteLuma : BitVec 10

/-- STITCH_CAP less one: OPEN, 1 to 2^22 (R7). -/
opaque Config.stitchCapLessOne : BitVec 22

/-- RASTER_CAP_Y, OPEN, at most 2^23 (R7). -/
opaque Config.rasterCapY : Fin (2 ^ 23 + 1)

/-- RASTER_CAP_C, OPEN, at most 2^24 (R7). -/
opaque Config.rasterCapC : Fin (2 ^ 24 + 1)

/-- FRAG_CAP, OPEN, or unbounded (R7). -/
opaque Config.fragCap : Option (Fin 0xFFFFFFFF)

/-- VEC_CAP less one: OPEN, 1 to 2^20 (R7). -/
opaque Config.vecCapLessOne : BitVec 20

/-- The parameters of this hardware. LSB_ORDER and BP169_MODE are fixed by R7 (decisions D11 and D18). -/
def Config.params : Params where
  romSize := Config.romSize
  cpuRomBytes := Config.cpuRomBytes.val
  pat0 := Config.pat0
  pat1 := Config.pat1
  pat3 := Config.pat3
  lsbOrder := .normal
  bp169Mode := .raw
  whiteLuma := Config.whiteLuma
  stitchCap := Config.stitchCapLessOne.toNat + 1
  rasterCapY := Config.rasterCapY.val
  rasterCapC := Config.rasterCapC.val
  fragCap := Config.fragCap.map Fin.val
  vecCap := Config.vecCapLessOne.toNat + 1

/-- The free value of a host read of an unwritten element and of a refused read: "a draw, under no law" (20_memory.md R57,
R58), the n-th draw for the n-th such read. Log 4, safe. -/
opaque Config.freeRead : Nat → Word

end Sys2Proof
end

