-- ==== Sys2Proof/Machine/State.lean ====
section
/-! DEFINITION. The state of the SPR block as plain data (10_state.md), the reasons a step can stop, and the reset state
(10_state.md R47). -/

namespace Sys2Proof.Machine

/-- A component whose plane a command can act on: COMP without LUMA_LSB (00_scope.md R14, 30_encoding.md R70). -/
inductive Component
  | luma
  | rY
  | bY
  deriving DecidableEq, Repr

/-- STATUS (10_state.md R25), less its bits that always read 0. -/
structure Status where
  busy : Bool
  done : Bool
  err : Bool
  hosterr : Bool
  errcode : BitVec 8
  errop : BitVec 8
  deriving DecidableEq, Repr

/-- FAULT_INFO (10_state.md R35). -/
structure FaultInfo where
  space : BitVec 8
  index : BitVec 24
  deriving DecidableEq, Repr

/-- The configuration registers a host writes (10_state.md R23, R26 to R31); STITCH_GEN also writes STITCH_LEN. -/
structure CfgRegs where
  std : BitVec 3
  vtStart : BitVec 24
  vtLen : BitVec 24
  vtField : BitVec 8
  geomBpl : BitVec 16
  geomCl : BitVec 16
  geomFpl : BitVec 16
  geomLpf : BitVec 16
  stitchLen : BitVec 23
  blankY : BitVec 10
  blankC : BitVec 8
  deriving DecidableEq, Repr

/-- The argument registers ARG0 to ARG3 (10_state.md R20, R32). -/
structure ArgRegs where
  arg0 : Word
  arg1 : Word
  arg2 : Word
  arg3 : Word
  deriving DecidableEq, Repr

/-- Every memory space of 20_memory.md R49 in one list of bytes, keyed by host byte address, addresses strictly rising.
A byte that is not listed holds no value: its element is unwritten (10_state.md R42). Logs 11 and 14. -/
abbrev Memory := List Host.Cell

/-- The key of a fragment (10_state.md R44): component, raw address and raw length, in ROM-address units. -/
structure FragKey where
  comp : Component
  rawAddr : Word
  rawLen : Word
  deriving DecidableEq, Repr

/-- An entry of the PatternFragment map (10_state.md R44). -/
structure Fragment where
  key : FragKey
  samples : List Sample
  deriving DecidableEq, Repr

/-- One access of the host on the host port (20_memory.md R53, R56, R57): its byte address, its width in bytes, and for a
write the data, of which the low 8·bytes bits are transferred. Log 15. -/
inductive HostAccess
  | read (addr : Word) (bytes : Nat)
  | write (addr : Word) (bytes : Nat) (data : Word)
  deriving DecidableEq, Repr

/-- The state of the model. `params` to `frags` are the block's (INVENTORY.md, State); `script`, `replies` and `draws` are
the model's own: what the host does next, what its reads have returned, and how many unspecified values were drawn. -/
structure State where
  /-- The implementation parameters, which no step changes (00_scope.md R7, 10_state.md R36, 70_reset_and_hazards.md R149). -/
  params : Params
  cfg : CfgRegs
  args : ArgRegs
  cmd : Word
  result0 : Word
  status : Status
  faultInfo : FaultInfo
  mem : Memory
  /-- The PatternFragment map, sorted by key (log 13). -/
  frags : List Fragment
  /-- The host accesses still to come, oldest first (log 1). -/
  script : List HostAccess
  /-- The values returned to the host's reads, newest first (log 3). -/
  replies : List Word
  /-- How many unspecified values have been drawn (log 4). -/
  draws : Nat
  deriving DecidableEq, Repr

/-- Reasons for the machine to stop with a fault: NONE. Every fault the spec describes (60_exceptions.md R130) is taken, and
the machine goes on with STATUS.ERR set (R132, R135), so it is a next state. Log 18. -/
inductive Fault : Type
  deriving DecidableEq, Repr

/-- Reasons for the model to refuse a step. -/
inductive Refusal
  /-- Raised by `exec` for a command that has no meaning yet; safe. No arm raises it: every command has its meaning. -/
  | notModelled (mnemonic : String)
  /-- Raised by the host port for an access other than a read of STATUS while STATUS.BUSY = 1, which 20_memory.md R60 calls
  not specified (93_implementation_defined.md I9: refuse). No run reaches a state with BUSY = 1 between two steps, so the
  refusal is safe in itself; log 9 says what I9 leaves unsafe. -/
  | hostAccessWhileBusy
  deriving DecidableEq, Repr

/-- STATUS = 0 (10_state.md R47). -/
def Status.reset : Status where
  busy := false
  done := false
  err := false
  hosterr := false
  errcode := 0
  errop := 0

/-- The reset values of 10_state.md R23; BLANK_Y is loaded from WHITE_LUMA (70_reset_and_hazards.md R149). -/
def CfgRegs.reset (p : Params) : CfgRegs where
  std := 0
  vtStart := 0
  vtLen := 0
  vtField := 0
  geomBpl := 0
  geomCl := 0
  geomFpl := 0
  geomLpf := 0
  stitchLen := 0
  blankY := p.whiteLuma
  blankC := 128

/-- ARG0 to ARG3 at reset (10_state.md R23). -/
def ArgRegs.reset : ArgRegs where
  arg0 := 0
  arg1 := 0
  arg2 := 0
  arg3 := 0

/-- The block after power-on, for given parameters (10_state.md R47, 70_reset_and_hazards.md R147): every register at its
reset value, every element unwritten, the fragment map empty. The model's own fields start empty (logs 1, 3, 4). -/
def State.powerOn (p : Params) : State where
  params := p
  cfg := CfgRegs.reset p
  args := ArgRegs.reset
  cmd := 0
  result0 := 0
  status := Status.reset
  faultInfo := { space := 0, index := 0 }
  mem := []
  frags := []
  script := []
  replies := []
  draws := 0

/-- The machine right after reset: the block with this hardware's parameters after power-on. -/
def State.reset : State := State.powerOn Config.params

end Sys2Proof.Machine
end

