-- ==== Sys2Proof/Machine/Flags.lean ====
section
/-! DEFINITION. The block's only flags, the STATUS bits and fields (10_state.md R22, R25), and every computation of them:
the fault codes of 60_exceptions.md R130, the start of a command, its commit, its fault and a refused host access. -/

namespace Sys2Proof.Machine

/-- The six faults of a command (60_exceptions.md R130). -/
inductive Cause
  | illegal
  | config
  | range
  | unwritten
  | unrepr
  | fragFull
  deriving DecidableEq, Repr

/-- STATUS.ERRCODE of a fault (R130). -/
def Cause.code : Cause → BitVec 8
  | .illegal => 0x01
  | .config => 0x02
  | .range => 0x03
  | .unwritten => 0x04
  | .unrepr => 0x05
  | .fragFull => 0x06

/-- One STATUS bit, at its place in the word. -/
def flagBit (b : Bool) (place : Nat) : Word := if b then 1 <<< place else 0

/-- STATUS as the host reads it (R25): BUSY [0], DONE [1], ERR [2], HOSTERR [3], ERRCODE [15:8], ERROP [23:16], 0 elsewhere. -/
def Status.toWord (t : Status) : Word :=
  flagBit t.busy 0 ||| flagBit t.done 1 ||| flagBit t.err 2 ||| flagBit t.hosterr 3 |||
  (t.errcode.setWidth 32 <<< 8) ||| (t.errop.setWidth 32 <<< 16)

/-- A command starts: "DONE is cleared when a command starts", BUSY is 1 while it is in progress (R25, R133). -/
def Status.started (t : Status) : Status := { t with busy := true, done := false }

/-- A command commits: DONE <- 1 (R133), and no command is in progress any more. -/
def Status.committed (t : Status) : Status := { t with busy := false, done := true }

/-- A command faults (60_exceptions.md R132): ERR <- 1, ERRCODE <- code(F), ERROP <- CMD[7:0], DONE <- 0; and no command is in
progress any more. -/
def Status.faulted (t : Status) (c : Cause) (op : BitVec 8) : Status :=
  { t with busy := false, done := false, err := true, errcode := c.code, errop := op }

/-- The host port refuses an access: HOSTERR is set, nothing else (20_memory.md R58, 60_exceptions.md R137). -/
def Status.portRefused (t : Status) : Status := { t with hosterr := true }

/-- FAULT_INFO as the host reads it: SPACE [31:24], INDEX [23:0] (10_state.md R35). -/
def FaultInfo.toWord (f : FaultInfo) : Word := f.space ++ f.index

end Sys2Proof.Machine
end

