-- ==== Sys2Proof/Machine/Registers.lean ====
section
/-! DEFINITION. The names and byte offsets of the register space, space id 0x00 (10_state.md R23). -/

namespace Sys2Proof.Machine

/-- The registers of R23. Every other offset of the space is reserved (10_state.md R46). -/
inductive Reg
  | id
  | ctrl
  | status
  | std
  | vtStart
  | vtLen
  | vtField
  | geomBpl
  | geomCl
  | geomFpl
  | geomLpf
  | stitchLen
  | blankY
  | blankC
  | arg0
  | arg1
  | arg2
  | arg3
  | cmd
  | result0
  | faultInfo
  | fragCount
  | pRomBytes
  | pCpuRomBytes
  | pPat0
  | pPat1
  | pPat2
  | pPat3
  | pBp169
  | pOpts
  | pStitchCap
  | pRasterCapY
  | pRasterCapC
  | pFragCap
  | pVecCap
  deriving DecidableEq, Repr

/-- Byte offset within the register space (R23). -/
def Reg.offset : Reg → Nat
  | .id => 0x000
  | .ctrl => 0x004
  | .status => 0x008
  | .std => 0x00C
  | .vtStart => 0x010
  | .vtLen => 0x014
  | .vtField => 0x018
  | .geomBpl => 0x01C
  | .geomCl => 0x020
  | .geomFpl => 0x024
  | .geomLpf => 0x028
  | .stitchLen => 0x02C
  | .blankY => 0x030
  | .blankC => 0x034
  | .arg0 => 0x040
  | .arg1 => 0x044
  | .arg2 => 0x048
  | .arg3 => 0x04C
  | .cmd => 0x050
  | .result0 => 0x054
  | .faultInfo => 0x058
  | .fragCount => 0x05C
  | .pRomBytes => 0x080
  | .pCpuRomBytes => 0x084
  | .pPat0 => 0x088
  | .pPat1 => 0x08C
  | .pPat2 => 0x090
  | .pPat3 => 0x094
  | .pBp169 => 0x098
  | .pOpts => 0x09C
  | .pStitchCap => 0x0A0
  | .pRasterCapY => 0x0A4
  | .pRasterCapC => 0x0A8
  | .pFragCap => 0x0AC
  | .pVecCap => 0x0B0

/-- Every register of R23. -/
def Reg.all : List Reg :=
  [.id, .ctrl, .status, .std, .vtStart, .vtLen, .vtField, .geomBpl, .geomCl, .geomFpl, .geomLpf] ++
  [.stitchLen, .blankY, .blankC, .arg0, .arg1, .arg2, .arg3, .cmd, .result0, .faultInfo, .fragCount] ++
  [.pRomBytes, .pCpuRomBytes, .pPat0, .pPat1, .pPat2, .pPat3, .pBp169, .pOpts] ++
  [.pStitchCap, .pRasterCapY, .pRasterCapC, .pFragCap, .pVecCap]

/-- The register at an offset; `none` is a reserved offset (R46). -/
def Reg.ofOffset (off : Nat) : Option Reg := Reg.all.find? (fun r => r.offset == off)

end Sys2Proof.Machine
end

