-- ==== Sys2Proof/Machine/Spaces.lean ====
section
/-! DEFINITION. The memory spaces of 20_memory.md R49: ids, element widths, sizes, and the host byte address of an element
(R48, R49). The two vector files are kept apart from the spaces of plain elements because their element is a slot of four
words (10_state.md R37). -/

namespace Sys2Proof.Machine

/-- The spaces whose element is one value of 8, 16 or 32 bits. -/
inductive Space
  | lmsb0
  | lmsb1
  | lmsb2
  | lmsb3
  | llsb
  | ry0
  | ry1
  | by0
  | by1
  | cpurom
  | luma
  | ryp
  | byp
  | stitch
  | rasY
  | rasRY
  | rasBY
  deriving DecidableEq, Repr

/-- The scaling classes (00_scope.md R14); each has its vector file, VEC_L or VEC_C (10_state.md R37). -/
inductive ScaleClass
  | L
  | C
  deriving DecidableEq, Repr

/-- The space id (20_memory.md R49). -/
def Space.id : Space → BitVec 8
  | .lmsb0 => 0x01
  | .lmsb1 => 0x02
  | .lmsb2 => 0x03
  | .lmsb3 => 0x04
  | .llsb => 0x05
  | .ry0 => 0x06
  | .ry1 => 0x07
  | .by0 => 0x08
  | .by1 => 0x09
  | .cpurom => 0x0A
  | .luma => 0x10
  | .ryp => 0x11
  | .byp => 0x12
  | .stitch => 0x1A
  | .rasY => 0x20
  | .rasRY => 0x21
  | .rasBY => 0x22

/-- The id of a class's vector file, VEC_L or VEC_C (R49). -/
def ScaleClass.vecId : ScaleClass → BitVec 8
  | .L => 0x18
  | .C => 0x19

/-- Bytes of one element (R49). -/
def Space.bytes : Space → Nat
  | .lmsb0 => 1
  | .lmsb1 => 1
  | .lmsb2 => 1
  | .lmsb3 => 1
  | .llsb => 1
  | .ry0 => 1
  | .ry1 => 1
  | .by0 => 1
  | .by1 => 1
  | .cpurom => 1
  | .luma => 2
  | .ryp => 1
  | .byp => 1
  | .stitch => 4
  | .rasY => 2
  | .rasRY => 1
  | .rasBY => 1

/-- Number of elements (R49). -/
def Space.size (p : Params) : Space → Nat
  | .lmsb0 => p.romBytes
  | .lmsb1 => p.romBytes
  | .lmsb2 => p.romBytes
  | .lmsb3 => p.romBytes
  | .llsb => p.romBytes
  | .ry0 => p.romBytes
  | .ry1 => p.romBytes
  | .by0 => p.romBytes
  | .by1 => p.romBytes
  | .cpurom => p.cpuRomBytes
  | .luma => 4 * p.romBytes
  | .ryp => 2 * p.romBytes
  | .byp => 2 * p.romBytes
  | .stitch => p.stitchCap
  | .rasY => p.rasterCapY
  | .rasRY => p.rasterCapC
  | .rasBY => p.rasterCapC

/-- Every space of plain elements. -/
def Space.all : List Space :=
  [.lmsb0, .lmsb1, .lmsb2, .lmsb3, .llsb, .ry0, .ry1, .by0, .by1, .cpurom] ++
  [.luma, .ryp, .byp, .stitch, .rasY, .rasRY, .rasBY]

/-- The space of plain elements with an id, if there is one (R49). -/
def Space.ofId (i : BitVec 8) : Option Space := Space.all.find? (fun S => S.id == i)

/-- The class whose vector file has an id, if there is one (R49). -/
def ScaleClass.ofVecId (i : BitVec 8) : Option ScaleClass :=
  if i = 0x18 then some .L else if i = 0x19 then some .C else none

/-- The lowest host byte address of a space: `id << 24` (R49). -/
def spaceBase (i : BitVec 8) : Nat := i.toNat * 2 ^ 24

/-- The host byte address of element k: `id << 24 | k × w` (R49). -/
def Space.addr (S : Space) (k : Nat) : Nat := spaceBase S.id + k * S.bytes

/-- The host byte address of slot n of a vector file: byte offset 16n (R49); word j is at + 4j. -/
def ScaleClass.slotAddr (cls : ScaleClass) (n : Nat) : Nat := spaceBase cls.vecId + n * 16

/-- cls(c) (00_scope.md R14). -/
def Component.cls : Component → ScaleClass
  | .luma => .L
  | .rY => .C
  | .bY => .C

/-- The sample plane P(c) (42_raster_assembler.md, notation). -/
def Component.plane : Component → Space
  | .luma => .luma
  | .rY => .ryp
  | .bY => .byp

/-- The raster space RAS(c) (42_raster_assembler.md, notation). -/
def Component.raster : Component → Space
  | .luma => .rasY
  | .rY => .rasRY
  | .bY => .rasBY

end Sys2Proof.Machine
end

