-- ==== Sys2Proof/Machine/Ops.lean ====
section
/-! DEFINITION. The named operations of the block: memory by byte, by element and by vector-file slot; the fragment map; raising
a fault, taking it, committing, the soft reset; and the loops of the pseudocode (00_scope.md R11 to R13). -/

namespace Sys2Proof.Machine

/-! ## Memory, by byte -/

/-- The canonical form: addresses strictly rising. An unlisted address has no value to be equal to (log 14). -/
abbrev Memory.wf (m : Memory) : Prop := m.Pairwise (fun a b => a.1 < b.1)

/-- The byte at a host byte address; `none` when nothing has written it since reset (10_state.md R42). -/
def Memory.read : Memory → Nat → Option Byte
  | [], _ => none
  | c :: rest, a => if c.1 = a then some c.2 else Memory.read rest a

/-- Writes one byte, keeping the canonical form. -/
def Memory.write : Memory → Nat → Byte → Memory
  | [], a, b => [(a, b)]
  | c :: rest, a, b =>
    if a < c.1 then (a, b) :: c :: rest
    else if a = c.1 then (a, b) :: rest
    else c :: Memory.write rest a b

/-- The n bytes from an address as one value, the byte at the lower address being bits [7:0] (20_memory.md R52); `none` when
one of them is unwritten. -/
def Memory.readLE (m : Memory) : Nat → Nat → Option Word
  | _, 0 => some 0
  | a, n + 1 =>
    match Memory.read m a, Memory.readLE m (a + 1) n with
    | some lo, some hi => some ((hi <<< 8) ||| lo.setWidth 32)
    | _, _ => none

/-- Writes the low n bytes of a value, bits [7:0] at the lowest address (R52). -/
def Memory.writeLE (m : Memory) : Nat → Nat → Word → Memory
  | _, 0, _ => m
  | a, n + 1, v => Memory.writeLE (Memory.write m a (v.setWidth 8)) (a + 1) n (v >>> 8)

/-! ## Memory, by element and by slot -/

/-- `S[k]` (00_scope.md R11, 20_memory.md R48), zero-extended to 32 bits; `none` when the element is unwritten. -/
def State.read (s : State) (S : Space) (k : Nat) : Option Word := s.mem.readLE (S.addr k) S.bytes

/-- `written(S, k)` (10_state.md R42). -/
def State.written (s : State) (S : Space) (k : Nat) : Bool := (s.read S k).isSome

/-- `S[k] <- v`: the element takes the low bits of v, and is written from then on (R42). -/
def State.write (s : State) (S : Space) (k : Nat) (v : Word) : State :=
  { s with mem := s.mem.writeLE (S.addr k) S.bytes v }

/-- A VectorEntry in plane units (10_state.md R37). -/
structure VectorEntry where
  back : Word
  centre : Word
  front : Word
  hasFront : Bool
  deriving DecidableEq, Repr

/-- Word 3 of a slot: bit 0 is HAS_FRONT, the others are 0 (R37, 30_encoding.md R82). -/
def VectorEntry.flags (e : VectorEntry) : Word := if e.hasFront then 1 else 0

/-- The slot at a byte address: word 0 back, word 1 centre, word 2 front, word 3 flags (R82); `none` when it is unwritten. A
slot counts as one element (10_state.md R42). -/
def Memory.readSlot (m : Memory) (a : Nat) : Option VectorEntry :=
  match m.readLE a 4, m.readLE (a + 4) 4, m.readLE (a + 8) 4, m.readLE (a + 12) 4 with
  | some b, some c, some f, some g => some { back := b, centre := c, front := f, hasFront := g.getLsbD 0 }
  | _, _, _, _ => none

/-- Writes the slot at a byte address as a whole (10_state.md R37). -/
def Memory.writeSlot (m : Memory) (a : Nat) (e : VectorEntry) : Memory :=
  (((m.writeLE a 4 e.back).writeLE (a + 4) 4 e.centre).writeLE (a + 8) 4 e.front).writeLE (a + 12) 4 e.flags

/-- Slot n of a class's vector file; `none` when it is unwritten. -/
def State.readSlot (s : State) (cls : ScaleClass) (n : Nat) : Option VectorEntry := s.mem.readSlot (cls.slotAddr n)

/-- Writes slot n of a class's vector file. -/
def State.writeSlot (s : State) (cls : ScaleClass) (n : Nat) (e : VectorEntry) : State :=
  { s with mem := s.mem.writeSlot (cls.slotAddr n) e }

/-! ## The fragment map -/

/-- A component's number, for the order of keys only. -/
def Component.code : Component → Nat
  | .luma => 0
  | .rY => 1
  | .bY => 2

/-- A key as one number, equal only for equal keys: the order the map is kept in (log 13). -/
def FragKey.code (k : FragKey) : Nat := (k.comp.code * 2 ^ 32 + k.rawAddr.toNat) * 2 ^ 32 + k.rawLen.toNat

/-- `key in FRAG`: equality is structural (10_state.md R44, 43_session.md R128). -/
def State.hasFrag (s : State) (k : FragKey) : Bool := s.frags.any (fun f => f.key == k)

/-- The canonical form of the map: keys unique, in rising order. -/
abbrev fragsWf (fs : List Fragment) : Prop := fs.Pairwise (fun f g => f.key.code < g.key.code)

/-- Puts an entry with a new key at its place. -/
def fragInsert : List Fragment → Fragment → List Fragment
  | [], f => [f]
  | g :: gs, f => if f.key.code < g.key.code then f :: g :: gs else g :: fragInsert gs f

/-- FRAG_COUNT as the host reads it (R44): 32 bits (log 8). -/
def State.fragCount (s : State) : Word := BitVec.ofNat 32 s.frags.length

/-! ## Faults, commit and reset -/

/-- `raise F(info)` (00_scope.md R11): the fault and where it was found (60_exceptions.md R131). -/
structure Raised where
  cause : Cause
  space : BitVec 8
  index : BitVec 24
  deriving DecidableEq, Repr

/-- The fault concerns a register's value: (0xFF, its byte offset) (R131). -/
def atReg (c : Cause) (r : Reg) : Raised := { cause := c, space := 0xFF, index := BitVec.ofNat 24 r.offset }

/-- The fault was found at element k of the space with this id (R131). -/
def atElem (c : Cause) (i : BitVec 8) (k : Nat) : Raised := { cause := c, space := i, index := BitVec.ofNat 24 k }

/-- A step of a command's pseudocode: a value, or the fault it raised. The State threaded through it is the staging copy
(00_scope.md R12): later steps read what earlier ones wrote, and a raise discards it. -/
abbrev Staged := Except Raised

/-- Taking a fault (60_exceptions.md R132): STATUS and FAULT_INFO are written, and nothing else. -/
def State.takeFault (s : State) (f : Raised) : State :=
  { s with
    status := s.status.faulted f.cause (s.cmd.setWidth 8)
    faultInfo := { space := f.space, index := f.index } }

/-- The way back from a fault, the only one (R135): a reset. A write of CTRL with SRST = 1 does what power-on does
(70_reset_and_hazards.md R147); the parameters stay (R149). The model's own fields are not the block's, so they stay. -/
def State.softReset (s : State) : State :=
  { State.powerOn s.params with script := s.script, replies := s.replies, draws := s.draws }

/-- `commit` (60_exceptions.md R133): the staging copy becomes the state, with DONE <- 1. -/
def State.commit (s : State) : State := { s with status := s.status.committed }

/-- The end of a command that started in s: commit, or the fault taken in s, the staging copy discarded (R132, R133). -/
def State.finish (s : State) : Staged State → State
  | .ok t => t.commit
  | .error f => s.takeFault f

/-- Runs a command's pseudocode on a staging copy in which RESULT0 starts at 0 (R133); either way it ends. -/
def runCommand (body : State → Staged State) (s : State) : Host.Outcome State Fault Refusal :=
  .next (s.finish (body { s with result0 := 0 }))

/-! ## The steps of the pseudocode -/

/-- `if not p: raise f`. -/
def require (p : Prop) [Decidable p] (f : Raised) : Staged Unit := if p then .ok () else .error f

/-- `S[k]` inside a command: an unwritten element faults UNWRITTEN at (id(S), k) (10_state.md R42). -/
def State.fetch (s : State) (S : Space) (k : Nat) : Staged Word :=
  match s.read S k with
  | some v => .ok v
  | none => .error (atElem .unwritten S.id k)

/-- `V(c)[n]` inside a command: an unwritten slot faults UNWRITTEN. -/
def State.fetchSlot (s : State) (cls : ScaleClass) (n : Nat) : Staged VectorEntry :=
  match s.readSlot cls n with
  | some e => .ok e
  | none => .error (atElem .unwritten cls.vecId n)

/-- `for i in i0 .. i0+n-1`, in ascending order (00_scope.md R13). -/
def forRange (body : Nat → State → Staged State) : Nat → Nat → State → Staged State
  | _, 0, s => .ok s
  | i, n + 1, s =>
    match body i s with
    | .ok t => forRange body (i + 1) n t
    | .error f => .error f

/-- `S[k], S[k+1], ... <- xs`. -/
def State.writeRun (s : State) (S : Space) (k : Nat) : List Sample → State
  | [] => s
  | x :: xs => State.writeRun (s.write S k (x.setWidth 32)) S (k + 1) xs

/-- `[S[k], ..., S[k+n-1]]`, the first unwritten element faulting. -/
def State.fetchRun (s : State) (S : Space) : Nat → Nat → Staged (List Sample)
  | _, 0 => .ok []
  | k, n + 1 =>
    match s.fetch S k with
    | .error f => .error f
    | .ok v =>
      match s.fetchRun S (k + 1) n with
      | .error f => .error f
      | .ok vs => .ok (v.setWidth 16 :: vs)

end Sys2Proof.Machine
end

