-- ==== Sys2Proof/Machine/Operands.lean ====
section
/-! DEFINITION. Every operand form of the commands: the ARG registers, the COMP field, the Standard and its vector format, the
fixed parameters, the vector-table region and the geometry. Arithmetic is on mathematical integers and never wraps
(00_scope.md R10, 92_eei_decisions.md D42). -/

namespace Sys2Proof.Machine

/-! ## ARG registers (30_encoding.md R75) -/

/-- `x[0]`. -/
def State.x0 (s : State) : Nat := s.args.arg0.toNat

/-- `x[1]`. -/
def State.x1 (s : State) : Nat := s.args.arg1.toNat

/-- `x[2]`. -/
def State.x2 (s : State) : Nat := s.args.arg2.toNat

/-- `x[3]`. -/
def State.x3 (s : State) : Nat := s.args.arg3.toNat

/-! ## COMP (30_encoding.md R70) -/

/-- The component of a COMP value; LUMA_LSB is none. -/
def componentOf : Comp → Option Component
  | .luma => some .luma
  | .lumaLsb => none
  | .rY => some .rY
  | .bY => some .bY

/-- `if COMP = 1: raise CONFIG(0xFF, 0x050)`. -/
def selectComponent (c : Comp) : Staged Component :=
  match componentOf c with
  | some k => .ok k
  | none => .error (atReg .config .cmd)

/-- The chip pair (C0, C1) and the plane P of a chroma component (40_reconstructor.md R91). -/
structure ChromaSpaces where
  c0 : Space
  c1 : Space
  plane : Space
  deriving DecidableEq, Repr

/-- R91, R92: (RY0, RY1, RYP) for RY, (BY0, BY1, BYP) for BY. -/
def chromaOf : Comp → Option ChromaSpaces
  | .luma => none
  | .lumaLsb => none
  | .rY => some { c0 := .ry0, c1 := .ry1, plane := .ryp }
  | .bY => some { c0 := .by0, c1 := .by1, plane := .byp }

/-- `if c not in {RY, BY}: raise CONFIG(0xFF, 0x050)`. -/
def selectChroma (c : Comp) : Staged ChromaSpaces :=
  match chromaOf c with
  | some k => .ok k
  | none => .error (atReg .config .cmd)

/-! ## The Standard and its format (30_encoding.md R71) -/

/-- The vector formats. -/
inductive Format
  /-- 4:3. -/
  | f43
  /-- 16:9. -/
  | f169
  deriving DecidableEq, Repr

/-- R71: 0 PAL 4:3, 2 NTSC and 3 PAL-M use 4:3, 1 PAL 16:9 uses 16:9; 4 to 7 are reserved (10_state.md R26). -/
def formatOf (std : BitVec 3) : Option Format :=
  if std = 1 then some .f169 else if std.toNat ≤ 3 then some .f43 else none

/-- `if STD > 3: raise CONFIG(0xFF, 0x00C)`. -/
def State.format (s : State) : Staged Format :=
  match formatOf s.cfg.std with
  | some f => .ok f
  | none => .error (atReg .config .std)

/-- STD = 2 is NTSC (R71). -/
def State.isNtsc (s : State) : Bool := s.cfg.std == 2

/-- E, the bytes of a record (R71). -/
def Format.recBytes : Format → Nat
  | .f43 => 3
  | .f169 => 2

/-- Does a line have a front-porch segment (R71)? -/
def Format.hasFront : Format → Bool
  | .f43 => true
  | .f169 => false

/-! ## Fixed parameters (00_scope.md R7) -/

/-- RPC of a scaling class: 4 for luma, 2 for chroma. -/
def ScaleClass.rpc : ScaleClass → Nat
  | .L => 4
  | .C => 2

/-- RPC(c). -/
def Component.rpc (c : Component) : Nat := c.cls.rpc

/-- BP169_OFF of a scaling class: 1024 for luma, 512 for chroma. -/
def ScaleClass.off : ScaleClass → Nat
  | .L => 1024
  | .C => 512

/-- LOWBYTE_PATTERN[2], the one pattern R78 fixes. -/
def pat2 : Pattern := { back := 0x00, centre := 0x00, front := 0x40 }

/-- LOWBYTE_PATTERN[s] (R78). -/
def patternOf (p : Params) (s : BitVec 2) : Pattern :=
  if s = 0 then p.pat0 else if s = 1 then p.pat1 else if s = 2 then pat2 else p.pat3

/-! ## The vector-table region (30_encoding.md R80) -/

/-- `A(n) = VT_START + VT_LEN × VT_FIELD + n × E`. -/
def State.recAddr (s : State) (f : Format) (n : Nat) : Nat :=
  s.cfg.vtStart.toNat + s.cfg.vtLen.toNat * s.cfg.vtField.toNat + n * f.recBytes

/-- `N = floor(VT_LEN / E)`. -/
def State.slotCount (s : State) (f : Format) : Nat := s.cfg.vtLen.toNat / f.recBytes

/-! ## Geometry (42_raster_assembler.md R111, R112) -/

/-- BPLs(c). -/
def State.bpl (s : State) (c : Component) : Nat := s.cfg.geomBpl.toNat * c.rpc

/-- CLs(c). -/
def State.cl (s : State) (c : Component) : Nat := s.cfg.geomCl.toNat * c.rpc

/-- FPLs(c): GEOM_FPL is read under a 4:3 Standard only. -/
def State.fpl (s : State) (f : Format) (c : Component) : Nat :=
  match f with
  | .f43 => s.cfg.geomFpl.toNat * c.rpc
  | .f169 => 0

/-- W(c). -/
def State.lineWidth (s : State) (f : Format) (c : Component) : Nat := s.bpl c + s.cl c + s.fpl f c

/-- cap(c) (42_raster_assembler.md, notation). -/
def rasterCap (p : Params) (c : Component) : Nat := c.raster.size p

/-- The value of a blank line's samples: BLANK_Y for LUMA, BLANK_C for RY and BY (R121). -/
def State.blankValue (s : State) (c : Component) : Sample :=
  match c with
  | .luma => s.cfg.blankY.setWidth 16
  | .rY => s.cfg.blankC.setWidth 16
  | .bY => s.cfg.blankC.setWidth 16

end Sys2Proof.Machine
end

