-- ==== Sys2Proof/Machine/RasterAssembler.lean ====
section
/-! DEFINITION. The raster assembler (42_raster_assembler.md): line assembly, fragment recording, STITCH_GEN, ASM_LINE,
ASM_BLANK, ASM_FRAME. -/

namespace Sys2Proof.Machine

/-! ## Line assembly (R113 to R116) -/

/-- A segment of a line: its first plane element and its length in samples. -/
structure Segment where
  start : Nat
  len : Nat
  deriving DecidableEq, Repr

/-- The segments of a line of component c from an entry, left to right (R113). -/
def State.segments (s : State) (f : Format) (c : Component) (e : VectorEntry) : List Segment :=
  let two := [⟨e.back.toNat, s.bpl c⟩, ⟨e.centre.toNat, s.cl c⟩]
  match f with
  | .f43 => two ++ [⟨e.front.toNat, s.fpl .f43 c⟩]
  | .f169 => two

/-- The fragment key of a segment (R116). -/
def segKey (c : Component) (g : Segment) : FragKey where
  comp := c
  rawAddr := BitVec.ofNat 32 (g.start / c.rpc)
  rawLen := BitVec.ofNat 32 (g.len / c.rpc)

/-- Fragment recording (R116): a key already present is kept as it is; a new one needs room. -/
def State.recordFragment (s : State) (k : FragKey) (xs : List Sample) : Staged State :=
  if s.hasFrag k then .ok s
  else if s.params.fragCap = some s.frags.length then .error (atReg .fragFull .fragCount)
  else .ok { s with frags := fragInsert s.frags { key := k, samples := xs } }

/-- Checks, copies and records one segment (R115, R116). A segment with len = 0 is never checked and never recorded. -/
def State.assembleSegment (s : State) (c : Component) (g : Segment) : Staged (State × List Sample) :=
  if g.len = 0 then .ok (s, [])
  else do
    require (g.start + g.len ≤ c.plane.size s.params) (atElem .range c.plane.id g.start)
    let xs ← s.fetchRun c.plane g.start g.len
    let t ← s.recordFragment (segKey c g) xs
    .ok (t, xs)

/-- Assembles the segments from left to right (R113): the state with their fragments, and the line. -/
def State.assemble (s : State) (c : Component) : List Segment → Staged (State × List Sample)
  | [] => .ok (s, [])
  | g :: gs =>
    match s.assembleSegment c g with
    | .error f => .error f
    | .ok (t, xs) =>
      match t.assemble c gs with
      | .error f => .error f
      | .ok (u, ys) => .ok (u, xs ++ ys)

/-- Output line j of component c: element `j × W(c) + x` of its raster space (R117, 10_state.md R41). -/
def State.writeLine (s : State) (f : Format) (c : Component) (j : Nat) (line : List Sample) : State :=
  s.writeRun c.raster (j * s.lineWidth f c) line

/-- The blank line of component c (R121). -/
def State.blankLine (s : State) (f : Format) (c : Component) : List Sample :=
  List.replicate (s.lineWidth f c) (s.blankValue c)

/-- Line j of component c from vector slot n: the slot's written check, the agreement of its HAS_FRONT with the Standard's
format (R114), and the entry. -/
def State.lineEntry (s : State) (f : Format) (c : Component) (n : Nat) : Staged VectorEntry := do
  let e ← s.fetchSlot c.cls n
  require (e.hasFront = f.hasFront) (atElem .config c.cls.vecId n)
  .ok e

/-- Assembles output line j from an entry and writes it (R113, R115 to R117). -/
def State.assembleLine (s : State) (f : Format) (c : Component) (e : VectorEntry) (j : Nat) : Staged State := do
  let r ← s.assemble c (s.segments f c e)
  .ok (r.1.writeLine f c j r.2)

/-! ## STITCH_GEN (R118, R119) -/

/-- The vector slot of output line t in the generic order (R118 (a), (b)). -/
def State.stitchSlot (s : State) (f : Format) (t : Nat) : Nat :=
  match f with
  | .f43 => if t % 2 = 0 then t / 2 else (t - 1) / 2 + s.cfg.geomLpf.toNat + 1
  | .f169 => t

/-- The loop body of R119: one entry, with BLANK = 0, RSVD = 0 and VINDEX = v. -/
def stitchGenAt (f : Format) (t : Nat) (s : State) : Staged State := do
  require (s.stitchSlot f t ≤ 0xFFFFF) (atReg .range .arg0)
  .ok (s.write .stitch t (BitVec.ofNat 32 (s.stitchSlot f t)))

/-- The pseudocode of STITCH_GEN (R119). -/
def stitchGenBody (s : State) : Staged State := do
  let f ← s.format
  require (s.x0 ≤ s.params.stitchCap) (atReg .range .arg0)
  let t ← forRange (stitchGenAt f) 0 s.x0 s
  .ok { t with cfg := { t.cfg with stitchLen := s.args.arg0.setWidth 23 } }

/-- STITCH_GEN (R119). -/
def execStitchGen (s : State) : Host.Outcome State Fault Refusal :=
  runCommand stitchGenBody s

/-! ## ASM_LINE (R120) -/

/-- The pseudocode of ASM_LINE (R120). -/
def asmLineBody (c : Comp) (s : State) : Staged State := do
  let k ← selectComponent c
  let f ← s.format
  require (s.x0 < s.params.vecCap) (atReg .range .arg0)
  let e ← s.lineEntry f k s.x0
  require ((s.x1 + 1) * s.lineWidth f k ≤ rasterCap s.params k) (atReg .range .arg1)
  s.assembleLine f k e s.x1

/-- ASM_LINE (R120). -/
def execAsmLine (c : Comp) (s : State) : Host.Outcome State Fault Refusal :=
  runCommand (asmLineBody c) s

/-! ## ASM_BLANK (R122) -/

/-- The pseudocode of ASM_BLANK (R122). -/
def asmBlankBody (c : Comp) (s : State) : Staged State := do
  let k ← selectComponent c
  let f ← s.format
  require (s.isNtsc = true) (atReg .config .std)
  require ((s.x1 + 1) * s.lineWidth f k ≤ rasterCap s.params k) (atReg .range .arg1)
  .ok (s.writeLine f k s.x1 (s.blankLine f k))

/-- ASM_BLANK (R122): blank lines belong to NTSC only. -/
def execAsmBlank (c : Comp) (s : State) : Host.Outcome State Fault Refusal :=
  runCommand (asmBlankBody c) s

/-! ## ASM_FRAME (R123) -/

/-- A stitch entry's BLANK bit (30_encoding.md R81). -/
def stitchBlank (w : Word) : Bool := w.getLsbD 31

/-- A stitch entry's RSVD field (R81). -/
def stitchRsvd (w : Word) : BitVec 11 := w.extractLsb' 20 11

/-- A stitch entry's VINDEX field (R81). -/
def stitchVindex (w : Word) : Nat := (w.extractLsb' 0 20).toNat

/-- The loop body of R123: output line t. -/
def asmFrameAt (f : Format) (c : Component) (t : Nat) (s : State) : Staged State := do
  let w ← s.fetch .stitch t
  require (stitchRsvd w = 0) (atElem .config Space.stitch.id t)
  if stitchBlank w then
    require (s.isNtsc = true) (atElem .config Space.stitch.id t)
    .ok (s.writeLine f c t (s.blankLine f c))
  else
    require (stitchVindex w < s.params.vecCap) (atElem .range Space.stitch.id t)
    let e ← s.lineEntry f c (stitchVindex w)
    s.assembleLine f c e t

/-- The pseudocode of ASM_FRAME (R123). -/
def asmFrameBody (c : Comp) (s : State) : Staged State := do
  let k ← selectComponent c
  let f ← s.format
  require (s.cfg.stitchLen.toNat ≤ s.params.stitchCap) (atReg .range .stitchLen)
  require (s.cfg.stitchLen.toNat * s.lineWidth f k ≤ rasterCap s.params k) (atReg .range .stitchLen)
  forRange (asmFrameAt f k) 0 s.cfg.stitchLen.toNat s

/-- ASM_FRAME (R123). -/
def execAsmFrame (c : Comp) (s : State) : Host.Outcome State Fault Refusal :=
  runCommand (asmFrameBody c) s

end Sys2Proof.Machine
end

