-- ==== Sys2Proof/Machine/Reconstructor.lean ====
section
/-! DEFINITION. Sample plane reconstruction and write-back (40_reconstructor.md): RECON_LUMA, RECON_CHROMA, SPLIT_LUMA,
SPLIT_CHROMA. -/

namespace Sys2Proof.Machine

/-! ## Unpack and pack (R88, R94, 30_encoding.md R76) -/

/-- `lsb2(sel, p)` (R88). -/
def lsb2 (o : LsbOrder) (sel : Byte) (p : Nat) : BitVec 2 :=
  match o with
  | .normal => BitVec.ofBool (sel.getLsbD (p + 4)) ++ BitVec.ofBool (sel.getLsbD p)
  | .swapped => BitVec.ofBool (sel.getLsbD p) ++ BitVec.ofBool (sel.getLsbD (p + 4))

/-- `unpack10(m, sel, p) = (m << 2) | lsb2(sel, p)` (R88). -/
def unpack10 (o : LsbOrder) (m sel : Byte) (p : Nat) : BitVec 10 := m ++ lsb2 o sel p

/-- The bits a sample puts into the selector byte: its place in the OR of R94. -/
def place (o : LsbOrder) (v : BitVec 10) (p : Nat) : Byte :=
  match o with
  | .normal => ((BitVec.ofBool (v.getLsbD 0)).setWidth 8 <<< p) ||| ((BitVec.ofBool (v.getLsbD 1)).setWidth 8 <<< (p + 4))
  | .swapped => ((BitVec.ofBool (v.getLsbD 1)).setWidth 8 <<< p) ||| ((BitVec.ofBool (v.getLsbD 0)).setWidth 8 <<< (p + 4))

/-- The MSB chip byte of a sample: `v[9:2]` (R94). -/
def msbOf (v : BitVec 10) : Byte := v.extractLsb' 2 8

/-- The selector byte of four samples, built from 0 (R94, D12). -/
def selOf (o : LsbOrder) (v0 v1 v2 v3 : BitVec 10) : Byte :=
  place o v0 0 ||| place o v1 1 ||| place o v2 2 ||| place o v3 3

/-! ## RECON_LUMA (R89) -/

/-- The loop body of R89: one raw address. -/
def reconLumaAt (i : Nat) (s : State) : Staged State := do
  let m0 ← s.fetch .lmsb0 i
  let m1 ← s.fetch .lmsb1 i
  let m2 ← s.fetch .lmsb2 i
  let m3 ← s.fetch .lmsb3 i
  let sel ← s.fetch .llsb i
  let u (m : Word) (p : Nat) : Word := (unpack10 s.params.lsbOrder (m.setWidth 8) (sel.setWidth 8) p).setWidth 32
  .ok ((((s.write .luma (4 * i) (u m0 0)).write .luma (4 * i + 1) (u m1 1)).write .luma (4 * i + 2) (u m2 2)).write
    .luma (4 * i + 3) (u m3 3))

/-- The argument check that the four commands of this family share: `if i0 + n > L: raise RANGE(0xFF, 0x044)`. -/
def State.requireRawRange (s : State) : Staged Unit :=
  require (s.x0 + s.x1 ≤ s.params.romBytes) (atReg .range .arg1)

/-- The pseudocode of RECON_LUMA (R89). -/
def reconLumaBody (s : State) : Staged State := do
  s.requireRawRange
  forRange reconLumaAt s.x0 s.x1 s

/-- RECON_LUMA (R89). -/
def execReconLuma (s : State) : Host.Outcome State Fault Refusal :=
  runCommand reconLumaBody s

/-! ## RECON_CHROMA (R92) -/

/-- The loop body of R92: one raw address. -/
def reconChromaAt (k : ChromaSpaces) (i : Nat) (s : State) : Staged State := do
  let a ← s.fetch k.c0 i
  let b ← s.fetch k.c1 i
  .ok ((s.write k.plane (2 * i) a).write k.plane (2 * i + 1) b)

/-- The pseudocode of RECON_CHROMA (R92). -/
def reconChromaBody (c : Comp) (s : State) : Staged State := do
  let k ← selectChroma c
  s.requireRawRange
  forRange (reconChromaAt k) s.x0 s.x1 s

/-- RECON_CHROMA (R92). -/
def execReconChroma (c : Comp) (s : State) : Host.Outcome State Fault Refusal :=
  runCommand (reconChromaBody c) s

/-! ## SPLIT_LUMA (R95) -/

/-- One luma sample read for write-back: the unwritten check, then the range check (R95). -/
def State.fetchLuma10 (s : State) (k : Nat) : Staged (BitVec 10) := do
  let v ← s.fetch .luma k
  require (v.toNat ≤ 1023) (atElem .range Space.luma.id k)
  .ok (v.setWidth 10)

/-- The loop body of R95: one raw address. -/
def splitLumaAt (i : Nat) (s : State) : Staged State := do
  let v0 ← s.fetchLuma10 (4 * i)
  let v1 ← s.fetchLuma10 (4 * i + 1)
  let v2 ← s.fetchLuma10 (4 * i + 2)
  let v3 ← s.fetchLuma10 (4 * i + 3)
  let s := s.write .lmsb0 i ((msbOf v0).setWidth 32)
  let s := s.write .lmsb1 i ((msbOf v1).setWidth 32)
  let s := s.write .lmsb2 i ((msbOf v2).setWidth 32)
  let s := s.write .lmsb3 i ((msbOf v3).setWidth 32)
  .ok (s.write .llsb i ((selOf s.params.lsbOrder v0 v1 v2 v3).setWidth 32))

/-- The pseudocode of SPLIT_LUMA (R95). -/
def splitLumaBody (s : State) : Staged State := do
  s.requireRawRange
  forRange splitLumaAt s.x0 s.x1 s

/-- SPLIT_LUMA (R95). -/
def execSplitLuma (s : State) : Host.Outcome State Fault Refusal :=
  runCommand splitLumaBody s

/-! ## SPLIT_CHROMA (R97) -/

/-- The loop body of R97: one raw address. -/
def splitChromaAt (k : ChromaSpaces) (i : Nat) (s : State) : Staged State := do
  let a ← s.fetch k.plane (2 * i)
  let b ← s.fetch k.plane (2 * i + 1)
  .ok ((s.write k.c0 i a).write k.c1 i b)

/-- The pseudocode of SPLIT_CHROMA (R97). -/
def splitChromaBody (c : Comp) (s : State) : Staged State := do
  let k ← selectChroma c
  s.requireRawRange
  forRange (splitChromaAt k) s.x0 s.x1 s

/-- SPLIT_CHROMA (R97). -/
def execSplitChroma (c : Comp) (s : State) : Host.Outcome State Fault Refusal :=
  runCommand (splitChromaBody c) s

end Sys2Proof.Machine
end

