-- ==== Sys2Proof/Machine/Session.lean ====
section
/-! DEFINITION. The session commands (43_session.md): NOP, FRAG_CLEAR, FRAG_QUERY. -/

namespace Sys2Proof.Machine

/-- The pseudocode of NOP (R126). -/
def nopBody (s : State) : Staged State := .ok s

/-- NOP (R126): commit. -/
def execNop (s : State) : Host.Outcome State Fault Refusal :=
  runCommand nopBody s

/-- The pseudocode of FRAG_CLEAR (R127). -/
def fragClearBody (s : State) : Staged State := .ok { s with frags := [] }

/-- FRAG_CLEAR (R127): empties the fragment map. -/
def execFragClear (s : State) : Host.Outcome State Fault Refusal :=
  runCommand fragClearBody s

/-- The pseudocode of FRAG_QUERY (R128). -/
def fragQueryBody (c : Comp) (s : State) : Staged State := do
  let k ← selectComponent c
  let hit := s.hasFrag { comp := k, rawAddr := s.args.arg0, rawLen := s.args.arg1 }
  .ok { s with result0 := if hit then 1 else 0 }

/-- FRAG_QUERY (R128): RESULT0 is 1 on a hit and 0 on a miss. -/
def execFragQuery (c : Comp) (s : State) : Host.Outcome State Fault Refusal :=
  runCommand (fragQueryBody c) s

end Sys2Proof.Machine
end

