-- ==== Sys2Proof/Machine/VectorCodec.lean ====
section
/-! DEFINITION. The vector table codec (41_vector_codec.md): the pure decode and encode of one record, VDEC and VENC. -/

namespace Sys2Proof.Machine

/-! ## Decode (R100 to R103) -/

/-- Raw addresses of a record, in ROM-address units. -/
structure RawTriple where
  back : Nat
  centre : Nat
  front : Nat
  deriving DecidableEq, Repr

/-- 4:3 raw decode (R100): the high bytes from the record, the low bytes from the pattern that sequence[1:0] selects. -/
def dec43 (p : Params) (seq msbA msbB : Byte) : RawTriple :=
  let low := patternOf p (seq.setWidth 2)
  { back := (msbA ++ low.back).toNat
    centre := (msbB ++ low.centre).toNat
    front := (msbA ++ low.front).toNat }

/-- 4:3 scaling (R101): the raw triple times RPC, with HAS_FRONT = 1. -/
def scale43 (t : RawTriple) (cls : ScaleClass) : VectorEntry where
  back := BitVec.ofNat 32 (t.back * cls.rpc)
  centre := BitVec.ofNat 32 (t.centre * cls.rpc)
  front := BitVec.ofNat 32 (t.front * cls.rpc)
  hasFront := true

/-- 16:9 raw centre (R102): control bit 3 is bit 18, bit 2 is bit 17, bit 5 is bit 16, then addressHigh, then eight zeros. -/
def rawCentre169 (addressHigh control : Byte) : Nat :=
  (BitVec.ofBool (control.getLsbD 3) ++ BitVec.ofBool (control.getLsbD 2) ++ BitVec.ofBool (control.getLsbD 5) ++
    addressHigh ++ (0 : BitVec 8)).toNat

/-- `back169`: the 16:9 back porch of a raw centre (R103), negative when it underflows. -/
def back169 (p : Params) (rc : Nat) (cls : ScaleClass) : Int :=
  match p.bp169Mode with
  | .raw => ((rc : Int) - cls.off) * cls.rpc
  | .scaled => (rc : Int) * cls.rpc - cls.off

/-- 16:9 scaling (R103), for a back porch that is not negative: no front porch. -/
def scale169 (p : Params) (rc : Nat) (cls : ScaleClass) : VectorEntry where
  back := BitVec.ofNat 32 (back169 p rc cls).toNat
  centre := BitVec.ofNat 32 (rc * cls.rpc)
  front := 0
  hasFront := false

/-! ## Encode (R104, R105) -/

/-- `PAT[s] = lows`. -/
def patternIs (p : Params) (s : BitVec 2) (back centre front : Nat) : Bool :=
  (patternOf p s).back.toNat == back && (patternOf p s).centre.toNat == centre && (patternOf p s).front.toNat == front

/-- The least s whose pattern is the given low bytes (R104). -/
def leastPattern (p : Params) (back centre front : Nat) : Option (BitVec 2) :=
  ([0, 1, 2, 3] : List (BitVec 2)).find? (fun s => patternIs p s back centre front)

/-- 4:3 encode (R104): the three bytes of the record, or UNREPR. -/
def enc43 (p : Params) (b c f : Nat) (cls : ScaleClass) : Staged (List Byte) := do
  let r := cls.rpc
  require (b % r = 0 ∧ b / r ≤ 0xFFFF) (atReg .unrepr .arg1)
  require (c % r = 0 ∧ c / r ≤ 0xFFFF) (atReg .unrepr .arg2)
  require (f % r = 0 ∧ f / r ≤ 0xFFFF ∧ (f / r) / 256 = (b / r) / 256) (atReg .unrepr .arg3)
  match leastPattern p (b / r % 256) (c / r % 256) (f / r % 256) with
  | none => .error (atReg .unrepr .pPat0)
  | some s => .ok [s.setWidth 8, BitVec.ofNat 8 (b / r / 256), BitVec.ofNat 8 (c / r / 256)]

/-- The control byte of a raw centre (R105): bit 16 at 0x20, bit 17 at 0x04, bit 18 at 0x08, every other bit 0. -/
def control169 (rc : Nat) : Byte :=
  let b (i k : Nat) : Byte := (BitVec.ofBool (rc.testBit i)).setWidth 8 <<< k
  b 16 5 ||| b 17 2 ||| b 18 3

/-- 16:9 encode (R105): the two bytes of the record, or UNREPR. -/
def enc169 (p : Params) (b c f : Nat) (cls : ScaleClass) : Staged (List Byte) := do
  let r := cls.rpc
  require (c % r = 0) (atReg .unrepr .arg2)
  let rc := c / r
  require (rc % 256 = 0 ∧ rc < 2 ^ 19) (atReg .unrepr .arg2)
  require ((b : Int) = back169 p rc cls) (atReg .unrepr .arg1)
  require (f = 0) (atReg .unrepr .arg3)
  .ok [BitVec.ofNat 8 (rc / 256), control169 rc]

/-! ## VDEC (R108) -/

/-- One byte of a record, read from the CPU ROM. -/
def State.fetchRom (s : State) (a : Nat) : Staged Byte := do
  let v ← s.fetch .cpurom a
  .ok (v.setWidth 8)

/-- The loop body of R108: one slot, both vector files. -/
def vdecAt (f : Format) (n : Nat) (s : State) : Staged State := do
  let a := s.recAddr f n
  match f with
  | .f43 =>
    let seq ← s.fetchRom a
    let msbA ← s.fetchRom (a + 1)
    let msbB ← s.fetchRom (a + 2)
    let t := dec43 s.params seq msbA msbB
    .ok ((s.writeSlot .L n (scale43 t .L)).writeSlot .C n (scale43 t .C))
  | .f169 =>
    let high ← s.fetchRom a
    let control ← s.fetchRom (a + 1)
    let rc := rawCentre169 high control
    require (0 ≤ back169 s.params rc .L ∧ 0 ≤ back169 s.params rc .C) (atElem .range Space.cpurom.id a)
    .ok ((s.writeSlot .L n (scale169 s.params rc .L)).writeSlot .C n (scale169 s.params rc .C))

/-- The pseudocode of VDEC (R108). -/
def vdecBody (s : State) : Staged State := do
  let f ← s.format
  require (s.x0 + s.x1 ≤ s.slotCount f ∧ s.x0 + s.x1 ≤ s.params.vecCap) (atReg .range .arg1)
  require (s.x1 = 0 ∨ s.recAddr f (s.x0 + s.x1 - 1) + f.recBytes ≤ s.params.cpuRomBytes) (atReg .range .vtStart)
  let t ← forRange (vdecAt f) s.x0 s.x1 s
  .ok { t with result0 := s.args.arg1 }

/-- VDEC (R108): RESULT0 is the number of slots decoded. -/
def execVdec (s : State) : Host.Outcome State Fault Refusal :=
  runCommand vdecBody s

/-! ## VENC (R109) -/

/-- The record of an entry in the Standard's format (R104, R105). -/
def encodeEntry (p : Params) (f : Format) (b c fr : Nat) (cls : ScaleClass) : Staged (List Byte) :=
  match f with
  | .f43 => enc43 p b c fr cls
  | .f169 => enc169 p b c fr cls

/-- `for k in 0 .. E-1: CPUROM[a + k] <- record[k]` (30_encoding.md R51: in increasing address order). -/
def State.writeRecord (s : State) (a : Nat) (bytes : List Byte) : State :=
  s.writeRun .cpurom a (bytes.map (fun b => b.setWidth 16))

/-- The pseudocode of VENC (R109). -/
def vencBody (c : Comp) (s : State) : Staged State := do
  let k ← selectComponent c
  let f ← s.format
  require (s.x0 < s.slotCount f) (atReg .range .arg0)
  require (s.recAddr f s.x0 + f.recBytes ≤ s.params.cpuRomBytes) (atReg .range .vtStart)
  let bytes ← encodeEntry s.params f s.x1 s.x2 s.x3 k.cls
  .ok (s.writeRecord (s.recAddr f s.x0) bytes)

/-- VENC (R109). COMP only selects the scaling class. -/
def execVenc (c : Comp) (s : State) : Host.Outcome State Fault Refusal :=
  runCommand (vencBody c) s

end Sys2Proof.Machine
end

