-- ==== Sys2Proof/Machine/Dispatch.lean ====
section
/-! DEFINITION. The meaning of each command: "perform the command of w.OPC (its rule)" (60_exceptions.md R133). What stands
around it in a command step, the store to CMD and the test of ERR, is Machine/Command.lean's. -/

namespace Sys2Proof.Machine

def exec (i : Instr) (s : State) : Host.Outcome State Fault Refusal :=
  match i with
  | .nop => Sys2Proof.Machine.execNop s
  | .reconLuma => Sys2Proof.Machine.execReconLuma s
  | .reconChroma c => Sys2Proof.Machine.execReconChroma c s
  | .splitLuma => Sys2Proof.Machine.execSplitLuma s
  | .splitChroma c => Sys2Proof.Machine.execSplitChroma c s
  | .vdec => Sys2Proof.Machine.execVdec s
  | .venc c => Sys2Proof.Machine.execVenc c s
  | .stitchGen => Sys2Proof.Machine.execStitchGen s
  | .asmLine c => Sys2Proof.Machine.execAsmLine c s
  | .asmBlank c => Sys2Proof.Machine.execAsmBlank c s
  | .asmFrame c => Sys2Proof.Machine.execAsmFrame c s
  | .fragClear => Sys2Proof.Machine.execFragClear s
  | .fragQuery c => Sys2Proof.Machine.execFragQuery c s

end Sys2Proof.Machine
end

