-- ==== Sys2Proof/Machine/Command.lean ====
section
/-! DEFINITION. The command step (60_exceptions.md R133): what a host write of a word to CMD does. -/

namespace Sys2Proof.Machine

/-- `CMD <- w`. -/
def State.setCmd (s : State) (w : Word) : State := { s with cmd := w }

/-- A command starts: DONE <- 0, and BUSY is 1 while it is in progress (10_state.md R25). -/
def State.startCommand (s : State) : State := { s with status := s.status.started }

/-- Performs the command of a word in the state it starts in: an illegal word faults ILLEGAL (30_encoding.md R73). -/
def runWord (w : Word) (s : State) : Host.Outcome State Fault Refusal :=
  match decode w with
  | .ok i => exec i s
  | .error _ => .next (s.takeFault (atReg .illegal .cmd))

/-- R133: `CMD <- w`; while ERR = 1 nothing else changes (R135); otherwise the command runs. -/
def issueCommand (w : Word) (s : State) : Host.Outcome State Fault Refusal :=
  if s.status.err then .next (s.setCmd w)
  else runWord w (s.setCmd w).startCommand

end Sys2Proof.Machine
end

