-- ==== Sys2Proof/Machine/HostPort.lean ====
section
/-! DEFINITION. The host port (20_memory.md): which element an access names, which accesses are refused, what a read returns
and what a write does; the register space (10_state.md R23 to R36, R46); and one step of the host's script. -/

namespace Sys2Proof.Machine

/-! ## The register space -/

/-- A pattern register's word: `front << 16 | centre << 8 | back` (10_state.md R36). -/
def patternWord (p : Pattern) : Word := (0 : BitVec 8) ++ p.front ++ p.centre ++ p.back

/-- P_OPTS (R23): bit 0 LSB_ORDER, bit 1 BP169_MODE. -/
def optsWord (p : Params) : Word :=
  flagBit (p.lsbOrder == .swapped) 0 ||| flagBit (p.bp169Mode == .scaled) 1

/-- P_FRAG_CAP (R23): 0xFFFFFFFF is "unbounded". -/
def fragCapWord (p : Params) : Word :=
  match p.fragCap with
  | some n => BitVec.ofNat 32 n
  | none => 0xFFFFFFFF

/-- What a host read of a register returns (R23). The bits above the defined width of GEOM_*, STITCH_LEN and BLANK_* read 0:
log 22. -/
def State.readReg (s : State) : Reg → Word
  | .id => 0x53505231
  | .ctrl => 0
  | .status => s.status.toWord
  | .std => s.cfg.std.setWidth 32
  | .vtStart => s.cfg.vtStart.setWidth 32
  | .vtLen => s.cfg.vtLen.setWidth 32
  | .vtField => s.cfg.vtField.setWidth 32
  | .geomBpl => s.cfg.geomBpl.setWidth 32
  | .geomCl => s.cfg.geomCl.setWidth 32
  | .geomFpl => s.cfg.geomFpl.setWidth 32
  | .geomLpf => s.cfg.geomLpf.setWidth 32
  | .stitchLen => s.cfg.stitchLen.setWidth 32
  | .blankY => s.cfg.blankY.setWidth 32
  | .blankC => s.cfg.blankC.setWidth 32
  | .arg0 => s.args.arg0
  | .arg1 => s.args.arg1
  | .arg2 => s.args.arg2
  | .arg3 => s.args.arg3
  | .cmd => s.cmd
  | .result0 => s.result0
  | .faultInfo => s.faultInfo.toWord
  | .fragCount => s.fragCount
  | .pRomBytes => BitVec.ofNat 32 s.params.romBytes
  | .pCpuRomBytes => BitVec.ofNat 32 s.params.cpuRomBytes
  | .pPat0 => patternWord (patternOf s.params 0)
  | .pPat1 => patternWord (patternOf s.params 1)
  | .pPat2 => patternWord (patternOf s.params 2)
  | .pPat3 => patternWord (patternOf s.params 3)
  | .pBp169 => BitVec.ofNat 16 ScaleClass.C.off ++ BitVec.ofNat 16 ScaleClass.L.off
  | .pOpts => optsWord s.params
  | .pStitchCap => BitVec.ofNat 32 s.params.stitchCap
  | .pRasterCapY => BitVec.ofNat 32 s.params.rasterCapY
  | .pRasterCapC => BitVec.ofNat 32 s.params.rasterCapC
  | .pFragCap => fragCapWord s.params
  | .pVecCap => BitVec.ofNat 32 s.params.vecCap

/-- A write of a configuration register. "Write bits above the defined width are ignored and read 0" is the spec's for STD
(10_state.md R26) and for VT_START, VT_LEN and VT_FIELD (R27). For GEOM_BPL, GEOM_CL, GEOM_FPL, GEOM_LPF, STITCH_LEN, BLANK_Y
and BLANK_C the spec gives the defined bits only (R23), and treating their other bits alike is a DESIGN CHOICE (log 22). -/
def State.setCfg (s : State) (c : CfgRegs) : State := { s with cfg := c }

/-- A write of an argument register (R32). -/
def State.setArgs (s : State) (a : ArgRegs) : State := { s with args := a }

/-- What a host write of a register does (R23, R24, R33). A write of a read-only register is ignored: STATUS R25, P_* R36; of
ID, RESULT0, FAULT_INFO and FRAG_COUNT likewise (log 12). Bits above the defined width of GEOM_*, STITCH_LEN and BLANK_* are
dropped: log 22. -/
def State.writeReg (s : State) (r : Reg) (v : Word) : Host.Outcome State Fault Refusal :=
  match r with
  | .id => .next s
  | .ctrl => .next (if v.getLsbD 0 then s.softReset else s)
  | .status => .next s
  | .std => .next (s.setCfg { s.cfg with std := v.setWidth 3 })
  | .vtStart => .next (s.setCfg { s.cfg with vtStart := v.setWidth 24 })
  | .vtLen => .next (s.setCfg { s.cfg with vtLen := v.setWidth 24 })
  | .vtField => .next (s.setCfg { s.cfg with vtField := v.setWidth 8 })
  | .geomBpl => .next (s.setCfg { s.cfg with geomBpl := v.setWidth 16 })
  | .geomCl => .next (s.setCfg { s.cfg with geomCl := v.setWidth 16 })
  | .geomFpl => .next (s.setCfg { s.cfg with geomFpl := v.setWidth 16 })
  | .geomLpf => .next (s.setCfg { s.cfg with geomLpf := v.setWidth 16 })
  | .stitchLen => .next (s.setCfg { s.cfg with stitchLen := v.setWidth 23 })
  | .blankY => .next (s.setCfg { s.cfg with blankY := v.setWidth 10 })
  | .blankC => .next (s.setCfg { s.cfg with blankC := v.setWidth 8 })
  | .arg0 => .next (s.setArgs { s.args with arg0 := v })
  | .arg1 => .next (s.setArgs { s.args with arg1 := v })
  | .arg2 => .next (s.setArgs { s.args with arg2 := v })
  | .arg3 => .next (s.setArgs { s.args with arg3 := v })
  | .cmd => issueCommand v s
  | .result0 => .next s
  | .faultInfo => .next s
  | .fragCount => .next s
  | .pRomBytes => .next s
  | .pCpuRomBytes => .next s
  | .pPat0 => .next s
  | .pPat1 => .next s
  | .pPat2 => .next s
  | .pPat3 => .next s
  | .pBp169 => .next s
  | .pOpts => .next s
  | .pStitchCap => .next s
  | .pRasterCapY => .next s
  | .pRasterCapC => .next s
  | .pFragCap => .next s
  | .pVecCap => .next s

/-! ## Which element an access names -/

/-- The element an admitted host access transfers (20_memory.md R53). -/
inductive Target
  /-- The register at an offset of space 0x00, or a reserved offset. -/
  | reg (r : Option Reg)
  /-- Element k of a space. -/
  | elem (S : Space) (k : Nat)
  /-- Word j of slot n of a class's vector file. -/
  | slotWord (cls : ScaleClass) (n j : Nat)
  deriving DecidableEq, Repr

/-- Space id: host address bits [31:24] (R49). -/
def addrSpace (a : Word) : BitVec 8 := a.extractLsb' 24 8

/-- Byte offset: host address bits [23:0] (R49). -/
def addrOffset (a : Word) : Nat := (a.extractLsb' 0 24).toNat

/-- An offset is an element of a space of `size` elements of `bytes` bytes, and the access has that width and alignment
(R53, R54, R58). -/
def elementAt (off bytes width size : Nat) : Option Nat :=
  if bytes = width ∧ off % width = 0 ∧ off / width < size then some (off / width) else none

/-- The element an access names, or `none` when the port refuses it for its address, width or alignment (R49, R53, R54,
R58, R59). The register space has 64 words (R49). -/
def target (p : Params) (a : Word) (bytes : Nat) : Option Target :=
  if addrSpace a = 0 then (elementAt (addrOffset a) bytes 4 64).map (fun k => .reg (Reg.ofOffset (4 * k)))
  else
    match Space.ofId (addrSpace a) with
    | some S => (elementAt (addrOffset a) bytes S.bytes (S.size p)).map (.elem S)
    | none =>
      match ScaleClass.ofVecId (addrSpace a) with
      | some cls => (elementAt (addrOffset a) bytes 4 (4 * p.vecCap)).map (fun k => .slotWord cls (k / 4) (k % 4))
      | none => none

/-! ## Reads -/

/-- The host receives a value (log 3). -/
def State.reply (s : State) (v : Word) : State := { s with replies := v :: s.replies }

/-- The host receives an unspecified value of n bytes: the next draw (R57, R58; log 4). -/
def State.replyFree (s : State) (n : Nat) : State :=
  { s with replies := (Config.freeRead s.draws &&& BitVec.ofNat 32 (2 ^ (8 * n) - 1)) :: s.replies, draws := s.draws + 1 }

/-- A refused access changes nothing of the block but HOSTERR (R58). -/
def State.refuseAccess (s : State) : State := { s with status := s.status.portRefused }

/-- What an admitted read finds: `none` is an unwritten element. A slot is one element (10_state.md R42). -/
def State.readTarget (s : State) : Target → Option Word
  | .reg (some r) => some (s.readReg r)
  | .reg none => some 0
  | .elem S k => s.read S k
  | .slotWord cls n j => if (s.readSlot cls n).isSome then s.mem.readLE (cls.slotAddr n + 4 * j) 4 else none

/-- A host read (R57, R58). -/
def hostRead (a : Word) (bytes : Nat) (s : State) : State :=
  match target s.params a bytes with
  | none => s.refuseAccess.replyFree bytes
  | some t =>
    match s.readTarget t with
    | some v => s.reply v
    | none => s.replyFree bytes

/-! ## Writes -/

/-- A host write (R56, R58): reserved register offsets ignore it (10_state.md R46), a vector file refuses it. -/
def hostWrite (a : Word) (bytes : Nat) (v : Word) (s : State) : Host.Outcome State Fault Refusal :=
  match target s.params a bytes with
  | none => .next s.refuseAccess
  | some (.reg (some r)) => s.writeReg r v
  | some (.reg none) => .next s
  | some (.elem S k) => .next (s.write S k v)
  | some (.slotWord _ _ _) => .next s.refuseAccess

/-! ## One step of the host's script -/

/-- The host byte address of a register: space id 0x00 (R49). -/
def Reg.addr (r : Reg) : Word := BitVec.ofNat 32 r.offset

/-- An admitted read of STATUS, the one access that may meet BUSY = 1 (20_memory.md R60). -/
def HostAccess.isStatusRead : HostAccess → Bool
  | .read a n => a == Reg.status.addr && n == 4
  | .write _ _ _ => false

/-- One host access. While BUSY = 1 the model has no access but a read of STATUS (R60, 93_implementation_defined.md I9;
log 9). -/
def hostAccess (h : HostAccess) (s : State) : Host.Outcome State Fault Refusal :=
  if s.status.busy && !h.isStatusRead then .refused .hostAccessWhileBusy
  else
    match h with
    | .read a n => .next (hostRead a n s)
    | .write a n v => hostWrite a n v s

/-- The host performs its next access (20_memory.md R65: in the order it issues them). With no access to come, the block is
idle and keeps all its state (60_exceptions.md R146; log 2). -/
def hostStep (s : State) : Host.Outcome State Fault Refusal :=
  match s.script with
  | [] => .next s
  | h :: rest => hostAccess h { s with script := rest }

/-- Puts an access before the rest of the host's script. -/
def State.withAccess (s : State) (h : HostAccess) : State := { s with script := h :: s.script }

end Sys2Proof.Machine
end

