-- ==== Sys2Proof/Machine/Step.lean ====
section
/-! DEFINITION. One step of the machine: the host's next access, with the command it issues (00_scope.md R18). The block has no
program counter and fetches nothing (10_state.md R21): its program is the sequence of the host's writes of CMD. Log 1. -/

namespace Sys2Proof.Machine

/-- One step. -/
def step (s : State) : Host.Outcome State Fault Refusal := hostStep s

/-- The state in which the very next step issues the command word w: the host's next access is the write of w to CMD
(10_state.md R33). Bits from `nbits` up are 0. Nothing else changes. Log 1. -/
def State.withFetchWord (s : State) (nbits w : Nat) : State :=
  s.withAccess (.write Reg.cmd.addr 4 (BitVec.ofNat 32 (w % 2 ^ nbits)))

end Sys2Proof.Machine
end

