-- ==== Sys2Proof/Safety.lean ====
section
/-! DEFINITION. What a run's end says (70_reset_and_hazards.md R157), and the invariants that claims about the machine use. -/

namespace Sys2Proof.Machine

/-- "A run has faulted when STATUS.ERR = 1 at its end" (R157). -/
def State.hasFaulted (s : State) : Bool := s.status.err

/-- The premises of a claim about a run's output: STATUS.ERR = 0 and STATUS.HOSTERR = 0 at the end (R157). -/
def State.endsClean (s : State) : Bool := !s.status.err && !s.status.hosterr

/-- The flags agree with one another (10_state.md R25, R35; 60_exceptions.md R130, R132, R136): no command is in progress
between two host accesses; without a fault ERRCODE, ERROP and FAULT_INFO are 0; with one, DONE is 0 and ERRCODE is the code
of a fault. -/
def State.statusOk (s : State) : Prop :=
  s.status.busy = false ∧
  (s.status.err = false → s.status.errcode = 0 ∧ s.status.errop = 0 ∧ s.faultInfo = { space := 0, index := 0 }) ∧
  (s.status.err = true → s.status.done = false ∧ ∃ c : Cause, s.status.errcode = c.code)

/-- The byte address belongs to element k of the space. -/
def Space.holds (S : Space) (k a : Nat) : Prop := S.addr k ≤ a ∧ a < S.addr k + S.bytes

/-- The byte address belongs to slot n of the class's vector file. -/
def ScaleClass.slotHolds (cls : ScaleClass) (n a : Nat) : Prop := cls.slotAddr n ≤ a ∧ a < cls.slotAddr n + 16

/-- The byte address belongs to an element of one of the spaces of 20_memory.md R49. -/
def mapped (p : Params) (a : Nat) : Prop :=
  (∃ S k, k < Space.size p S ∧ Space.holds S k a) ∨ (∃ cls n, n < p.vecCap ∧ ScaleClass.slotHolds cls n a)

/-- An element is written as a whole or not at all (10_state.md R42). -/
def State.wholeElements (s : State) : Prop :=
  (∀ S k a b, k < Space.size s.params S → Space.holds S k a → Space.holds S k b →
    (s.mem.read a).isSome = (s.mem.read b).isSome) ∧
  (∀ cls n a b, n < s.params.vecCap → ScaleClass.slotHolds cls n a → ScaleClass.slotHolds cls n b →
    (s.mem.read a).isSome = (s.mem.read b).isSome)

/-- Memory is in its canonical form, lists bytes of existing elements only (20_memory.md R49), and lists an element's bytes
all or none (10_state.md R42). -/
def State.memOk (s : State) : Prop :=
  s.mem.wf ∧ (∀ c ∈ s.mem, mapped s.params c.1) ∧ s.wholeElements

/-- The fragment map is a map (keys unique), within its capacity, without zero-length keys, and each entry holds
rawLen × RPC samples (10_state.md R44, 42_raster_assembler.md R116). -/
def State.fragsOk (s : State) : Prop :=
  fragsWf s.frags ∧ (∀ n, s.params.fragCap = some n → s.frags.length ≤ n) ∧
  ∀ f ∈ s.frags, f.key.rawLen ≠ 0 ∧ f.samples.length = f.key.rawLen.toNat * f.key.comp.rpc

/-- The largest scaled address of a class (41_vector_codec.md R110). -/
def ScaleClass.maxAddr : ScaleClass → Nat
  | .L => 2096128
  | .C => 1048064

/-- A decoded entry of a class: addresses that are multiples of RPC (42_raster_assembler.md R116) within the range of R110,
and no front porch without HAS_FRONT (30_encoding.md R82). -/
def VectorEntry.ok (e : VectorEntry) (cls : ScaleClass) : Prop :=
  e.back.toNat % cls.rpc = 0 ∧ e.centre.toNat % cls.rpc = 0 ∧ e.front.toNat % cls.rpc = 0 ∧
  e.back.toNat ≤ cls.maxAddr ∧ e.centre.toNat ≤ cls.maxAddr ∧ e.front.toNat ≤ cls.maxAddr ∧
  (e.hasFront = false → e.front = 0)

/-- Every written vector slot holds a decoded entry, and its flags word has bits [31:1] = 0 (10_state.md R37, R82): only VDEC
writes slots. -/
def State.slotsOk (s : State) : Prop :=
  ∀ cls n e, n < s.params.vecCap → s.readSlot cls n = some e →
    e.ok cls ∧ ∃ w, s.mem.readLE (cls.slotAddr n + 12) 4 = some w ∧ (w = 0 ∨ w = 1)

/-- The invariant of the machine. -/
def State.Inv (s : State) : Prop :=
  s.params.wf ∧ s.statusOk ∧ s.memOk ∧ s.fragsOk ∧ s.slotsOk

end Sys2Proof.Machine
end

