-- ==== Sys2Proof/WellFormed.lean ====
section
/-! DEFINITION. Which commands name a component they can act on (30_encoding.md R70). A command that is NOT well-formed in
this sense still has a legal word (R73: the COMP value checks "are semantic"): it decodes, it runs, and its meaning is the
CONFIG fault. So no meaning and no statement assumes this predicate away. -/

namespace Sys2Proof

/-- R70: LUMA_LSB has no assembly semantics, so no command acts on it. -/
def Comp.named : Comp → Bool
  | .luma => true
  | .lumaLsb => false
  | .rY => true
  | .bY => true

/-- R70: RECON_CHROMA and SPLIT_CHROMA act on chroma only. -/
def Comp.isChroma : Comp → Bool
  | .luma => false
  | .lumaLsb => false
  | .rY => true
  | .bY => true

/-- The component check of R70, one arm a command. -/
def Instr.wf : Instr → Bool
  | .nop => true
  | .reconLuma => true
  | .reconChroma c => c.isChroma
  | .splitLuma => true
  | .splitChroma c => c.isChroma
  | .vdec => true
  | .venc c => c.named
  | .stitchGen => true
  | .asmLine c => c.named
  | .asmBlank c => c.named
  | .asmFrame c => c.named
  | .fragClear => true
  | .fragQuery c => c.named

end Sys2Proof
end

