-- ==== Sys2Proof/Certificates/Slice0/Obligations.lean ====
section
/-! DEFINITION. The statements for the provers. The helpers of `Sys2Proof.Claims` spell the rules' formulas in plain arithmetic,
apart from the definitions the machine runs. -/

open Sys2Proof Sys2Proof.Machine

namespace Sys2Proof.Claims

/-! ## How a command ends, and what it leaves alone -/

/-- The state after `raise` (60_exceptions.md R132): the code, and FAULT_INFO = (space, index). -/
def faultState (s : State) (code space : BitVec 8) (index : Nat) : State :=
  { s with
    status := { s.status with busy := false, done := false, err := true, errcode := code, errop := s.cmd.setWidth 8 }
    faultInfo := { space := space, index := BitVec.ofNat 24 index } }

/-- The registers after `commit` (60_exceptions.md R133): DONE <- 1, RESULT0 as the rule says, and every other register but the
configuration registers as before. -/
def Committed (s t : State) (result0 : Word) : Prop :=
  t.status = { s.status with busy := false, done := true } ∧ t.result0 = result0 ∧ t.params = s.params ∧
  t.args = s.args ∧ t.cmd = s.cmd ∧ t.faultInfo = s.faultInfo ∧ t.script = s.script ∧ t.replies = s.replies ∧
  t.draws = s.draws

/-- Every byte outside a set of addresses reads as before. -/
def SameOutside (s t : State) (inside : Nat → Prop) : Prop :=
  ∀ a, ¬inside a → t.mem.read a = s.mem.read a

/-- The bytes of elements k to k+n-1 of a space. -/
def elems (S : Space) (k n a : Nat) : Prop := S.addr k ≤ a ∧ a < S.addr (k + n)

/-- The bytes of slots k to k+n-1 of a class's vector file. -/
def slots (cls : ScaleClass) (k n a : Nat) : Prop := cls.slotAddr k ≤ a ∧ a < cls.slotAddr (k + n)

/-! ## Luma and chroma (40_reconstructor.md) -/

/-- A bit of a value, as a number. -/
def bitOf (w : Word) (i : Nat) : Nat := (w.getLsbD i).toNat

/-- `unpack10(m, sel, p)` (R88) in plain arithmetic. -/
def lumaValue (o : LsbOrder) (m sel : Word) (p : Nat) : Nat :=
  match o with
  | .normal => m.toNat * 4 + bitOf sel p + 2 * bitOf sel (p + 4)
  | .swapped => m.toNat * 4 + bitOf sel (p + 4) + 2 * bitOf sel p

/-- One sample's part of the selector byte (R94) in plain arithmetic. -/
def selPart (o : LsbOrder) (v p : Nat) : Nat :=
  match o with
  | .normal => v % 2 * 2 ^ p + v / 2 % 2 * 2 ^ (p + 4)
  | .swapped => v / 2 % 2 * 2 ^ p + v % 2 * 2 ^ (p + 4)

/-- The luma MSB chip of plane p. -/
def msbChip : Nat → Space
  | 0 => .lmsb0
  | 1 => .lmsb1
  | 2 => .lmsb2
  | _ => .lmsb3

/-- The chips that RECON_LUMA reads, in the order it checks them (R89). -/
def lumaChips : List Space := [.lmsb0, .lmsb1, .lmsb2, .lmsb3, .llsb]

/-- COMP = RY or BY, with its chips and plane (R91). -/
def Chroma (c : Comp) (c0 c1 plane : Space) : Prop :=
  (c = .rY ∧ c0 = .ry0 ∧ c1 = .ry1 ∧ plane = .ryp) ∨ (c = .bY ∧ c0 = .by0 ∧ c1 = .by1 ∧ plane = .byp)

/-- The raw range of a command of this family: `i0 = x[0]`, `n = x[1]`. -/
def InRange (s : State) (i : Nat) : Prop := s.args.arg0.toNat ≤ i ∧ i < s.args.arg0.toNat + s.args.arg1.toNat

/-- `i0 + n ≤ L`. -/
def RangeOk (s : State) : Prop := s.args.arg0.toNat + s.args.arg1.toNat ≤ s.params.romBytes

/-! ## The vector codec (41_vector_codec.md) -/

/-- STD names a Standard (10_state.md R26). -/
def StdOk (s : State) : Prop := s.cfg.std.toNat ≤ 3

/-- STD is a 4:3 Standard (30_encoding.md R71). -/
def Is43 (s : State) : Prop := s.cfg.std = 0 ∨ s.cfg.std = 2 ∨ s.cfg.std = 3

/-- E of the Standard (R71). -/
def recLen (s : State) : Nat := if s.cfg.std = 1 then 2 else 3

/-- A(n) (R80). -/
def recAddr (s : State) (n : Nat) : Nat :=
  s.cfg.vtStart.toNat + s.cfg.vtLen.toNat * s.cfg.vtField.toNat + n * recLen s

/-- RPC of a scaling class. -/
def rpcOf : ScaleClass → Nat
  | .L => 4
  | .C => 2

/-- BP169_OFF of a scaling class. -/
def offOf : ScaleClass → Nat
  | .L => 1024
  | .C => 512

/-- LOWBYTE_PATTERN[q] as three numbers (R78). -/
def lows (p : Params) (q : Nat) : Nat × Nat × Nat :=
  match q with
  | 0 => (p.pat0.back.toNat, p.pat0.centre.toNat, p.pat0.front.toNat)
  | 1 => (p.pat1.back.toNat, p.pat1.centre.toNat, p.pat1.front.toNat)
  | 2 => (0x00, 0x00, 0x40)
  | _ => (p.pat3.back.toNat, p.pat3.centre.toNat, p.pat3.front.toNat)

/-- The entry of a 4:3 record for a class (R100, R101). -/
def entry43 (p : Params) (cls : ScaleClass) (seq msbA msbB : Word) : VectorEntry :=
  let low := lows p (seq.toNat % 4)
  { back := BitVec.ofNat 32 ((msbA.toNat * 256 + low.1) * rpcOf cls)
    centre := BitVec.ofNat 32 ((msbB.toNat * 256 + low.2.1) * rpcOf cls)
    front := BitVec.ofNat 32 ((msbA.toNat * 256 + low.2.2) * rpcOf cls)
    hasFront := true }

/-- The raw centre of a 16:9 record (R102). -/
def centre169 (high control : Word) : Nat :=
  high.toNat * 256 + bitOf control 5 * 65536 + bitOf control 2 * 131072 + bitOf control 3 * 262144

/-- The back porch of a raw centre for a class (R103), which may be negative. -/
def porch169 (p : Params) (cls : ScaleClass) (rc : Nat) : Int :=
  match p.bp169Mode with
  | .raw => ((rc : Int) - offOf cls) * rpcOf cls
  | .scaled => (rc : Int) * rpcOf cls - offOf cls

/-- The argument and region checks of VDEC pass (R108). -/
def VdecArgsOk (s : State) : Prop :=
  s.args.arg0.toNat + s.args.arg1.toNat ≤ s.cfg.vtLen.toNat / recLen s ∧
  s.args.arg0.toNat + s.args.arg1.toNat ≤ s.params.vecCap ∧
  (s.args.arg1 = 0 ∨ recAddr s (s.args.arg0.toNat + s.args.arg1.toNat - 1) + recLen s ≤ s.params.cpuRomBytes)

/-- The slot and region checks of VENC pass (R109). -/
def VencArgsOk (s : State) : Prop :=
  s.args.arg0.toNat < s.cfg.vtLen.toNat / recLen s ∧
  recAddr s s.args.arg0.toNat + recLen s ≤ s.params.cpuRomBytes

/-- The raw value of an address in plane units. -/
def raw (cls : ScaleClass) (w : Word) : Nat := w.toNat / rpcOf cls

/-- An address in plane units is `r` times a raw address below 2^16 (R104). -/
def Raw16 (cls : ScaleClass) (w : Word) : Prop := w.toNat % rpcOf cls = 0 ∧ raw cls w ≤ 0xFFFF

/-- The low bytes that a 4:3 pattern must have for the entry in ARG1 to ARG3 (R104). -/
def wantedLows (cls : ScaleClass) (s : State) : Nat × Nat × Nat :=
  (raw cls s.args.arg1 % 256, raw cls s.args.arg2 % 256, raw cls s.args.arg3 % 256)

/-- The front-porch condition of R104. -/
def FrontOk (cls : ScaleClass) (s : State) : Prop :=
  Raw16 cls s.args.arg3 ∧ raw cls s.args.arg3 / 256 = raw cls s.args.arg1 / 256

/-- The centre conditions of R105. -/
def CentreOk (cls : ScaleClass) (w : Word) : Prop :=
  w.toNat % rpcOf cls = 0 ∧ raw cls w % 256 = 0 ∧ raw cls w < 2 ^ 19

/-! ## The raster assembler (42_raster_assembler.md) -/

/-- BPLs(c), CLs(c), FPLs(c) (R111). -/
def bpls (s : State) (c : Component) : Nat := s.cfg.geomBpl.toNat * rpcOf c.cls
def cls' (s : State) (c : Component) : Nat := s.cfg.geomCl.toNat * rpcOf c.cls
def fpls (s : State) (c : Component) : Nat := if s.cfg.std = 1 then 0 else s.cfg.geomFpl.toNat * rpcOf c.cls

/-- W(c) (R112). -/
def width (s : State) (c : Component) : Nat := bpls s c + cls' s c + fpls s c

/-- The segments (start, length) of a line from an entry (R113). -/
def lineSegs (s : State) (c : Component) (e : VectorEntry) : List (Nat × Nat) :=
  [(e.back.toNat, bpls s c), (e.centre.toNat, cls' s c)] ++
    if s.cfg.std = 1 then [] else [(e.front.toNat, fpls s c)]

/-- The plane element that pixel x of a line is copied from (R113). -/
def lineSource (s : State) (c : Component) (e : VectorEntry) (x : Nat) : Nat :=
  if x < bpls s c then e.back.toNat + x
  else if x < bpls s c + cls' s c then e.centre.toNat + (x - bpls s c)
  else e.front.toNat + (x - bpls s c - cls' s c)

/-- The segment lies in the plane and all its elements are written (R115). -/
def SegReadable (s : State) (c : Component) (g : Nat × Nat) : Prop :=
  g.2 = 0 ∨ (g.1 + g.2 ≤ c.plane.size s.params ∧ ∀ k, g.1 ≤ k → k < g.1 + g.2 → (s.read c.plane k).isSome)

/-- The fragment key of a segment (R116). -/
def keyOf (c : Component) (g : Nat × Nat) : FragKey where
  comp := c
  rawAddr := BitVec.ofNat 32 (g.1 / rpcOf c.cls)
  rawLen := BitVec.ofNat 32 (g.2 / rpcOf c.cls)

/-- The keys that a list of segments records: those of its segments with `len > 0` (R116). -/
def keysOf (c : Component) (gs : List (Nat × Nat)) : List FragKey :=
  (gs.filter (fun g => g.2 ≠ 0)).map (keyOf c)

/-- How many of the keys are not in the map yet, each counted once. -/
def newKeys (s : State) (keys : List FragKey) : Nat :=
  ((keys.filter (fun k => !s.frags.any (fun f => f.key == k))).dedup).length

/-- The map has room for the keys that are new to it (R116). -/
def Room (s : State) (keys : List FragKey) : Prop :=
  ∀ cap, s.params.fragCap = some cap → s.frags.length + newKeys s keys ≤ cap

/-- The fragment map after the segments of component c were recorded (R116): what was there is kept, every key is there, each
new entry holds the plane samples of a segment with its key, and FRAG_COUNT counts the new keys. -/
def Recorded (s t : State) (c : Component) (gs : List (Nat × Nat)) : Prop :=
  (∀ f ∈ s.frags, f ∈ t.frags) ∧
  (∀ k ∈ keysOf c gs, ∃ f ∈ t.frags, f.key = k) ∧
  (∀ f ∈ t.frags, f ∈ s.frags ∨ ∃ g ∈ gs, g.2 ≠ 0 ∧ f.key = keyOf c g ∧ f.samples.length = g.2 ∧
    ∀ x (h : x < f.samples.length), ∃ v, s.read c.plane (g.1 + x) = some v ∧ f.samples[x] = v.setWidth 16) ∧
  t.frags.length = s.frags.length + newKeys s (keysOf c gs)

/-- The entry agrees with the Standard's format (R114). -/
def Agrees (s : State) (e : VectorEntry) : Prop := e.hasFront = (s.cfg.std != 1)

/-- Elements of the raster space of component c (R117, cap(c)). -/
def capOf (s : State) (c : Component) : Nat := if c = .luma then s.params.rasterCapY else s.params.rasterCapC

/-- The value of a blank line's samples (R121). -/
def blankOf (s : State) (c : Component) : Word :=
  if c = .luma then s.cfg.blankY.setWidth 32 else s.cfg.blankC.setWidth 32

/-- v(t) of R119. -/
def stitchOf (s : State) (t : Nat) : Nat :=
  if s.cfg.std = 1 then t else if t % 2 = 0 then t / 2 else (t - 1) / 2 + s.cfg.geomLpf.toNat + 1

/-- The fields of a stitch entry (30_encoding.md R81). -/
def isBlank (w : Word) : Prop := w.toNat / 2 ^ 31 = 1
def rsvdOf (w : Word) : Nat := w.toNat / 2 ^ 20 % 2 ^ 11
def vindexOf (w : Word) : Nat := w.toNat % 2 ^ 20

/-- Output line t of ASM_FRAME passes its checks (R123), room for fragments apart. -/
def FrameLineOk (s : State) (c : Component) (t : Nat) : Prop :=
  ∃ w, s.read .stitch t = some w ∧ rsvdOf w = 0 ∧
    ((isBlank w ∧ s.cfg.std = 2) ∨
     (¬isBlank w ∧ vindexOf w < s.params.vecCap ∧ ∃ e, s.readSlot c.cls (vindexOf w) = some e ∧ Agrees s e ∧
       ∀ g ∈ lineSegs s c e, SegReadable s c g))

/-- The segments that output line t of ASM_FRAME records: none of a blank line (R121). -/
def frameSegs (s : State) (c : Component) (t : Nat) : List (Nat × Nat) :=
  match s.read .stitch t with
  | none => []
  | some w =>
    if w.toNat / 2 ^ 31 = 1 then []
    else
      match s.readSlot c.cls (vindexOf w) with
      | none => []
      | some e => lineSegs s c e

/-- The segments of output lines 0 to n-1, in order. -/
def framesUpTo (s : State) (c : Component) (n : Nat) : List (Nat × Nat) :=
  (List.range n).flatMap (frameSegs s c)

/-! ## The host port (20_memory.md) -/

/-- The host byte address `id << 24 | offset` (R49). -/
def hostAddr (id off : Nat) : Word := BitVec.ofNat 32 (id * 2 ^ 24 + off)

/-- Width in bytes and number of the units that the host can access in the space of an id (R49, R53): the words of REG, the
elements of a space, the words of a vector file. -/
def window (p : Params) (id : Nat) : Option (Nat × Nat) :=
  if id = 0x00 then some (4, 64)
  else if 0x01 ≤ id ∧ id ≤ 0x09 then some (1, p.romBytes)
  else if id = 0x0A then some (1, p.cpuRomBytes)
  else if id = 0x10 then some (2, 4 * p.romBytes)
  else if id = 0x11 ∨ id = 0x12 then some (1, 2 * p.romBytes)
  else if id = 0x18 ∨ id = 0x19 then some (4, 4 * p.vecCap)
  else if id = 0x1A then some (4, p.stitchCap)
  else if id = 0x20 then some (2, p.rasterCapY)
  else if id = 0x21 ∨ id = 0x22 then some (1, p.rasterCapC)
  else none

/-- The port refuses an access to (id, offset) of a width (R58, R59): an unmapped space, another width, misaligned, or past the
end; and a write of a vector file. -/
def Refused (p : Params) (id off bytes : Nat) (isWrite : Bool) : Prop :=
  (match window p id with
   | none => True
   | some (w, n) => bytes ≠ w ∨ off % w ≠ 0 ∨ n ≤ off / w) ∨
  (isWrite = true ∧ (id = 0x18 ∨ id = 0x19))

/-- The RW registers of 10_state.md R23 that only store, with their widths. -/
def storeRegs : List (Reg × Nat) :=
  [(.std, 3), (.vtStart, 24), (.vtLen, 24), (.vtField, 8), (.geomBpl, 16), (.geomCl, 16), (.geomFpl, 16), (.geomLpf, 16)] ++
  [(.stitchLen, 23), (.blankY, 10), (.blankC, 8), (.arg0, 32), (.arg1, 32), (.arg2, 32), (.arg3, 32)]

/-- The read-only registers of R23. -/
def readOnlyRegs : List Reg :=
  [.id, .status, .result0, .faultInfo, .fragCount, .pRomBytes, .pCpuRomBytes, .pPat0, .pPat1, .pPat2, .pPat3] ++
  [.pBp169, .pOpts, .pStitchCap, .pRasterCapY, .pRasterCapC, .pFragCap, .pVecCap]

/-- A pattern register's value (R36). -/
def patWord (p : Pattern) : Word := BitVec.ofNat 32 (p.front.toNat * 65536 + p.centre.toNat * 256 + p.back.toNat)

/-- The reset value of a register, for given parameters (10_state.md R23). -/
def resetValue (p : Params) : Reg → Word
  | .id => 0x53505231
  | .blankY => p.whiteLuma.setWidth 32
  | .blankC => 0x80
  | .pRomBytes => if p.romSize = .kib64 then 65536 else 524288
  | .pCpuRomBytes => BitVec.ofNat 32 p.cpuRomBytes
  | .pPat0 => patWord p.pat0
  | .pPat1 => patWord p.pat1
  | .pPat2 => 0x00400000
  | .pPat3 => patWord p.pat3
  | .pBp169 => 0x02000400
  | .pOpts => BitVec.ofNat 32 ((if p.lsbOrder = .swapped then 1 else 0) + (if p.bp169Mode = .scaled then 2 else 0))
  | .pStitchCap => BitVec.ofNat 32 p.stitchCap
  | .pRasterCapY => BitVec.ofNat 32 p.rasterCapY
  | .pRasterCapC => BitVec.ofNat 32 p.rasterCapC
  | .pFragCap => match p.fragCap with | some n => BitVec.ofNat 32 n | none => 0xFFFFFFFF
  | .pVecCap => BitVec.ofNat 32 p.vecCap
  | _ => 0

/-- The reset state of R47: every register at its reset value (STATUS = 0 among them, with its three flags), every element of
every memory space unwritten, the fragment map empty. -/
def IsReset (s : State) : Prop :=
  (∀ r, s.readReg r = resetValue s.params r) ∧ (∀ S k, s.written S k = false) ∧ (∀ cls n, s.readSlot cls n = none) ∧
  (∀ a, s.mem.read a = none) ∧ s.frags = [] ∧
  s.status = { busy := false, done := false, err := false, hosterr := false, errcode := 0, errop := 0 }

/-- The word that a host read of a register returns, in plain arithmetic over the fields of State: the layouts of STATUS (R25)
and FAULT_INFO (R35), and one field for each other register (R23). That GEOM_*, STITCH_LEN and BLANK_* read 0 above their
defined width is the model's choice (log 22). -/
def regWord (s : State) : Reg → Nat
  | .ctrl => 0
  | .status =>
    s.status.busy.toNat + 2 * s.status.done.toNat + 4 * s.status.err.toNat + 8 * s.status.hosterr.toNat +
      2 ^ 8 * s.status.errcode.toNat + 2 ^ 16 * s.status.errop.toNat
  | .std => s.cfg.std.toNat
  | .vtStart => s.cfg.vtStart.toNat
  | .vtLen => s.cfg.vtLen.toNat
  | .vtField => s.cfg.vtField.toNat
  | .geomBpl => s.cfg.geomBpl.toNat
  | .geomCl => s.cfg.geomCl.toNat
  | .geomFpl => s.cfg.geomFpl.toNat
  | .geomLpf => s.cfg.geomLpf.toNat
  | .stitchLen => s.cfg.stitchLen.toNat
  | .blankY => s.cfg.blankY.toNat
  | .blankC => s.cfg.blankC.toNat
  | .arg0 => s.args.arg0.toNat
  | .arg1 => s.args.arg1.toNat
  | .arg2 => s.args.arg2.toNat
  | .arg3 => s.args.arg3.toNat
  | .cmd => s.cmd.toNat
  | .result0 => s.result0.toNat
  | .faultInfo => 2 ^ 24 * s.faultInfo.space.toNat + s.faultInfo.index.toNat
  | .fragCount => s.frags.length % 2 ^ 32
  | r => (resetValue s.params r).toNat

/-- The state after a host write of v to a register that only stores: the one field that it stores in. -/
def stored (s : State) (v : Word) : Reg → State
  | .std => { s with cfg := { s.cfg with std := BitVec.ofNat 3 v.toNat } }
  | .vtStart => { s with cfg := { s.cfg with vtStart := BitVec.ofNat 24 v.toNat } }
  | .vtLen => { s with cfg := { s.cfg with vtLen := BitVec.ofNat 24 v.toNat } }
  | .vtField => { s with cfg := { s.cfg with vtField := BitVec.ofNat 8 v.toNat } }
  | .geomBpl => { s with cfg := { s.cfg with geomBpl := BitVec.ofNat 16 v.toNat } }
  | .geomCl => { s with cfg := { s.cfg with geomCl := BitVec.ofNat 16 v.toNat } }
  | .geomFpl => { s with cfg := { s.cfg with geomFpl := BitVec.ofNat 16 v.toNat } }
  | .geomLpf => { s with cfg := { s.cfg with geomLpf := BitVec.ofNat 16 v.toNat } }
  | .stitchLen => { s with cfg := { s.cfg with stitchLen := BitVec.ofNat 23 v.toNat } }
  | .blankY => { s with cfg := { s.cfg with blankY := BitVec.ofNat 10 v.toNat } }
  | .blankC => { s with cfg := { s.cfg with blankC := BitVec.ofNat 8 v.toNat } }
  | .arg0 => { s with args := { s.args with arg0 := v } }
  | .arg1 => { s with args := { s.args with arg1 := v } }
  | .arg2 => { s with args := { s.args with arg2 := v } }
  | .arg3 => { s with args := { s.args with arg3 := v } }
  | _ => s

/-- The offsets of R23's table. -/
def registerTable : List (Reg × Nat) :=
  [(.id, 0x000), (.ctrl, 0x004), (.status, 0x008), (.std, 0x00C), (.vtStart, 0x010), (.vtLen, 0x014), (.vtField, 0x018)] ++
  [(.geomBpl, 0x01C), (.geomCl, 0x020), (.geomFpl, 0x024), (.geomLpf, 0x028), (.stitchLen, 0x02C), (.blankY, 0x030)] ++
  [(.blankC, 0x034), (.arg0, 0x040), (.arg1, 0x044), (.arg2, 0x048), (.arg3, 0x04C), (.cmd, 0x050), (.result0, 0x054)] ++
  [(.faultInfo, 0x058), (.fragCount, 0x05C), (.pRomBytes, 0x080), (.pCpuRomBytes, 0x084), (.pPat0, 0x088)] ++
  [(.pPat1, 0x08C), (.pPat2, 0x090), (.pPat3, 0x094), (.pBp169, 0x098), (.pOpts, 0x09C), (.pStitchCap, 0x0A0)] ++
  [(.pRasterCapY, 0x0A4), (.pRasterCapC, 0x0A8), (.pFragCap, 0x0AC), (.pVecCap, 0x0B0)]

/-- The rows of R49's table for the spaces of plain elements: id, bytes of an element, elements. -/
def spaceTable (p : Params) : List (Space × Nat × Nat × Nat) :=
  [(.lmsb0, 0x01, 1, p.romBytes), (.lmsb1, 0x02, 1, p.romBytes), (.lmsb2, 0x03, 1, p.romBytes)] ++
  [(.lmsb3, 0x04, 1, p.romBytes), (.llsb, 0x05, 1, p.romBytes), (.ry0, 0x06, 1, p.romBytes), (.ry1, 0x07, 1, p.romBytes)] ++
  [(.by0, 0x08, 1, p.romBytes), (.by1, 0x09, 1, p.romBytes), (.cpurom, 0x0A, 1, p.cpuRomBytes)] ++
  [(.luma, 0x10, 2, 4 * p.romBytes), (.ryp, 0x11, 1, 2 * p.romBytes), (.byp, 0x12, 1, 2 * p.romBytes)] ++
  [(.stitch, 0x1A, 4, p.stitchCap), (.rasY, 0x20, 2, p.rasterCapY), (.rasRY, 0x21, 1, p.rasterCapC)] ++
  [(.rasBY, 0x22, 1, p.rasterCapC)]

/-- The opcodes of 30_encoding.md R69, those that do not use COMP first. -/
def noCompOpcodes : List Nat := [0x00, 0x01, 0x03, 0x10, 0x20, 0x30]
def compOpcodes : List Nat := [0x02, 0x04, 0x11, 0x21, 0x22, 0x23, 0x31]

/-- R73: the word is illegal. -/
def IllegalWord (w : Word) : Prop :=
  (w.toNat % 256 ∉ noCompOpcodes ∧ w.toNat % 256 ∉ compOpcodes) ∨ w.toNat / 1024 ≠ 0 ∨
  (w.toNat % 256 ∈ noCompOpcodes ∧ w.toNat / 256 % 4 ≠ 0)

/-- The host's next access is the write of w to CMD, byte address 0x00000050 (R23, R33), and the port is free. -/
def NextIsCmd (s : State) (w : Word) (rest : List HostAccess) : Prop :=
  s.script = .write 0x00000050 4 w :: rest ∧ s.status.busy = false

/-- The host's next access is a write of v to CTRL, byte address 0x00000004, with SRST = 1 (R24). -/
def NextIsSoftReset (s : State) : Prop :=
  ∃ v rest, s.script = .write 0x00000004 4 v :: rest ∧ v.getLsbD 0 = true

end Sys2Proof.Claims

open Sys2Proof.Claims

/-! ## Reset, decoding, the command step -/

/-- R47: the reset state, for power-on and for soft reset alike; and what R7 fixes for this hardware, LSB_ORDER = NORMAL and
BP169_MODE = RAW, makes P_OPTS 0 in it. (The model's own fields `script`, `replies` and `draws` are no part of the rule.) -/
def Obligations.ResetLeavesRegistersAndMemory : Prop :=
  IsReset State.reset ∧ State.reset.params = Config.params ∧ State.reset.readReg .pOpts = 0 ∧
  (∀ s : State, s.status.busy = false → NextIsSoftReset s → ∃ t, step s = .next t ∧ t.params = s.params ∧ IsReset t)

/-- The invariant of Safety.lean holds at reset. -/
def Obligations.ResetMeetsInvariant : Prop := State.reset.Inv

/-- R87: `CMD = COMP << 8 | OPC` with the opcodes of R69: some words written out. -/
def Obligations.CommandWordsDecode : Prop :=
  decode 0x00000000 = .ok .nop ∧ decode 0x00000202 = .ok (.reconChroma .rY) ∧ decode 0x00000003 = .ok .splitLuma ∧
  decode 0x00000010 = .ok .vdec ∧ decode 0x00000311 = .ok (.venc .bY) ∧ decode 0x00000221 = .ok (.asmLine .rY) ∧
  decode 0x00000123 = .ok (.asmFrame .lumaLsb) ∧ decode 0x00000031 = .ok (.fragQuery .luma) ∧
  decode 0x00000101 = .error .compNotUsed ∧ decode 0x00000400 = .error .reservedBits ∧
  decode 0x00000005 = .error .reservedOpcode

/-- Each legal word stands for one command and each command has one word: decoding and encoding are inverse over all 2^32
words and all commands, every COMP value included. -/
def Obligations.DecodeEncodeAgree : Prop :=
  ∀ (w : Word) (i : Instr), decode w = .ok i ↔ w = encode i

/-- R73: which words are illegal; the opcode table's rows take exactly the others, and name the command decoded; and a command
with an illegal word faults ILLEGAL with FAULT_INFO = (0xFF, 0x050). -/
def Obligations.IllegalWordsFault : Prop :=
  (∀ w, (∃ r, decode w = .error r) ↔ IllegalWord w) ∧
  (∀ w, (∃ row ∈ opcodeRows, row.takes w = true) ↔ ¬IllegalWord w) ∧
  (∀ w i row, decode w = .ok i → row ∈ opcodeRows → row.takes w = true → row.mnemonic = mnemonicOf i) ∧
  (∀ s w rest, NextIsCmd s w rest → s.status.err = false → IllegalWord w →
    step s = .next (faultState { s with script := rest, cmd := w } 0x01 0xFF 0x050))

/-- A step runs the decoded command: the word the host writes to CMD is stored there, DONE is cleared and BUSY set (log 9), and
`exec` of the decoded command follows; `withFetchWord` puts that write before the rest of the script (log 1). -/
def Obligations.StepRunsDecodedCommand : Prop :=
  (∀ s w rest i, NextIsCmd s w rest → s.status.err = false → decode w = .ok i →
    step s = exec i { s with script := rest, cmd := w, status := { s.status with busy := true, done := false } }) ∧
  (∀ (s : State) (w : Word), s.withFetchWord 32 w.toNat = { s with script := .write 0x00000050 4 w :: s.script })

/-- R135: while ERR = 1 a command is ignored (the CMD write stores w and nothing else changes), and only a reset clears ERR;
until then ERRCODE, ERROP and FAULT_INFO stay those of the first fault (R136). -/
def Obligations.FaultIsStickyUntilReset : Prop :=
  (∀ s w rest, NextIsCmd s w rest → s.status.err = true → step s = .next { s with script := rest, cmd := w }) ∧
  (∀ s t, s.status.err = true → step s = .next t →
    (t.status.err = true ∧ t.status.errcode = s.status.errcode ∧ t.status.errop = s.status.errop ∧
      t.faultInfo = s.faultInfo) ∨
    (NextIsSoftReset s ∧ t.status.err = false))

/-- R132: a raise discards the staging copy and leaves the state before the command, except ERR, ERRCODE = code(F) (R130),
ERROP = CMD[7:0], DONE and FAULT_INFO = info; and a command ends faulted in no other way. -/
def Obligations.FaultIsPrecise : Prop :=
  (∀ body s f, body { s with result0 := 0 } = .error f →
    runCommand body s = .next (faultState s f.cause.code f.space f.index.toNat)) ∧
  (∀ i s t, s.status.err = false → exec i s = .next t → t.status.err = true →
    ∃ c space index, c ∈ ([0x02, 0x03, 0x04, 0x05, 0x06] : List (BitVec 8)) ∧ t = faultState s c space index) ∧
  [Cause.illegal, .config, .range, .unwritten, .unrepr, .fragFull].map Cause.code = [0x01, 0x02, 0x03, 0x04, 0x05, 0x06]

/-- "No command modifies them" (R32), and none modifies CMD, a parameter, or a configuration register but STITCH_GEN's
STITCH_LEN; a command that does not fault leaves FAULT_INFO (R35), ERR, ERRCODE, ERROP and HOSTERR. -/
def Obligations.CommandsLeaveOperandsAndConfiguration : Prop :=
  ∀ i s t, exec i s = .next t →
    t.args = s.args ∧ t.cmd = s.cmd ∧ t.params = s.params ∧ t.script = s.script ∧ t.replies = s.replies ∧
    t.draws = s.draws ∧ t.status.hosterr = s.status.hosterr ∧
    t.cfg = { s.cfg with stitchLen := t.cfg.stitchLen } ∧ (i ≠ .stitchGen → t.cfg = s.cfg) ∧
    (t.status.err = false → t.faultInfo = s.faultInfo ∧ t.status.errcode = s.status.errcode ∧
      t.status.errop = s.status.errop)

/-- R133: every command ends, in commit with DONE = 1 or in a fault with ERR = 1 and DONE = 0 (that the hardware always gets
there is the assumption of R156 and I9: log 16). -/
def Obligations.EveryCommandEnds : Prop :=
  ∀ i s, ∃ t, exec i s = .next t ∧ t.status.busy = false ∧
    ((t.status.done = true ∧ t.status.err = s.status.err) ∨ (t.status.done = false ∧ t.status.err = true))

/-- R70: the COMP encodings, and the CONFIG fault of a command whose COMP value names nothing it acts on, before any other
check (R134). -/
def Obligations.UnusableComponentFaultsConfig : Prop :=
  (compOfBits 0 = .luma ∧ compOfBits 1 = .lumaLsb ∧ compOfBits 2 = .rY ∧ compOfBits 3 = .bY) ∧
  (∀ s, ∀ i ∈ [Instr.reconChroma .lumaLsb, .splitChroma .lumaLsb, .venc .lumaLsb, .asmLine .lumaLsb, .asmBlank .lumaLsb,
      .asmFrame .lumaLsb, .fragQuery .lumaLsb, .reconChroma .luma, .splitChroma .luma],
    exec i s = .next (faultState s 0x02 0xFF 0x050))

/-- A command that depends on the Standard faults CONFIG at (0xFF, 0x00C) when STD is 4 to 7, before its argument checks (R26,
R134). -/
def Obligations.ReservedStandardFaultsConfig : Prop :=
  ∀ s c, ¬StdOk s → c ≠ .lumaLsb →
    ∀ i ∈ [Instr.vdec, .stitchGen, .venc c, .asmLine c, .asmBlank c, .asmFrame c],
      exec i s = .next (faultState s 0x02 0xFF 0x00C)

/-- R34: a command that commits writes RESULT0: VDEC the number of slots decoded, FRAG_QUERY 1 for a hit and 0 for a miss, every other
command 0; a faulting command leaves it unchanged. -/
def Obligations.ResultRegisterIsWrittenOnCommit : Prop :=
  ∀ i s t, s.status.err = false → exec i s = .next t →
    (t.status.err = true → t.result0 = s.result0) ∧
    (t.status.err = false →
      (i = .vdec → t.result0 = s.args.arg1) ∧
      (∀ c k, i = .fragQuery c → componentOf c = some k →
        t.result0 = if s.frags.any (fun f => f.key == { comp := k, rawAddr := s.args.arg0, rawLen := s.args.arg1 })
          then 1 else 0) ∧
      (i ≠ .vdec → (∀ c, i ≠ .fragQuery c) → t.result0 = 0))

/-! ## Session commands -/

/-- R126: NOP does nothing to data: DONE <- 1, RESULT0 <- 0; while ERR = 1 it is ignored. -/
def Obligations.NopCompletes : Prop :=
  encode .nop = 0x00000000 ∧
  (∀ s, exec .nop s = .next { s with status := { s.status with busy := false, done := true }, result0 := 0 }) ∧
  (∀ s rest, NextIsCmd s 0x00000000 rest → s.status.err = true → step s = .next { s with script := rest, cmd := 0 })

/-- R127: FRAG_CLEAR empties the fragment map; FRAG_COUNT is 0 after it. -/
def Obligations.FragClearCompletes : Prop :=
  encode .fragClear = 0x00000030 ∧
  ∀ s, exec .fragClear s =
      .next { s with status := { s.status with busy := false, done := true }, result0 := 0, frags := [] } ∧
    State.readReg { s with frags := [] } .fragCount = 0

/-- R128: FRAG_QUERY answers 1 when the key (c, x[0], x[1]) is in the map and 0 when it is not; a zero length always misses in
a map that ASM_LINE and ASM_FRAME built; and COMP = 1 faults CONFIG. -/
def Obligations.FragQueryCompletes : Prop :=
  (∀ s c k, componentOf c = some k →
    exec (.fragQuery c) s =
      .next { s with
        status := { s.status with busy := false, done := true }
        result0 := if s.frags.any (fun f => f.key == { comp := k, rawAddr := s.args.arg0, rawLen := s.args.arg1 })
          then 1 else 0 }) ∧
  (∀ s c t, s.fragsOk → s.status.err = false → s.args.arg1 = 0 → c ≠ .lumaLsb → exec (.fragQuery c) s = .next t →
    t.result0 = 0) ∧
  (∀ s, exec (.fragQuery .lumaLsb) s = .next (faultState s 0x02 0xFF 0x050)) ∧
  encode (.fragQuery .luma) = 0x00000031 ∧ encode (.fragQuery .rY) = 0x00000231 ∧ encode (.fragQuery .bY) = 0x00000331

/-! ## Sample planes -/

/-- R96: packing a 10-bit value into plane p and unpacking it gives it back, for either LSB_ORDER; and unpacking then packing
four MSB bytes and a selector byte gives the same bytes. -/
def Obligations.PackUnpackRoundTrip : Prop :=
  (∀ (o : LsbOrder) (v : BitVec 10) (p : Nat), p < 4 → unpack10 o (msbOf v) (place o v p) p = v) ∧
  (∀ (o : LsbOrder) (m0 m1 m2 m3 sel : Byte),
    selOf o (unpack10 o m0 sel 0) (unpack10 o m1 sel 1) (unpack10 o m2 sel 2) (unpack10 o m3 sel 3) = sel ∧
    msbOf (unpack10 o m0 sel 0) = m0 ∧ msbOf (unpack10 o m1 sel 1) = m1 ∧ msbOf (unpack10 o m2 sel 2) = m2 ∧
    msbOf (unpack10 o m3 sel 3) = m3)

/-- RECON_LUMA over a range whose chip bytes are all written commits; element 4i + p of LUMA is unpack10 of R88, at most 1023
(R90), and nothing else changes. -/
def Obligations.ReconLumaCompletes : Prop :=
  ∀ s, s.params.wf → RangeOk s → (∀ i, InRange s i → ∀ S ∈ lumaChips, (s.read S i).isSome) →
    ∃ t, exec .reconLuma s = .next t ∧ Committed s t 0 ∧ t.cfg = s.cfg ∧ t.frags = s.frags ∧
      (∀ i p m sel, InRange s i → p < 4 → s.read (msbChip p) i = some m → s.read .llsb i = some sel →
        lumaValue s.params.lsbOrder m sel p ≤ 1023 ∧
        t.read .luma (4 * i + p) = some (BitVec.ofNat 32 (lumaValue s.params.lsbOrder m sel p))) ∧
      SameOutside s t (elems .luma (4 * s.args.arg0.toNat) (4 * s.args.arg1.toNat))

/-- RECON_CHROMA over a range whose chip bytes are all written commits with P[2i] = C0[i] and P[2i+1] = C1[i] (R91, R93), and
nothing else changes. -/
def Obligations.ReconChromaCompletes : Prop :=
  ∀ s c c0 c1 plane, s.params.wf → Chroma c c0 c1 plane → RangeOk s →
    (∀ i, InRange s i → (s.read c0 i).isSome ∧ (s.read c1 i).isSome) →
    ∃ t, exec (.reconChroma c) s = .next t ∧ Committed s t 0 ∧ t.cfg = s.cfg ∧ t.frags = s.frags ∧
      (∀ i, InRange s i → t.read plane (2 * i) = s.read c0 i ∧ t.read plane (2 * i + 1) = s.read c1 i) ∧
      SameOutside s t (elems plane (2 * s.args.arg0.toNat) (2 * s.args.arg1.toNat))

/-- SPLIT_LUMA over a range whose samples are all written and at most 1023 commits; LMSBp[i] is `sample >> 2`, LLSB[i] is the OR
of the four samples' parts (R94), and nothing else changes. -/
def Obligations.SplitLumaCompletes : Prop :=
  ∀ s, s.params.wf → RangeOk s →
    (∀ i p, InRange s i → p < 4 → ∃ v, s.read .luma (4 * i + p) = some v ∧ v.toNat ≤ 1023) →
    ∃ t, exec .splitLuma s = .next t ∧ Committed s t 0 ∧ t.cfg = s.cfg ∧ t.frags = s.frags ∧
      (∀ i v0 v1 v2 v3, InRange s i → s.read .luma (4 * i) = some v0 → s.read .luma (4 * i + 1) = some v1 →
        s.read .luma (4 * i + 2) = some v2 → s.read .luma (4 * i + 3) = some v3 →
        t.read .lmsb0 i = some (BitVec.ofNat 32 (v0.toNat / 4)) ∧
        t.read .lmsb1 i = some (BitVec.ofNat 32 (v1.toNat / 4)) ∧
        t.read .lmsb2 i = some (BitVec.ofNat 32 (v2.toNat / 4)) ∧
        t.read .lmsb3 i = some (BitVec.ofNat 32 (v3.toNat / 4)) ∧
        t.read .llsb i = some (BitVec.ofNat 32
          (selPart s.params.lsbOrder v0.toNat 0 + selPart s.params.lsbOrder v1.toNat 1 +
            selPart s.params.lsbOrder v2.toNat 2 + selPart s.params.lsbOrder v3.toNat 3))) ∧
      SameOutside s t (fun a => ∃ S ∈ lumaChips, elems S s.args.arg0.toNat s.args.arg1.toNat a)

/-- SPLIT_CHROMA over a range whose plane elements are all written commits with C0[i] = P[2i] and C1[i] = P[2i+1] (R97), and
nothing else changes. -/
def Obligations.SplitChromaCompletes : Prop :=
  ∀ s c c0 c1 plane, s.params.wf → Chroma c c0 c1 plane → RangeOk s →
    (∀ i, InRange s i → (s.read plane (2 * i)).isSome ∧ (s.read plane (2 * i + 1)).isSome) →
    ∃ t, exec (.splitChroma c) s = .next t ∧ Committed s t 0 ∧ t.cfg = s.cfg ∧ t.frags = s.frags ∧
      (∀ i, InRange s i → t.read c0 i = s.read plane (2 * i) ∧ t.read c1 i = s.read plane (2 * i + 1)) ∧
      SameOutside s t (fun a => elems c0 s.args.arg0.toNat s.args.arg1.toNat a ∨
        elems c1 s.args.arg0.toNat s.args.arg1.toNat a)

/-- The four commands of the family fault RANGE at (0xFF, 0x044) when `i0 + n > L`, computed without wrap-around. -/
def Obligations.RawRangeFaults : Prop :=
  ∀ s c, c = .rY ∨ c = .bY → ¬RangeOk s →
    ∀ i ∈ [Instr.reconLuma, .reconChroma c, .splitLuma, .splitChroma c],
      exec i s = .next (faultState s 0x03 0xFF 0x044)

/-- RECON_LUMA and RECON_CHROMA fault UNWRITTEN at the first unwritten chip byte: addresses ascending, and within one address
the chips in their order (R89, R92). -/
def Obligations.ReconFaultsAtFirstUnwritten : Prop :=
  (∀ (s : State) i S before after, s.params.wf → RangeOk s → InRange s i → lumaChips = before ++ S :: after →
    (∀ j, InRange s j → j < i → ∀ T ∈ lumaChips, (s.read T j).isSome) → (∀ T ∈ before, (s.read T i).isSome) →
    s.read S i = none → exec .reconLuma s = .next (faultState s 0x04 S.id i)) ∧
  (∀ (s : State) c c0 c1 plane i S before after, s.params.wf → Chroma c c0 c1 plane → RangeOk s → InRange s i →
    [c0, c1] = before ++ S :: after →
    (∀ j, InRange s j → j < i → (s.read c0 j).isSome ∧ (s.read c1 j).isSome) → (∀ T ∈ before, (s.read T i).isSome) →
    s.read S i = none → exec (.reconChroma c) s = .next (faultState s 0x04 S.id i))

/-- SPLIT_LUMA faults at the first plane element, in ascending order, that is unwritten (UNWRITTEN) or above 1023 (RANGE), and
SPLIT_CHROMA at the first that is unwritten (R95, R97). -/
def Obligations.SplitFaultsAtFirstBadSample : Prop :=
  (∀ (s : State) k, s.params.wf → RangeOk s → 4 * s.args.arg0.toNat ≤ k →
    k < 4 * (s.args.arg0.toNat + s.args.arg1.toNat) →
    (∀ j, 4 * s.args.arg0.toNat ≤ j → j < k → ∃ v, s.read .luma j = some v ∧ v.toNat ≤ 1023) →
    (s.read .luma k = none → exec .splitLuma s = .next (faultState s 0x04 0x10 k)) ∧
    (∀ v, s.read .luma k = some v → 1023 < v.toNat → exec .splitLuma s = .next (faultState s 0x03 0x10 k))) ∧
  (∀ (s : State) c c0 c1 plane k, s.params.wf → Chroma c c0 c1 plane → RangeOk s → 2 * s.args.arg0.toNat ≤ k →
    k < 2 * (s.args.arg0.toNat + s.args.arg1.toNat) →
    (∀ j, 2 * s.args.arg0.toNat ≤ j → j < k → (s.read plane j).isSome) → s.read plane k = none →
    exec (.splitChroma c) s = .next (faultState s 0x04 plane.id k))

/-- R98: over one range, SPLIT then RECON leaves the plane unchanged, and RECON then SPLIT leaves the chip bytes unchanged, for
luma and for each chroma component; the second command commits whenever the first did. -/
def Obligations.ReconSplitRoundTrips : Prop :=
  (∀ s t, s.params.wf → exec .splitLuma s = .next t → t.status.err = false →
    ∃ u, exec .reconLuma t = .next u ∧ u.status.err = false ∧
      ∀ k, k < 4 * s.params.romBytes → u.read .luma k = s.read .luma k) ∧
  (∀ s t, s.params.wf → exec .reconLuma s = .next t → t.status.err = false →
    ∃ u, exec .splitLuma t = .next u ∧ u.status.err = false ∧
      ∀ S ∈ lumaChips, ∀ i, i < s.params.romBytes → u.read S i = s.read S i) ∧
  (∀ s t c c0 c1 plane, s.params.wf → Chroma c c0 c1 plane → exec (.splitChroma c) s = .next t → t.status.err = false →
    ∃ u, exec (.reconChroma c) t = .next u ∧ u.status.err = false ∧
      ∀ k, k < 2 * s.params.romBytes → u.read plane k = s.read plane k) ∧
  (∀ s t c c0 c1 plane, s.params.wf → Chroma c c0 c1 plane → exec (.reconChroma c) s = .next t → t.status.err = false →
    ∃ u, exec (.splitChroma c) t = .next u ∧ u.status.err = false ∧
      ∀ S ∈ [c0, c1], ∀ i, i < s.params.romBytes → u.read S i = s.read S i)

/-! ## The vector codec -/

/-- VDEC under a 4:3 Standard, arguments and region in range and record bytes written, commits with RESULT0 = n; both vector
files hold the scaled entries of R100 and R101, and nothing else changes. -/
def Obligations.VdecFourThreeCompletes : Prop :=
  ∀ s, s.params.wf → Is43 s → VdecArgsOk s →
    (∀ n, InRange s n → ∀ b, b < 3 → (s.read .cpurom (recAddr s n + b)).isSome) →
    ∃ t, exec .vdec s = .next t ∧ Committed s t s.args.arg1 ∧ t.cfg = s.cfg ∧ t.frags = s.frags ∧
      (∀ n seq a b, InRange s n → s.read .cpurom (recAddr s n) = some seq → s.read .cpurom (recAddr s n + 1) = some a →
        s.read .cpurom (recAddr s n + 2) = some b →
        t.readSlot .L n = some (entry43 s.params .L seq a b) ∧ t.readSlot .C n = some (entry43 s.params .C seq a b)) ∧
      SameOutside s t (fun x => slots .L s.args.arg0.toNat s.args.arg1.toNat x ∨
        slots .C s.args.arg0.toNat s.args.arg1.toNat x)

/-- VDEC under PAL 16:9, with no back porch negative, commits with RESULT0 = n; both vector files hold the centre of R102 scaled
and the back porch of R103, front = 0 and HAS_FRONT = 0, and nothing else changes. -/
def Obligations.VdecSixteenNineCompletes : Prop :=
  ∀ s, s.params.wf → s.cfg.std = 1 → VdecArgsOk s →
    (∀ n, InRange s n → ∃ high control, s.read .cpurom (recAddr s n) = some high ∧
      s.read .cpurom (recAddr s n + 1) = some control ∧
      ∀ cls, 0 ≤ porch169 s.params cls (centre169 high control)) →
    ∃ t, exec .vdec s = .next t ∧ Committed s t s.args.arg1 ∧ t.cfg = s.cfg ∧ t.frags = s.frags ∧
      (∀ n high control cls, InRange s n → s.read .cpurom (recAddr s n) = some high →
        s.read .cpurom (recAddr s n + 1) = some control →
        ∃ e, t.readSlot cls n = some e ∧ (e.back.toNat : Int) = porch169 s.params cls (centre169 high control) ∧
          e.centre.toNat = centre169 high control * rpcOf cls ∧ e.front = 0 ∧ e.hasFront = false) ∧
      SameOutside s t (fun x => slots .L s.args.arg0.toNat s.args.arg1.toNat x ∨
        slots .C s.args.arg0.toNat s.args.arg1.toNat x)

/-- VDEC faults RANGE when the slot range passes N or VEC_CAP (0xFF, 0x044), then when the region passes the CPU ROM's end
(0xFF, 0x010) (R108). -/
def Obligations.VdecArgumentFaults : Prop :=
  ∀ s, StdOk s →
    let last := s.args.arg0.toNat + s.args.arg1.toNat
    (s.cfg.vtLen.toNat / recLen s < last ∨ s.params.vecCap < last →
      exec .vdec s = .next (faultState s 0x03 0xFF 0x044)) ∧
    (last ≤ s.cfg.vtLen.toNat / recLen s → last ≤ s.params.vecCap → s.args.arg1 ≠ 0 →
      s.params.cpuRomBytes < recAddr s (last - 1) + recLen s →
      exec .vdec s = .next (faultState s 0x03 0xFF 0x010))

/-- VDEC faults at the first record that fails (R108): UNWRITTEN at the record's first unwritten byte, and in the 16:9 format
RANGE at the record when a back porch is negative for either class. -/
def Obligations.VdecRecordFaults : Prop :=
  ∀ s n, s.params.wf → StdOk s → VdecArgsOk s → InRange s n →
    (∀ m, InRange s m → m < n → (∀ b, b < recLen s → (s.read .cpurom (recAddr s m + b)).isSome) ∧
      (s.cfg.std = 1 → ∀ high control cls, s.read .cpurom (recAddr s m) = some high →
        s.read .cpurom (recAddr s m + 1) = some control → 0 ≤ porch169 s.params cls (centre169 high control))) →
    (∀ b, b < recLen s → (∀ d, d < b → (s.read .cpurom (recAddr s n + d)).isSome) →
      s.read .cpurom (recAddr s n + b) = none → exec .vdec s = .next (faultState s 0x04 0x0A (recAddr s n + b))) ∧
    (∀ high control cls, s.cfg.std = 1 → s.read .cpurom (recAddr s n) = some high →
      s.read .cpurom (recAddr s n + 1) = some control → porch169 s.params cls (centre169 high control) < 0 →
      exec .vdec s = .next (faultState s 0x03 0x0A (recAddr s n)))

/-- VENC of an entry that R104 can represent commits: the record is the least matching pattern index, then the high bytes of the
raw back porch and of the raw centre; nothing else changes, the vector files included. -/
def Obligations.VencFourThreeCompletes : Prop :=
  ∀ s c k q, s.params.wf → componentOf c = some k → Is43 s → VencArgsOk s → Raw16 k.cls s.args.arg1 →
    Raw16 k.cls s.args.arg2 → FrontOk k.cls s → q < 4 → lows s.params q = wantedLows k.cls s →
    (∀ j, j < q → lows s.params j ≠ wantedLows k.cls s) →
    ∃ t, exec (.venc c) s = .next t ∧ Committed s t 0 ∧ t.cfg = s.cfg ∧ t.frags = s.frags ∧
      t.read .cpurom (recAddr s s.args.arg0.toNat) = some (BitVec.ofNat 32 q) ∧
      t.read .cpurom (recAddr s s.args.arg0.toNat + 1) = some (BitVec.ofNat 32 (raw k.cls s.args.arg1 / 256)) ∧
      t.read .cpurom (recAddr s s.args.arg0.toNat + 2) = some (BitVec.ofNat 32 (raw k.cls s.args.arg2 / 256)) ∧
      SameOutside s t (elems .cpurom (recAddr s s.args.arg0.toNat) 3)

/-- VENC of an entry that R105 can represent commits: the record is centre bits [15:8], then bits 16, 17 and 18 at control bits 5,
2 and 3 and zeros elsewhere; nothing else changes. -/
def Obligations.VencSixteenNineCompletes : Prop :=
  ∀ s c k, s.params.wf → componentOf c = some k → s.cfg.std = 1 → VencArgsOk s → CentreOk k.cls s.args.arg2 →
    (s.args.arg1.toNat : Int) = porch169 s.params k.cls (raw k.cls s.args.arg2) → s.args.arg3 = 0 →
    ∃ t, exec (.venc c) s = .next t ∧ Committed s t 0 ∧ t.cfg = s.cfg ∧ t.frags = s.frags ∧
      t.read .cpurom (recAddr s s.args.arg0.toNat) = some (BitVec.ofNat 32 (raw k.cls s.args.arg2 / 256 % 256)) ∧
      t.read .cpurom (recAddr s s.args.arg0.toNat + 1) = some (BitVec.ofNat 32
        (raw k.cls s.args.arg2 / 65536 % 2 * 32 + raw k.cls s.args.arg2 / 131072 % 2 * 4 +
          raw k.cls s.args.arg2 / 262144 % 2 * 8)) ∧
      SameOutside s t (elems .cpurom (recAddr s s.args.arg0.toNat) 2)

/-- VENC faults RANGE when the slot is outside the field (0xFF, 0x040), then when the record passes the CPU ROM's end
(0xFF, 0x010) (R109). (That both come before UNREPR, to which R134 gives no number, follows R109's pseudocode: log 19.) -/
def Obligations.VencArgumentFaults : Prop :=
  ∀ s c, c ≠ .lumaLsb → StdOk s →
    (s.cfg.vtLen.toNat / recLen s ≤ s.args.arg0.toNat → exec (.venc c) s = .next (faultState s 0x03 0xFF 0x040)) ∧
    (s.args.arg0.toNat < s.cfg.vtLen.toNat / recLen s →
      s.params.cpuRomBytes < recAddr s s.args.arg0.toNat + recLen s →
      exec (.venc c) s = .next (faultState s 0x03 0xFF 0x010))

/-- VENC of an entry that is not representable faults UNREPR at the first condition of R104, or of R105, that fails: the back
porch, centre or front porch register, or P_PAT0 when no pattern matches. -/
def Obligations.VencUnrepresentableFaults : Prop :=
  ∀ s c k, componentOf c = some k → VencArgsOk s →
    (Is43 s →
      (¬Raw16 k.cls s.args.arg1 → exec (.venc c) s = .next (faultState s 0x05 0xFF 0x044)) ∧
      (Raw16 k.cls s.args.arg1 → ¬Raw16 k.cls s.args.arg2 → exec (.venc c) s = .next (faultState s 0x05 0xFF 0x048)) ∧
      (Raw16 k.cls s.args.arg1 → Raw16 k.cls s.args.arg2 → ¬FrontOk k.cls s →
        exec (.venc c) s = .next (faultState s 0x05 0xFF 0x04C)) ∧
      (Raw16 k.cls s.args.arg1 → Raw16 k.cls s.args.arg2 → FrontOk k.cls s →
        (∀ q, q < 4 → lows s.params q ≠ wantedLows k.cls s) →
        exec (.venc c) s = .next (faultState s 0x05 0xFF 0x088))) ∧
    (s.cfg.std = 1 →
      (¬CentreOk k.cls s.args.arg2 → exec (.venc c) s = .next (faultState s 0x05 0xFF 0x048)) ∧
      (CentreOk k.cls s.args.arg2 →
        (s.args.arg1.toNat : Int) ≠ porch169 s.params k.cls (raw k.cls s.args.arg2) →
        exec (.venc c) s = .next (faultState s 0x05 0xFF 0x044)) ∧
      (CentreOk k.cls s.args.arg2 →
        (s.args.arg1.toNat : Int) = porch169 s.params k.cls (raw k.cls s.args.arg2) → s.args.arg3 ≠ 0 →
        exec (.venc c) s = .next (faultState s 0x05 0xFF 0x04C)))

/-- R107: (a) decoding the record that encodes a representable entry gives the entry; (b) encoding a decoded record gives its
canonical form, when the 16:9 decode does not underflow. -/
def Obligations.CodecRoundTrips : Prop :=
  (∀ p cls b c f x y z, enc43 p b c f cls = .ok [x, y, z] →
    scale43 (dec43 p x y z) cls =
      { back := BitVec.ofNat 32 b, centre := BitVec.ofNat 32 c, front := BitVec.ofNat 32 f, hasFront := true }) ∧
  (∀ p cls b c f x y, enc169 p b c f cls = .ok [x, y] →
    back169 p (rawCentre169 x y) cls = b ∧
    scale169 p (rawCentre169 x y) cls =
      { back := BitVec.ofNat 32 b, centre := BitVec.ofNat 32 c, front := BitVec.ofNat 32 f, hasFront := false }) ∧
  (∀ p cls x y z, ∃ q : BitVec 2, patternOf p q = patternOf p (x.setWidth 2) ∧
    (∀ j, j < q → patternOf p j ≠ patternOf p (x.setWidth 2)) ∧
    enc43 p ((dec43 p x y z).back * rpcOf cls) ((dec43 p x y z).centre * rpcOf cls)
      ((dec43 p x y z).front * rpcOf cls) cls = .ok [q.setWidth 8, y, z]) ∧
  (∀ p cls x y, 0 ≤ back169 p (rawCentre169 x y) cls →
    enc169 p (back169 p (rawCentre169 x y) cls).toNat (rawCentre169 x y * rpcOf cls) 0 cls = .ok [x, y &&& 0x2C])

/-- A record that VENC wrote, decoded by VDEC in the same configuration, puts the entry that VENC was given into the vector file
of its class. -/
def Obligations.VencThenVdecGivesEntry : Prop :=
  ∀ s c k t u, s.params.wf → componentOf c = some k → exec (.venc c) s = .next t → t.status.err = false →
    exec .vdec { t with args := { t.args with arg1 := 1 } } = .next u → u.status.err = false →
    u.readSlot k.cls s.args.arg0.toNat =
      some { back := s.args.arg1, centre := s.args.arg2, front := s.args.arg3, hasFront := s.cfg.std != 1 }

/-! ## The raster assembler -/

/-- STITCH_GEN writes the generic order of R118 (a) and (b) as entries with BLANK = 0 and RSVD = 0, and STITCH_LEN <- M; entries
from M up, and everything else, are unchanged (R119). -/
def Obligations.StitchGenCompletes : Prop :=
  ∀ s, s.params.wf → StdOk s → s.args.arg0.toNat ≤ s.params.stitchCap →
    (∀ t, t < s.args.arg0.toNat → stitchOf s t ≤ 0xFFFFF) →
    ∃ u, exec .stitchGen s = .next u ∧ Committed s u 0 ∧ u.frags = s.frags ∧
      u.cfg = { s.cfg with stitchLen := u.cfg.stitchLen } ∧ u.cfg.stitchLen.toNat = s.args.arg0.toNat ∧
      (∀ t, t < s.args.arg0.toNat → u.read .stitch t = some (BitVec.ofNat 32 (stitchOf s t))) ∧
      SameOutside s u (elems .stitch 0 s.args.arg0.toNat)

/-- STITCH_GEN faults RANGE at (0xFF, 0x040) when M passes STITCH_CAP or a slot index does not fit in 20 bits (R119). -/
def Obligations.StitchGenFaults : Prop :=
  ∀ s, StdOk s →
    s.params.stitchCap < s.args.arg0.toNat ∨ (∃ t, t < s.args.arg0.toNat ∧ 0xFFFFF < stitchOf s t) →
    exec .stitchGen s = .next (faultState s 0x03 0xFF 0x040)

/-- ASM_LINE, its checks passing, commits: pixel x of output line j is the plane element R113 names, copied unchanged, at element
`j × W(c) + x` of the raster space (R117); the segments' windows are recorded (R116); nothing else changes. -/
def Obligations.AsmLineCompletes : Prop :=
  ∀ s c k e, s.params.wf → componentOf c = some k → StdOk s → s.args.arg0.toNat < s.params.vecCap →
    s.readSlot k.cls s.args.arg0.toNat = some e → Agrees s e →
    (s.args.arg1.toNat + 1) * width s k ≤ capOf s k → (∀ g ∈ lineSegs s k e, SegReadable s k g) →
    Room s (keysOf k (lineSegs s k e)) →
    ∃ t, exec (.asmLine c) s = .next t ∧ Committed s t 0 ∧ t.cfg = s.cfg ∧ Recorded s t k (lineSegs s k e) ∧
      (∀ x, x < width s k →
        t.read k.raster (s.args.arg1.toNat * width s k + x) = s.read k.plane (lineSource s k e x)) ∧
      SameOutside s t (elems k.raster (s.args.arg1.toNat * width s k) (width s k))

/-- ASM_LINE faults, in this order (R120): RANGE for a slot outside VEC_CAP, UNWRITTEN for an unwritten slot, CONFIG for an entry
of the other format (R114), RANGE for an output line outside the raster space (R117). (That the slot's UNWRITTEN and CONFIG come
before the output line's RANGE follows R120's pseudocode against the numbered order of R134; it is the model's choice, log 19.) -/
def Obligations.AsmLineFaults : Prop :=
  ∀ s c k, componentOf c = some k → StdOk s →
    (s.params.vecCap ≤ s.args.arg0.toNat → exec (.asmLine c) s = .next (faultState s 0x03 0xFF 0x040)) ∧
    (s.args.arg0.toNat < s.params.vecCap → s.readSlot k.cls s.args.arg0.toNat = none →
      exec (.asmLine c) s = .next (faultState s 0x04 k.cls.vecId s.args.arg0.toNat)) ∧
    (∀ e, s.args.arg0.toNat < s.params.vecCap → s.readSlot k.cls s.args.arg0.toNat = some e → ¬Agrees s e →
      exec (.asmLine c) s = .next (faultState s 0x02 k.cls.vecId s.args.arg0.toNat)) ∧
    (∀ e, s.args.arg0.toNat < s.params.vecCap → s.readSlot k.cls s.args.arg0.toNat = some e → Agrees s e →
      capOf s k < (s.args.arg1.toNat + 1) * width s k →
      exec (.asmLine c) s = .next (faultState s 0x03 0xFF 0x044))

/-- ASM_LINE faults at the first segment, in the order back, centre, front, that fails (R115, R116): RANGE at (P(c), a) when it
passes the plane's end, UNWRITTEN at its first unwritten element, FRAG_FULL at (0xFF, 0x05C) when its key is new and the map
is full. A segment of length 0 never fails. (That a full map is reported before a later segment's RANGE or UNWRITTEN is the
model's deduction from R120's "fragments recorded per segment": log 21.) -/
def Obligations.AsmLineSegmentFaults : Prop :=
  ∀ s c k e before g after, componentOf c = some k → StdOk s → s.args.arg0.toNat < s.params.vecCap →
    s.readSlot k.cls s.args.arg0.toNat = some e → Agrees s e →
    (s.args.arg1.toNat + 1) * width s k ≤ capOf s k → lineSegs s k e = before ++ g :: after → g.2 ≠ 0 →
    (∀ b ∈ before, SegReadable s k b) → Room s (keysOf k before) →
    (k.plane.size s.params < g.1 + g.2 → exec (.asmLine c) s = .next (faultState s 0x03 k.plane.id g.1)) ∧
    (∀ x, g.1 + g.2 ≤ k.plane.size s.params → g.1 ≤ x → x < g.1 + g.2 →
      (∀ y, g.1 ≤ y → y < x → (s.read k.plane y).isSome) → s.read k.plane x = none →
      exec (.asmLine c) s = .next (faultState s 0x04 k.plane.id x)) ∧
    (SegReadable s k g → (∀ f ∈ s.frags, f.key ≠ keyOf k g) → keyOf k g ∉ keysOf k before →
      s.params.fragCap = some (s.frags.length + newKeys s (keysOf k before)) →
      exec (.asmLine c) s = .next (faultState s 0x06 0xFF 0x05C))

/-- ASM_BLANK under NTSC, the line inside the raster space, commits: every sample of output line j is BLANK_Y for LUMA, BLANK_C
for RY and BY (R121), no fragment is recorded, and nothing else changes. -/
def Obligations.AsmBlankCompletes : Prop :=
  ∀ s c k, s.params.wf → componentOf c = some k → s.cfg.std = 2 →
    (s.args.arg1.toNat + 1) * width s k ≤ capOf s k →
    ∃ t, exec (.asmBlank c) s = .next t ∧ Committed s t 0 ∧ t.cfg = s.cfg ∧ t.frags = s.frags ∧
      (∀ x, x < width s k → t.read k.raster (s.args.arg1.toNat * width s k + x) = some (blankOf s k)) ∧
      SameOutside s t (elems k.raster (s.args.arg1.toNat * width s k) (width s k))

/-- ASM_BLANK faults CONFIG at (0xFF, 0x00C) when STD is not NTSC, then RANGE at (0xFF, 0x044) for a line outside the raster
space (R122). -/
def Obligations.AsmBlankFaults : Prop :=
  ∀ s c k, componentOf c = some k →
    (s.cfg.std ≠ 2 → exec (.asmBlank c) s = .next (faultState s 0x02 0xFF 0x00C)) ∧
    (s.cfg.std = 2 → capOf s k < (s.args.arg1.toNat + 1) * width s k →
      exec (.asmBlank c) s = .next (faultState s 0x03 0xFF 0x044))

/-- ASM_FRAME, the checks of every line passing, commits: each output line t of the stitch table is a blank line, or the line of
its vector slot, at element `t × W(c)`; the windows of all its segments are recorded; nothing else changes (R123). -/
def Obligations.AsmFrameCompletes : Prop :=
  ∀ s c k, s.params.wf → componentOf c = some k → StdOk s → s.cfg.stitchLen.toNat ≤ s.params.stitchCap →
    s.cfg.stitchLen.toNat * width s k ≤ capOf s k → (∀ t, t < s.cfg.stitchLen.toNat → FrameLineOk s k t) →
    Room s (keysOf k (framesUpTo s k s.cfg.stitchLen.toNat)) →
    ∃ u, exec (.asmFrame c) s = .next u ∧ Committed s u 0 ∧ u.cfg = s.cfg ∧
      Recorded s u k (framesUpTo s k s.cfg.stitchLen.toNat) ∧
      (∀ t w x, t < s.cfg.stitchLen.toNat → s.read .stitch t = some w → x < width s k →
        (isBlank w → u.read k.raster (t * width s k + x) = some (blankOf s k)) ∧
        (∀ e, ¬isBlank w → s.readSlot k.cls (vindexOf w) = some e →
          u.read k.raster (t * width s k + x) = s.read k.plane (lineSource s k e x))) ∧
      SameOutside s u (elems k.raster 0 (s.cfg.stitchLen.toNat * width s k))

/-- ASM_FRAME faults RANGE at (0xFF, 0x02C) for STITCH_LEN, then at the first failing output line t: UNWRITTEN at the stitch entry,
CONFIG at it for RSVD or for a blank line outside NTSC, RANGE at it for VINDEX, UNWRITTEN at the vector slot, CONFIG at the slot
for an entry of the other format (R123). -/
def Obligations.AsmFrameFaults : Prop :=
  ∀ s c k, componentOf c = some k → StdOk s →
    (s.params.stitchCap < s.cfg.stitchLen.toNat ∨ capOf s k < s.cfg.stitchLen.toNat * width s k →
      exec (.asmFrame c) s = .next (faultState s 0x03 0xFF 0x02C)) ∧
    (∀ t, s.params.wf → s.cfg.stitchLen.toNat ≤ s.params.stitchCap → s.cfg.stitchLen.toNat * width s k ≤ capOf s k →
      t < s.cfg.stitchLen.toNat → (∀ j, j < t → FrameLineOk s k j) → Room s (keysOf k (framesUpTo s k t)) →
      (s.read .stitch t = none → exec (.asmFrame c) s = .next (faultState s 0x04 0x1A t)) ∧
      (∀ w, s.read .stitch t = some w →
        (rsvdOf w ≠ 0 → exec (.asmFrame c) s = .next (faultState s 0x02 0x1A t)) ∧
        (rsvdOf w = 0 → isBlank w → s.cfg.std ≠ 2 → exec (.asmFrame c) s = .next (faultState s 0x02 0x1A t)) ∧
        (rsvdOf w = 0 → ¬isBlank w → s.params.vecCap ≤ vindexOf w →
          exec (.asmFrame c) s = .next (faultState s 0x03 0x1A t)) ∧
        (rsvdOf w = 0 → ¬isBlank w → vindexOf w < s.params.vecCap → s.readSlot k.cls (vindexOf w) = none →
          exec (.asmFrame c) s = .next (faultState s 0x04 k.cls.vecId (vindexOf w))) ∧
        (∀ e, rsvdOf w = 0 → ¬isBlank w → vindexOf w < s.params.vecCap → s.readSlot k.cls (vindexOf w) = some e →
          ¬Agrees s e → exec (.asmFrame c) s = .next (faultState s 0x02 k.cls.vecId (vindexOf w)))))

/-- ASM_FRAME faults at the first segment that fails of its first failing output line (R123, R115, R116), as ASM_LINE does; a key
that an earlier line, or an earlier segment of the line, recorded is no longer new. (That the FRAG_FULL of a segment comes
before the faults of later segments and lines is the model's deduction: log 21.) -/
def Obligations.AsmFrameSegmentFaults : Prop :=
  ∀ s c k t w e before g after, s.params.wf → componentOf c = some k → StdOk s →
    s.cfg.stitchLen.toNat ≤ s.params.stitchCap → s.cfg.stitchLen.toNat * width s k ≤ capOf s k →
    t < s.cfg.stitchLen.toNat → (∀ j, j < t → FrameLineOk s k j) →
    s.read .stitch t = some w → rsvdOf w = 0 → ¬isBlank w → vindexOf w < s.params.vecCap →
    s.readSlot k.cls (vindexOf w) = some e → Agrees s e → lineSegs s k e = before ++ g :: after → g.2 ≠ 0 →
    (∀ b ∈ before, SegReadable s k b) → Room s (keysOf k (framesUpTo s k t ++ before)) →
    (k.plane.size s.params < g.1 + g.2 → exec (.asmFrame c) s = .next (faultState s 0x03 k.plane.id g.1)) ∧
    (∀ x, g.1 + g.2 ≤ k.plane.size s.params → g.1 ≤ x → x < g.1 + g.2 →
      (∀ y, g.1 ≤ y → y < x → (s.read k.plane y).isSome) → s.read k.plane x = none →
      exec (.asmFrame c) s = .next (faultState s 0x04 k.plane.id x)) ∧
    (SegReadable s k g → (∀ f ∈ s.frags, f.key ≠ keyOf k g) → keyOf k g ∉ keysOf k (framesUpTo s k t ++ before) →
      s.params.fragCap = some (s.frags.length + newKeys s (keysOf k (framesUpTo s k t ++ before))) →
      exec (.asmFrame c) s = .next (faultState s 0x06 0xFF 0x05C))

/-- No command but FRAG_CLEAR drops or changes a fragment, and none but ASM_LINE and ASM_FRAME adds one (10_state.md R44, 20_memory.md
R67). -/
def Obligations.FragmentsAreKept : Prop :=
  ∀ i s t, exec i s = .next t → i ≠ .fragClear →
    (∀ f ∈ s.frags, f ∈ t.frags) ∧
    ((∀ c, i ≠ .asmLine c) → (∀ c, i ≠ .asmFrame c) → t.frags = s.frags)

/-! ## The host port -/

/-- R56, R52: an admitted host write of element k of a memory space stores the value's low bits, bits [7:0] at the lowest byte
address, marks the element written, and changes nothing else. -/
def Obligations.HostWriteStoresElement : Prop :=
  ∀ (s : State) (S : Space) k v rest, s.params.wf → s.status.busy = false → k < S.size s.params →
    s.script = .write (hostAddr S.id.toNat (k * S.bytes)) S.bytes v :: rest →
    ∃ t, step s = .next t ∧ t = { s with script := rest, mem := t.mem } ∧
      t.read S k = some (BitVec.ofNat 32 (v.toNat % 2 ^ (8 * S.bytes))) ∧
      (∀ b, b < S.bytes → t.mem.read (S.addr k + b) = some (BitVec.ofNat 8 (v.toNat / 2 ^ (8 * b)))) ∧
      SameOutside s t (elems S k 1)

/-- R57: an admitted host read returns the element's value, or for an unwritten element an unspecified value (the next draw, of
the element's width, whatever it is: log 4). Of a vector slot it returns the word (R82): the entry's back, centre or front, and
for word 3 the flags, HAS_FRONT in bit 0, and bits [31:1] = 0 where the slots hold decoded entries, as in every run. Of a register
it returns its word (R23): STATUS in R25's layout, FAULT_INFO in R35's, CMD (R33), RESULT0 (R34), FRAG_COUNT (R44; modulo 2^32 is
the model's choice, log 8) and the others from their fields, STD and VT_* reading 0 above their width (R26, R27); that GEOM_BPL,
GEOM_CL, GEOM_FPL, GEOM_LPF, STITCH_LEN, BLANK_Y and BLANK_C read 0 above theirs is the model's choice, log 22. The block's state
does not change. -/
def Obligations.HostReadReturnsElement : Prop :=
  (∀ (s : State) (S : Space) k rest, s.params.wf → s.status.busy = false → k < S.size s.params →
    s.script = .read (hostAddr S.id.toNat (k * S.bytes)) S.bytes :: rest →
    (∀ v, s.read S k = some v → step s = .next { s with script := rest, replies := v :: s.replies }) ∧
    (s.read S k = none → ∃ v, v.toNat < 2 ^ (8 * S.bytes) ∧
      step s = .next { s with script := rest, replies := v :: s.replies, draws := s.draws + 1 })) ∧
  (∀ (s : State) (cls : ScaleClass) n j rest, s.params.wf → s.status.busy = false → n < s.params.vecCap → j < 4 →
    s.script = .read (hostAddr cls.vecId.toNat (16 * n + 4 * j)) 4 :: rest →
    (∀ e, s.readSlot cls n = some e → ∃ v, step s = .next { s with script := rest, replies := v :: s.replies } ∧
      (j = 0 → v = e.back) ∧ (j = 1 → v = e.centre) ∧ (j = 2 → v = e.front) ∧
      (j = 3 → v.getLsbD 0 = e.hasFront ∧ (s.slotsOk → v = if e.hasFront then 1 else 0))) ∧
    (s.readSlot cls n = none → ∃ v,
      step s = .next { s with script := rest, replies := v :: s.replies, draws := s.draws + 1 })) ∧
  (∀ (s : State) (r : Reg) rest, s.status.busy = false → s.script = .read (hostAddr 0 r.offset) 4 :: rest →
    step s = .next { s with script := rest, replies := BitVec.ofNat 32 (regWord s r) :: s.replies })

/-- R58, R59: the accesses the host port refuses; a refused write changes nothing but HOSTERR, a refused read returns an
unspecified value and sets HOSTERR; an access it does not refuse leaves HOSTERR, the soft reset apart. -/
def Obligations.HostPortRefuses : Prop :=
  ∀ (s : State) id off bytes rest, s.params.wf → s.status.busy = false → id < 256 → off < 2 ^ 24 →
    (∀ v, s.script = .write (hostAddr id off) bytes v :: rest →
      (Refused s.params id off bytes true →
        step s = .next { s with script := rest, status := { s.status with hosterr := true } }) ∧
      (¬Refused s.params id off bytes true → ¬NextIsSoftReset s →
        ∃ t, step s = .next t ∧ t.status.hosterr = s.status.hosterr)) ∧
    (s.script = .read (hostAddr id off) bytes :: rest →
      (Refused s.params id off bytes false → ∃ v,
        step s = .next { s with
          script := rest, status := { s.status with hosterr := true }, replies := v :: s.replies, draws := s.draws + 1 }) ∧
      (¬Refused s.params id off bytes false → ∃ t, step s = .next t ∧ t.status = s.status))

/-- A host write of a configuration or argument register stores the value's low bits of the register's width in the register's own
field of State, which is what the commands read; it reads back so, every other register reads as before, and nothing else changes
(R23, R26, R27; that the bits above the width of GEOM_*, STITCH_LEN and BLANK_* are ignored and read 0 is the model's choice,
log 22). A write of a read-only register changes nothing (R25, R36; of ID, RESULT0, FAULT_INFO and FRAG_COUNT it is the model's
reading, log 12). -/
def Obligations.HostRegisterWrites : Prop :=
  (∀ (s : State) r w v rest, s.status.busy = false → (r, w) ∈ storeRegs →
    s.script = .write (hostAddr 0 r.offset) 4 v :: rest →
    ∃ t, step s = .next t ∧ t = { stored s v r with script := rest } ∧ (t.readReg r).toNat = v.toNat % 2 ^ w ∧
      (∀ r', r' ≠ r → t.readReg r' = s.readReg r')) ∧
  (∀ (s : State) r v rest, s.status.busy = false → r ∈ readOnlyRegs →
    s.script = .write (hostAddr 0 r.offset) 4 v :: rest → step s = .next { s with script := rest })

/-- R46: a register-space offset that R23 does not list reads 0, ignores writes, and does not set HOSTERR. -/
def Obligations.ReservedOffsetsReadZero : Prop :=
  ∀ (s : State) off rest, s.status.busy = false → off % 4 = 0 → off < 256 → (∀ r : Reg, r.offset ≠ off) →
    (∀ v, s.script = .write (hostAddr 0 off) 4 v :: rest → step s = .next { s with script := rest }) ∧
    (s.script = .read (hostAddr 0 off) 4 :: rest → step s = .next { s with script := rest, replies := 0 :: s.replies })

/-- R24, R147, R149: a write of CTRL with SRST = 1 puts the block in its power-on state with its parameters kept, BLANK_Y
reloaded from WHITE_LUMA; with SRST = 0 it has no effect; bits [31:1] are ignored; CTRL reads 0. (That the model's own fields
`replies` and `draws` stay is the model's choice, logs 3 and 4.) -/
def Obligations.SoftResetIsPowerOn : Prop :=
  (∀ (s : State) v rest, s.status.busy = false → s.script = .write 0x00000004 4 v :: rest →
    (v.getLsbD 0 = true →
      step s = .next { State.powerOn s.params with script := rest, replies := s.replies, draws := s.draws }) ∧
    (v.getLsbD 0 = false → step s = .next { s with script := rest })) ∧
  (∀ s : State, s.readReg .ctrl = 0) ∧
  (∀ p : Params, (State.powerOn p).cfg.blankY = p.whiteLuma ∧ (State.powerOn p).mem = [] ∧ (State.powerOn p).frags = [])

/-- The host port answers every access between two commands: a step from a state that is not busy answers a state that is not busy,
and with no access to come the block keeps all its state (R18, R146). An access while BUSY = 1, a read of STATUS apart, is
the model's one refusal (R60; 93_implementation_defined.md I9). -/
def Obligations.StepAnswersWhenNotBusy : Prop :=
  (∀ s, s.status.busy = false → ∃ t, step s = .next t ∧ t.status.busy = false) ∧
  (∀ s, s.script = [] → step s = .next s) ∧
  (∀ s a n rest, s.status.busy = true → s.script = .read a n :: rest → ¬(a = 0x00000008 ∧ n = 4) →
    step s = .refused .hostAccessWhileBusy) ∧
  (∀ s a n v rest, s.status.busy = true → s.script = .write a n v :: rest →
    step s = .refused .hostAccessWhileBusy)

/-! ## Invariants that every step keeps -/

/-- The flags agree with one another after every step: not busy; ERRCODE, ERROP and FAULT_INFO are 0 until a fault (R25, R136);
after one DONE = 0 and ERRCODE is a code of R130. -/
def Obligations.StepKeepsStatusConsistent : Prop :=
  ∀ s t, s.statusOk → step s = .next t → t.statusOk

/-- Memory keeps its canonical form, lists bytes of existing elements only, and each element stays written or unwritten as a
whole (R42, R49). -/
def Obligations.StepKeepsMemoryCanonical : Prop :=
  ∀ s t, s.params.wf → s.memOk → step s = .next t → t.memOk

/-- The fragment map stays a map: keys unique, at most FRAG_CAP entries, no zero-length key, rawLen × RPC samples each (R44, R116). -/
def Obligations.StepKeepsFragmentMap : Prop :=
  ∀ s t, s.fragsOk → step s = .next t → t.fragsOk

/-- Every written vector slot holds a decoded entry: multiples of RPC within the range of R110, no front porch without HAS_FRONT, and
a flags word with bits [31:1] = 0 (R37, R82). -/
def Obligations.StepKeepsVectorSlotsDecoded : Prop :=
  ∀ s t, s.params.wf → s.slotsOk → step s = .next t → t.slotsOk

/-- R42: an element stays written until reset. -/
def Obligations.WrittenStaysWritten : Prop :=
  ∀ s t a, step s = .next t → (s.mem.read a).isSome → (t.mem.read a).isSome ∨ (NextIsSoftReset s ∧ t.mem = [])

/-- R149, R7: no step changes an implementation parameter. -/
def Obligations.ParametersNeverChange : Prop :=
  ∀ s t, step s = .next t → t.params = s.params

/-! ## The address map -/

/-- R23 and R49 as literals: every register's offset; every space's id, element width and size; the ids of the vector files; the
host byte address of an element and of a slot; and the spaces that a component uses (R14 and the notation of
42_raster_assembler.md). -/
def Obligations.AddressMapIsTheTables : Prop :=
  (∀ q ∈ registerTable, q.1.offset = q.2) ∧ (∀ r : Reg, r ∈ registerTable.map Prod.fst) ∧
  (∀ p, (∀ q ∈ spaceTable p, q.1.id.toNat = q.2.1 ∧ q.1.bytes = q.2.2.1 ∧ q.1.size p = q.2.2.2) ∧
    (∀ S : Space, S ∈ (spaceTable p).map Prod.fst) ∧
    p.romBytes = (match p.romSize with | .kib64 => 65536 | .kib512 => 524288)) ∧
  (ScaleClass.L.vecId = 0x18 ∧ ScaleClass.C.vecId = 0x19) ∧
  (∀ (S : Space) k, S.addr k = S.id.toNat * 2 ^ 24 + k * S.bytes) ∧
  (∀ (cls : ScaleClass) n, cls.slotAddr n = cls.vecId.toNat * 2 ^ 24 + 16 * n) ∧
  (Component.luma.cls = .L ∧ Component.luma.plane = .luma ∧ Component.luma.raster = .rasY) ∧
  (Component.rY.cls = .C ∧ Component.rY.plane = .ryp ∧ Component.rY.raster = .rasRY) ∧
  (Component.bY.cls = .C ∧ Component.bY.plane = .byp ∧ Component.bY.raster = .rasBY)
end

