-- ==== Sys2Proof/Laws/Memory.lean ====
section
/-! SUPPORT. Memory by byte and by value: a read after a write, what a write leaves alone, the canonical form. -/

namespace Sys2Proof.Machine

/-! ## One byte -/

@[simp] theorem Memory.read_nil (a : Nat) : Memory.read [] a = none := rfl

theorem Memory.read_cons (c : Host.Cell) (m : Memory) (a : Nat) :
    Memory.read (c :: m) a = if c.1 = a then some c.2 else Memory.read m a := rfl

@[simp] theorem Memory.read_write_same (m : Memory) (a : Nat) (b : Byte) : (Memory.write m a b).read a = some b := by
  induction m with
  | nil => simp [Memory.write, Memory.read]
  | cons c m ih =>
    unfold Memory.write
    split
    · simp [Memory.read]
    · split
      · simp [Memory.read]
      · rename_i h
        rw [Memory.read_cons, if_neg (fun e => h e.symm), ih]

theorem Memory.read_write_other (m : Memory) {a x : Nat} (b : Byte) (h : x ≠ a) :
    (Memory.write m a b).read x = m.read x := by
  induction m with
  | nil => simp [Memory.write, Memory.read, Ne.symm h]
  | cons c m ih =>
    unfold Memory.write
    split
    · rw [Memory.read_cons]; simp [Ne.symm h]
    · split
      · rename_i e
        rw [Memory.read_cons, Memory.read_cons]
        simp [Ne.symm h, ← e]
      · rw [Memory.read_cons, Memory.read_cons, ih]

theorem Memory.read_write (m : Memory) (a x : Nat) (b : Byte) :
    (Memory.write m a b).read x = if x = a then some b else m.read x := by
  split
  · next h => rw [h, read_write_same]
  · next h => exact read_write_other m b h

/-- The addresses a write lists: those listed before, and the one written. -/
theorem Memory.mem_write {m : Memory} {a : Nat} {b : Byte} {c : Host.Cell} (h : c ∈ Memory.write m a b) :
    c.1 = a ∨ c ∈ m := by
  induction m with
  | nil => simp [Memory.write] at h; simp [h]
  | cons d m ih =>
    unfold Memory.write at h
    split at h
    · rcases List.mem_cons.1 h with rfl | h
      · exact .inl rfl
      · exact .inr h
    · split at h
      · rcases List.mem_cons.1 h with rfl | h
        · exact .inl rfl
        · exact .inr (List.mem_cons_of_mem _ h)
      · rcases List.mem_cons.1 h with rfl | h
        · exact .inr (List.mem_cons_self ..)
        · exact (ih h).imp id (List.mem_cons_of_mem _)

/-- A write keeps the canonical form. -/
theorem Memory.write_wf {m : Memory} (a : Nat) (b : Byte) (h : Memory.wf m) : (Memory.write m a b).wf := by
  induction m with
  | nil => simp [Memory.wf, Memory.write]
  | cons c m ih =>
    obtain ⟨hc, hm⟩ := List.pairwise_cons.1 h
    unfold Memory.write
    split
    · next ha =>
      refine List.pairwise_cons.2 ⟨fun d hd => ?_, h⟩
      rcases List.mem_cons.1 hd with rfl | hd
      · exact ha
      · exact Nat.lt_trans ha (hc d hd)
    · split
      · next _ ha => exact List.pairwise_cons.2 ⟨fun d hd => ha ▸ hc d hd, hm⟩
      · next h1 h2 =>
        refine List.pairwise_cons.2 ⟨fun d hd => ?_, ih hm⟩
        rcases Memory.mem_write hd with rfl | hd
        · omega
        · exact hc d hd

/-- A listed address reads as a value, and only a listed one does. -/
theorem Memory.read_isSome_iff (m : Memory) (a : Nat) : (m.read a).isSome ↔ ∃ c ∈ m, c.1 = a := by
  induction m with
  | nil => simp
  | cons c m ih =>
    rw [Memory.read_cons]
    split
    · next h => simp [h]
    · next h => rw [ih]; simp [h]

/-! ## Several bytes as one value -/

theorem Memory.read_writeLE (m : Memory) (a n : Nat) (v : Word) (x : Nat) :
    (m.writeLE a n v).read x = if a ≤ x ∧ x < a + n then some ((v >>> (8 * (x - a))).setWidth 8) else m.read x := by
  induction n generalizing m a v with
  | zero => rw [Memory.writeLE, if_neg (by omega)]
  | succ n ih =>
    rw [Memory.writeLE, ih, Memory.read_write]
    by_cases hx : x = a
    · subst hx
      simp
    · by_cases h : a + 1 ≤ x ∧ x < a + 1 + n
      · rw [if_pos h, if_pos (by omega), ← BitVec.shiftRight_add]
        congr 3
        omega
      · rw [if_neg h, if_neg hx, if_neg (by omega)]

/-- A write leaves every other address alone. -/
theorem Memory.read_writeLE_outside (m : Memory) {a n x : Nat} (v : Word) (h : x < a ∨ a + n ≤ x) :
    (m.writeLE a n v).read x = m.read x := by
  rw [Memory.read_writeLE, if_neg (by omega)]

theorem Memory.writeLE_wf {m : Memory} (a n : Nat) (v : Word) (h : Memory.wf m) : (m.writeLE a n v).wf := by
  induction n generalizing m a v with
  | zero => exact h
  | succ n ih => exact ih (a + 1) (v >>> 8) (Memory.write_wf a _ h)

theorem Memory.mem_writeLE {m : Memory} {a n : Nat} {v : Word} {c : Host.Cell} (h : c ∈ m.writeLE a n v) :
    (a ≤ c.1 ∧ c.1 < a + n) ∨ c ∈ m := by
  induction n generalizing m a v with
  | zero => exact .inr h
  | succ n ih =>
    rcases ih h with h | h
    · exact .inl (by omega)
    · rcases Memory.mem_write h with h | h
      · exact .inl (by omega)
      · exact .inr h

theorem Memory.readLE_congr {m m' : Memory} {a n : Nat} (h : ∀ x, a ≤ x → x < a + n → m'.read x = m.read x) :
    m'.readLE a n = m.readLE a n := by
  induction n generalizing a with
  | zero => rfl
  | succ n ih =>
    rw [Memory.readLE, Memory.readLE, h a (Nat.le_refl a) (by omega), ih fun x h1 h2 => h x (by omega) (by omega)]

theorem Memory.readLE_isSome_iff (m : Memory) (a n : Nat) :
    (m.readLE a n).isSome ↔ ∀ x, a ≤ x → x < a + n → (m.read x).isSome := by
  induction n generalizing a with
  | zero => simp [Memory.readLE]; omega
  | succ n ih =>
    rw [Memory.readLE]
    constructor
    · intro h x h1 h2
      split at h
      · next lo hi hlo hhi =>
        by_cases hx : x = a
        · rw [hx, hlo]; rfl
        · exact (ih (a + 1)).1 (by rw [hhi]; rfl) x (by omega) (by omega)
      · exact absurd h (by simp)
    · intro h
      obtain ⟨lo, hlo⟩ := Option.isSome_iff_exists.1 (h a (Nat.le_refl a) (by omega))
      obtain ⟨hi, hhi⟩ := Option.isSome_iff_exists.1 ((ih (a + 1)).2 fun x h1 h2 => h x (by omega) (by omega))
      rw [hlo, hhi]; rfl

/-- Bytes that are those of v, lowest first, read as the low bits of v. -/
theorem Memory.readLE_of_bytes {m : Memory} {a n : Nat} {v : Word}
    (h : ∀ i, i < n → m.read (a + i) = some ((v >>> (8 * i)).setWidth 8)) :
    m.readLE a n = some ((v.setWidth (8 * n)).setWidth 32) := by
  induction n generalizing a v with
  | zero =>
    rw [Memory.readLE]
    congr 1
    ext i hi
    simp
  | succ n ih =>
    have h0 : m.read a = some (v.setWidth 8) := by simpa using h 0 (by omega)
    have h1 : m.readLE (a + 1) n = some (((v >>> 8).setWidth (8 * n)).setWidth 32) := by
      refine ih fun i hi => ?_
      have := h (i + 1) (by omega)
      rw [← BitVec.shiftRight_add, show a + 1 + i = a + (i + 1) by omega, this]
      congr 3
      omega
    rw [Memory.readLE, h0, h1]
    simp only [Option.some.injEq]
    ext i hi
    simp only [BitVec.getElem_or, BitVec.getElem_shiftLeft, BitVec.getElem_setWidth, BitVec.getLsbD_setWidth,
      BitVec.getLsbD_ushiftRight]
    by_cases h8 : i < 8
    · simp [h8]; intro _; omega
    · simp only [h8, show 8 + (i - 8) = i by omega]
      simp
      grind

/-- A value written is the value read back: its low 8n bits. -/
theorem Memory.readLE_writeLE_same (m : Memory) (a n : Nat) (v : Word) :
    (m.writeLE a n v).readLE a n = some ((v.setWidth (8 * n)).setWidth 32) := by
  refine Memory.readLE_of_bytes fun i hi => ?_
  rw [Memory.read_writeLE, if_pos (by omega), Nat.add_sub_cancel_left]

theorem Memory.readLE_writeLE_disjoint (m : Memory) {a n x k : Nat} (v : Word) (h : x + k ≤ a ∨ a + n ≤ x) :
    (m.writeLE a n v).readLE x k = m.readLE x k :=
  Memory.readLE_congr fun y h1 h2 => Memory.read_writeLE_outside m v (by omega)

/-- What has been written stays written (10_state.md R42). -/
theorem Memory.isSome_writeLE {m : Memory} (a n : Nat) (v : Word) {x : Nat} (h : (m.read x).isSome) :
    ((m.writeLE a n v).read x).isSome := by
  rw [Memory.read_writeLE]
  split
  · rfl
  · exact h

end Sys2Proof.Machine
end

