-- ==== Sys2Proof/Laws/Spaces.lean ====
section
/-! SUPPORT. Elements of the spaces of 20_memory.md R49 lie apart from one another in the host's address space. -/

namespace Sys2Proof.Machine

theorem Space.id_injective {S T : Space} (h : S.id = T.id) : S = T := by
  cases S <;> cases T <;> first | rfl | exact absurd h (by decide)

theorem Space.id_ne_vecId (S : Space) (cls : ScaleClass) : S.id ≠ cls.vecId := by
  cases S <;> cases cls <;> decide

theorem ScaleClass.vecId_injective {c d : ScaleClass} (h : c.vecId = d.vecId) : c = d := by
  cases c <;> cases d <;> first | rfl | exact absurd h (by decide)

theorem Space.bytes_pos (S : Space) : 0 < S.bytes := by cases S <;> decide

theorem Space.bytes_le (S : Space) : S.bytes ≤ 4 := by cases S <;> decide

theorem romBytes_le (p : Params) : p.romBytes ≤ 524288 := by
  unfold Params.romBytes; split <;> decide

/-- A space fits in the 24 bits of a byte offset (R49). -/
theorem Space.size_mul_bytes_le {p : Params} (hp : p.wf) (S : Space) : S.size p * S.bytes ≤ 2 ^ 24 := by
  have hL := romBytes_le p
  obtain ⟨h1, ⟨_, h2⟩, h3, h4, _, _⟩ := hp
  cases S <;> simp only [Space.size, Space.bytes] <;> omega

/-- An element's bytes lie in its space's 2^24 bytes. -/
theorem Space.addr_add_bytes_le {p : Params} (hp : p.wf) {S : Space} {k : Nat} (hk : k < S.size p) :
    S.addr k + S.bytes ≤ spaceBase S.id + 2 ^ 24 := by
  have h := Space.size_mul_bytes_le hp S
  have : (k + 1) * S.bytes ≤ S.size p * S.bytes := Nat.mul_le_mul_right _ hk
  rw [Nat.add_mul] at this
  unfold Space.addr
  omega

theorem ScaleClass.slotAddr_add_le {p : Params} (hp : p.wf) {cls : ScaleClass} {n : Nat} (hn : n < p.vecCap) :
    cls.slotAddr n + 16 ≤ spaceBase cls.vecId + 2 ^ 24 := by
  obtain ⟨_, _, _, _, ⟨_, h⟩, _⟩ := hp
  unfold ScaleClass.slotAddr
  omega

theorem spaceBase_apart {i j : BitVec 8} (h : i ≠ j) :
    spaceBase i + 2 ^ 24 ≤ spaceBase j ∨ spaceBase j + 2 ^ 24 ≤ spaceBase i := by
  have : i.toNat ≠ j.toNat := fun e => h (BitVec.eq_of_toNat_eq e)
  unfold spaceBase
  omega

/-- Two different elements share no byte. -/
theorem Space.addr_apart {p : Params} (hp : p.wf) {S T : Space} {k j : Nat} (hk : k < S.size p) (hj : j < T.size p)
    (h : S ≠ T ∨ k ≠ j) : S.addr k + S.bytes ≤ T.addr j ∨ T.addr j + T.bytes ≤ S.addr k := by
  by_cases hST : S = T
  · subst hST
    have hkj : k ≠ j := h.resolve_left (fun h => h rfl)
    unfold Space.addr
    rcases Nat.lt_or_gt_of_ne hkj with h | h
    · have : (k + 1) * S.bytes ≤ j * S.bytes := Nat.mul_le_mul_right _ h
      rw [Nat.add_mul] at this
      omega
    · have : (j + 1) * S.bytes ≤ k * S.bytes := Nat.mul_le_mul_right _ h
      rw [Nat.add_mul] at this
      omega
  · have h1 := Space.addr_add_bytes_le hp hk
    have h2 := Space.addr_add_bytes_le hp hj
    have h3 : spaceBase S.id ≤ S.addr k := Nat.le_add_right ..
    have h4 : spaceBase T.id ≤ T.addr j := Nat.le_add_right ..
    rcases spaceBase_apart (fun e => hST (Space.id_injective e)) with h | h <;> omega

/-- An element and a vector-file slot share no byte. -/
theorem Space.addr_apart_slot {p : Params} (hp : p.wf) {S : Space} {cls : ScaleClass} {k n : Nat} (hk : k < S.size p)
    (hn : n < p.vecCap) : S.addr k + S.bytes ≤ cls.slotAddr n ∨ cls.slotAddr n + 16 ≤ S.addr k := by
  have h1 := Space.addr_add_bytes_le hp hk
  have h2 := ScaleClass.slotAddr_add_le hp (cls := cls) hn
  have h3 : spaceBase S.id ≤ S.addr k := Nat.le_add_right ..
  have h4 : spaceBase cls.vecId ≤ cls.slotAddr n := Nat.le_add_right ..
  rcases spaceBase_apart (Space.id_ne_vecId S cls) with h | h <;> omega

/-- Two different slots share no byte. -/
theorem ScaleClass.slotAddr_apart {p : Params} (hp : p.wf) {c d : ScaleClass} {n m : Nat} (hn : n < p.vecCap)
    (hm : m < p.vecCap) (h : c ≠ d ∨ n ≠ m) :
    c.slotAddr n + 16 ≤ d.slotAddr m ∨ d.slotAddr m + 16 ≤ c.slotAddr n := by
  by_cases hcd : c = d
  · subst hcd
    have hnm : n ≠ m := h.resolve_left (fun h => h rfl)
    unfold ScaleClass.slotAddr
    omega
  · have h1 := ScaleClass.slotAddr_add_le hp (cls := c) hn
    have h2 := ScaleClass.slotAddr_add_le hp (cls := d) hm
    have h3 : spaceBase c.vecId ≤ c.slotAddr n := Nat.le_add_right ..
    have h4 : spaceBase d.vecId ≤ d.slotAddr m := Nat.le_add_right ..
    rcases spaceBase_apart (fun e => hcd (ScaleClass.vecId_injective e)) with h | h <;> omega

end Sys2Proof.Machine
end

