-- ==== Sys2Proof/Laws/State.lean ====
section
/-! SUPPORT. One lemma for each field of State under each named update, so that no proof unfolds a record update. -/

namespace Sys2Proof.Machine

/-! ## takeFault -/

@[simp] theorem State.takeFault_params (s : State) (f : Raised) : (s.takeFault f).params = s.params := rfl
@[simp] theorem State.takeFault_cfg (s : State) (f : Raised) : (s.takeFault f).cfg = s.cfg := rfl
@[simp] theorem State.takeFault_args (s : State) (f : Raised) : (s.takeFault f).args = s.args := rfl
@[simp] theorem State.takeFault_cmd (s : State) (f : Raised) : (s.takeFault f).cmd = s.cmd := rfl
@[simp] theorem State.takeFault_result0 (s : State) (f : Raised) : (s.takeFault f).result0 = s.result0 := rfl
@[simp] theorem State.takeFault_status (s : State) (f : Raised) : (s.takeFault f).status = s.status.faulted f.cause (s.cmd.setWidth 8) := rfl
@[simp] theorem State.takeFault_faultInfo (s : State) (f : Raised) : (s.takeFault f).faultInfo = { space := f.space, index := f.index } := rfl
@[simp] theorem State.takeFault_mem (s : State) (f : Raised) : (s.takeFault f).mem = s.mem := rfl
@[simp] theorem State.takeFault_frags (s : State) (f : Raised) : (s.takeFault f).frags = s.frags := rfl
@[simp] theorem State.takeFault_script (s : State) (f : Raised) : (s.takeFault f).script = s.script := rfl
@[simp] theorem State.takeFault_replies (s : State) (f : Raised) : (s.takeFault f).replies = s.replies := rfl
@[simp] theorem State.takeFault_draws (s : State) (f : Raised) : (s.takeFault f).draws = s.draws := rfl

/-! ## commit -/

@[simp] theorem State.commit_params (s : State) : (s.commit).params = s.params := rfl
@[simp] theorem State.commit_cfg (s : State) : (s.commit).cfg = s.cfg := rfl
@[simp] theorem State.commit_args (s : State) : (s.commit).args = s.args := rfl
@[simp] theorem State.commit_cmd (s : State) : (s.commit).cmd = s.cmd := rfl
@[simp] theorem State.commit_result0 (s : State) : (s.commit).result0 = s.result0 := rfl
@[simp] theorem State.commit_status (s : State) : (s.commit).status = s.status.committed := rfl
@[simp] theorem State.commit_faultInfo (s : State) : (s.commit).faultInfo = s.faultInfo := rfl
@[simp] theorem State.commit_mem (s : State) : (s.commit).mem = s.mem := rfl
@[simp] theorem State.commit_frags (s : State) : (s.commit).frags = s.frags := rfl
@[simp] theorem State.commit_script (s : State) : (s.commit).script = s.script := rfl
@[simp] theorem State.commit_replies (s : State) : (s.commit).replies = s.replies := rfl
@[simp] theorem State.commit_draws (s : State) : (s.commit).draws = s.draws := rfl

/-! ## softReset -/

@[simp] theorem State.softReset_params (s : State) : (s.softReset).params = s.params := rfl
@[simp] theorem State.softReset_cfg (s : State) : (s.softReset).cfg = CfgRegs.reset s.params := rfl
@[simp] theorem State.softReset_args (s : State) : (s.softReset).args = ArgRegs.reset := rfl
@[simp] theorem State.softReset_cmd (s : State) : (s.softReset).cmd = 0 := rfl
@[simp] theorem State.softReset_result0 (s : State) : (s.softReset).result0 = 0 := rfl
@[simp] theorem State.softReset_status (s : State) : (s.softReset).status = Status.reset := rfl
@[simp] theorem State.softReset_faultInfo (s : State) : (s.softReset).faultInfo = { space := 0, index := 0 } := rfl
@[simp] theorem State.softReset_mem (s : State) : (s.softReset).mem = [] := rfl
@[simp] theorem State.softReset_frags (s : State) : (s.softReset).frags = [] := rfl
@[simp] theorem State.softReset_script (s : State) : (s.softReset).script = s.script := rfl
@[simp] theorem State.softReset_replies (s : State) : (s.softReset).replies = s.replies := rfl
@[simp] theorem State.softReset_draws (s : State) : (s.softReset).draws = s.draws := rfl

/-! ## write -/

@[simp] theorem State.write_params (s : State) (S : Space) (k : Nat) (v : Word) : (s.write S k v).params = s.params := rfl
@[simp] theorem State.write_cfg (s : State) (S : Space) (k : Nat) (v : Word) : (s.write S k v).cfg = s.cfg := rfl
@[simp] theorem State.write_args (s : State) (S : Space) (k : Nat) (v : Word) : (s.write S k v).args = s.args := rfl
@[simp] theorem State.write_cmd (s : State) (S : Space) (k : Nat) (v : Word) : (s.write S k v).cmd = s.cmd := rfl
@[simp] theorem State.write_result0 (s : State) (S : Space) (k : Nat) (v : Word) : (s.write S k v).result0 = s.result0 := rfl
@[simp] theorem State.write_status (s : State) (S : Space) (k : Nat) (v : Word) : (s.write S k v).status = s.status := rfl
@[simp] theorem State.write_faultInfo (s : State) (S : Space) (k : Nat) (v : Word) : (s.write S k v).faultInfo = s.faultInfo := rfl
@[simp] theorem State.write_mem (s : State) (S : Space) (k : Nat) (v : Word) : (s.write S k v).mem = s.mem.writeLE (S.addr k) S.bytes v := rfl
@[simp] theorem State.write_frags (s : State) (S : Space) (k : Nat) (v : Word) : (s.write S k v).frags = s.frags := rfl
@[simp] theorem State.write_script (s : State) (S : Space) (k : Nat) (v : Word) : (s.write S k v).script = s.script := rfl
@[simp] theorem State.write_replies (s : State) (S : Space) (k : Nat) (v : Word) : (s.write S k v).replies = s.replies := rfl
@[simp] theorem State.write_draws (s : State) (S : Space) (k : Nat) (v : Word) : (s.write S k v).draws = s.draws := rfl

/-! ## writeSlot -/

@[simp] theorem State.writeSlot_params (s : State) (cls : ScaleClass) (n : Nat) (e : VectorEntry) : (s.writeSlot cls n e).params = s.params := rfl
@[simp] theorem State.writeSlot_cfg (s : State) (cls : ScaleClass) (n : Nat) (e : VectorEntry) : (s.writeSlot cls n e).cfg = s.cfg := rfl
@[simp] theorem State.writeSlot_args (s : State) (cls : ScaleClass) (n : Nat) (e : VectorEntry) : (s.writeSlot cls n e).args = s.args := rfl
@[simp] theorem State.writeSlot_cmd (s : State) (cls : ScaleClass) (n : Nat) (e : VectorEntry) : (s.writeSlot cls n e).cmd = s.cmd := rfl
@[simp] theorem State.writeSlot_result0 (s : State) (cls : ScaleClass) (n : Nat) (e : VectorEntry) : (s.writeSlot cls n e).result0 = s.result0 := rfl
@[simp] theorem State.writeSlot_status (s : State) (cls : ScaleClass) (n : Nat) (e : VectorEntry) : (s.writeSlot cls n e).status = s.status := rfl
@[simp] theorem State.writeSlot_faultInfo (s : State) (cls : ScaleClass) (n : Nat) (e : VectorEntry) : (s.writeSlot cls n e).faultInfo = s.faultInfo := rfl
@[simp] theorem State.writeSlot_mem (s : State) (cls : ScaleClass) (n : Nat) (e : VectorEntry) : (s.writeSlot cls n e).mem = s.mem.writeSlot (cls.slotAddr n) e := rfl
@[simp] theorem State.writeSlot_frags (s : State) (cls : ScaleClass) (n : Nat) (e : VectorEntry) : (s.writeSlot cls n e).frags = s.frags := rfl
@[simp] theorem State.writeSlot_script (s : State) (cls : ScaleClass) (n : Nat) (e : VectorEntry) : (s.writeSlot cls n e).script = s.script := rfl
@[simp] theorem State.writeSlot_replies (s : State) (cls : ScaleClass) (n : Nat) (e : VectorEntry) : (s.writeSlot cls n e).replies = s.replies := rfl
@[simp] theorem State.writeSlot_draws (s : State) (cls : ScaleClass) (n : Nat) (e : VectorEntry) : (s.writeSlot cls n e).draws = s.draws := rfl

/-! ## setCmd -/

@[simp] theorem State.setCmd_params (s : State) (w : Word) : (s.setCmd w).params = s.params := rfl
@[simp] theorem State.setCmd_cfg (s : State) (w : Word) : (s.setCmd w).cfg = s.cfg := rfl
@[simp] theorem State.setCmd_args (s : State) (w : Word) : (s.setCmd w).args = s.args := rfl
@[simp] theorem State.setCmd_cmd (s : State) (w : Word) : (s.setCmd w).cmd = w := rfl
@[simp] theorem State.setCmd_result0 (s : State) (w : Word) : (s.setCmd w).result0 = s.result0 := rfl
@[simp] theorem State.setCmd_status (s : State) (w : Word) : (s.setCmd w).status = s.status := rfl
@[simp] theorem State.setCmd_faultInfo (s : State) (w : Word) : (s.setCmd w).faultInfo = s.faultInfo := rfl
@[simp] theorem State.setCmd_mem (s : State) (w : Word) : (s.setCmd w).mem = s.mem := rfl
@[simp] theorem State.setCmd_frags (s : State) (w : Word) : (s.setCmd w).frags = s.frags := rfl
@[simp] theorem State.setCmd_script (s : State) (w : Word) : (s.setCmd w).script = s.script := rfl
@[simp] theorem State.setCmd_replies (s : State) (w : Word) : (s.setCmd w).replies = s.replies := rfl
@[simp] theorem State.setCmd_draws (s : State) (w : Word) : (s.setCmd w).draws = s.draws := rfl

/-! ## startCommand -/

@[simp] theorem State.startCommand_params (s : State) : (s.startCommand).params = s.params := rfl
@[simp] theorem State.startCommand_cfg (s : State) : (s.startCommand).cfg = s.cfg := rfl
@[simp] theorem State.startCommand_args (s : State) : (s.startCommand).args = s.args := rfl
@[simp] theorem State.startCommand_cmd (s : State) : (s.startCommand).cmd = s.cmd := rfl
@[simp] theorem State.startCommand_result0 (s : State) : (s.startCommand).result0 = s.result0 := rfl
@[simp] theorem State.startCommand_status (s : State) : (s.startCommand).status = s.status.started := rfl
@[simp] theorem State.startCommand_faultInfo (s : State) : (s.startCommand).faultInfo = s.faultInfo := rfl
@[simp] theorem State.startCommand_mem (s : State) : (s.startCommand).mem = s.mem := rfl
@[simp] theorem State.startCommand_frags (s : State) : (s.startCommand).frags = s.frags := rfl
@[simp] theorem State.startCommand_script (s : State) : (s.startCommand).script = s.script := rfl
@[simp] theorem State.startCommand_replies (s : State) : (s.startCommand).replies = s.replies := rfl
@[simp] theorem State.startCommand_draws (s : State) : (s.startCommand).draws = s.draws := rfl

/-! ## setCfg -/

@[simp] theorem State.setCfg_params (s : State) (c : CfgRegs) : (s.setCfg c).params = s.params := rfl
@[simp] theorem State.setCfg_cfg (s : State) (c : CfgRegs) : (s.setCfg c).cfg = c := rfl
@[simp] theorem State.setCfg_args (s : State) (c : CfgRegs) : (s.setCfg c).args = s.args := rfl
@[simp] theorem State.setCfg_cmd (s : State) (c : CfgRegs) : (s.setCfg c).cmd = s.cmd := rfl
@[simp] theorem State.setCfg_result0 (s : State) (c : CfgRegs) : (s.setCfg c).result0 = s.result0 := rfl
@[simp] theorem State.setCfg_status (s : State) (c : CfgRegs) : (s.setCfg c).status = s.status := rfl
@[simp] theorem State.setCfg_faultInfo (s : State) (c : CfgRegs) : (s.setCfg c).faultInfo = s.faultInfo := rfl
@[simp] theorem State.setCfg_mem (s : State) (c : CfgRegs) : (s.setCfg c).mem = s.mem := rfl
@[simp] theorem State.setCfg_frags (s : State) (c : CfgRegs) : (s.setCfg c).frags = s.frags := rfl
@[simp] theorem State.setCfg_script (s : State) (c : CfgRegs) : (s.setCfg c).script = s.script := rfl
@[simp] theorem State.setCfg_replies (s : State) (c : CfgRegs) : (s.setCfg c).replies = s.replies := rfl
@[simp] theorem State.setCfg_draws (s : State) (c : CfgRegs) : (s.setCfg c).draws = s.draws := rfl

/-! ## setArgs -/

@[simp] theorem State.setArgs_params (s : State) (a : ArgRegs) : (s.setArgs a).params = s.params := rfl
@[simp] theorem State.setArgs_cfg (s : State) (a : ArgRegs) : (s.setArgs a).cfg = s.cfg := rfl
@[simp] theorem State.setArgs_args (s : State) (a : ArgRegs) : (s.setArgs a).args = a := rfl
@[simp] theorem State.setArgs_cmd (s : State) (a : ArgRegs) : (s.setArgs a).cmd = s.cmd := rfl
@[simp] theorem State.setArgs_result0 (s : State) (a : ArgRegs) : (s.setArgs a).result0 = s.result0 := rfl
@[simp] theorem State.setArgs_status (s : State) (a : ArgRegs) : (s.setArgs a).status = s.status := rfl
@[simp] theorem State.setArgs_faultInfo (s : State) (a : ArgRegs) : (s.setArgs a).faultInfo = s.faultInfo := rfl
@[simp] theorem State.setArgs_mem (s : State) (a : ArgRegs) : (s.setArgs a).mem = s.mem := rfl
@[simp] theorem State.setArgs_frags (s : State) (a : ArgRegs) : (s.setArgs a).frags = s.frags := rfl
@[simp] theorem State.setArgs_script (s : State) (a : ArgRegs) : (s.setArgs a).script = s.script := rfl
@[simp] theorem State.setArgs_replies (s : State) (a : ArgRegs) : (s.setArgs a).replies = s.replies := rfl
@[simp] theorem State.setArgs_draws (s : State) (a : ArgRegs) : (s.setArgs a).draws = s.draws := rfl

/-! ## reply -/

@[simp] theorem State.reply_params (s : State) (v : Word) : (s.reply v).params = s.params := rfl
@[simp] theorem State.reply_cfg (s : State) (v : Word) : (s.reply v).cfg = s.cfg := rfl
@[simp] theorem State.reply_args (s : State) (v : Word) : (s.reply v).args = s.args := rfl
@[simp] theorem State.reply_cmd (s : State) (v : Word) : (s.reply v).cmd = s.cmd := rfl
@[simp] theorem State.reply_result0 (s : State) (v : Word) : (s.reply v).result0 = s.result0 := rfl
@[simp] theorem State.reply_status (s : State) (v : Word) : (s.reply v).status = s.status := rfl
@[simp] theorem State.reply_faultInfo (s : State) (v : Word) : (s.reply v).faultInfo = s.faultInfo := rfl
@[simp] theorem State.reply_mem (s : State) (v : Word) : (s.reply v).mem = s.mem := rfl
@[simp] theorem State.reply_frags (s : State) (v : Word) : (s.reply v).frags = s.frags := rfl
@[simp] theorem State.reply_script (s : State) (v : Word) : (s.reply v).script = s.script := rfl
@[simp] theorem State.reply_replies (s : State) (v : Word) : (s.reply v).replies = v :: s.replies := rfl
@[simp] theorem State.reply_draws (s : State) (v : Word) : (s.reply v).draws = s.draws := rfl

/-! ## replyFree -/

@[simp] theorem State.replyFree_params (s : State) (n : Nat) : (s.replyFree n).params = s.params := rfl
@[simp] theorem State.replyFree_cfg (s : State) (n : Nat) : (s.replyFree n).cfg = s.cfg := rfl
@[simp] theorem State.replyFree_args (s : State) (n : Nat) : (s.replyFree n).args = s.args := rfl
@[simp] theorem State.replyFree_cmd (s : State) (n : Nat) : (s.replyFree n).cmd = s.cmd := rfl
@[simp] theorem State.replyFree_result0 (s : State) (n : Nat) : (s.replyFree n).result0 = s.result0 := rfl
@[simp] theorem State.replyFree_status (s : State) (n : Nat) : (s.replyFree n).status = s.status := rfl
@[simp] theorem State.replyFree_faultInfo (s : State) (n : Nat) : (s.replyFree n).faultInfo = s.faultInfo := rfl
@[simp] theorem State.replyFree_mem (s : State) (n : Nat) : (s.replyFree n).mem = s.mem := rfl
@[simp] theorem State.replyFree_frags (s : State) (n : Nat) : (s.replyFree n).frags = s.frags := rfl
@[simp] theorem State.replyFree_script (s : State) (n : Nat) : (s.replyFree n).script = s.script := rfl
@[simp] theorem State.replyFree_draws (s : State) (n : Nat) : (s.replyFree n).draws = s.draws + 1 := rfl

/-! ## refuseAccess -/

@[simp] theorem State.refuseAccess_params (s : State) : (s.refuseAccess).params = s.params := rfl
@[simp] theorem State.refuseAccess_cfg (s : State) : (s.refuseAccess).cfg = s.cfg := rfl
@[simp] theorem State.refuseAccess_args (s : State) : (s.refuseAccess).args = s.args := rfl
@[simp] theorem State.refuseAccess_cmd (s : State) : (s.refuseAccess).cmd = s.cmd := rfl
@[simp] theorem State.refuseAccess_result0 (s : State) : (s.refuseAccess).result0 = s.result0 := rfl
@[simp] theorem State.refuseAccess_status (s : State) : (s.refuseAccess).status = s.status.portRefused := rfl
@[simp] theorem State.refuseAccess_faultInfo (s : State) : (s.refuseAccess).faultInfo = s.faultInfo := rfl
@[simp] theorem State.refuseAccess_mem (s : State) : (s.refuseAccess).mem = s.mem := rfl
@[simp] theorem State.refuseAccess_frags (s : State) : (s.refuseAccess).frags = s.frags := rfl
@[simp] theorem State.refuseAccess_script (s : State) : (s.refuseAccess).script = s.script := rfl
@[simp] theorem State.refuseAccess_replies (s : State) : (s.refuseAccess).replies = s.replies := rfl
@[simp] theorem State.refuseAccess_draws (s : State) : (s.refuseAccess).draws = s.draws := rfl

/-! ## withAccess -/

@[simp] theorem State.withAccess_params (s : State) (h : HostAccess) : (s.withAccess h).params = s.params := rfl
@[simp] theorem State.withAccess_cfg (s : State) (h : HostAccess) : (s.withAccess h).cfg = s.cfg := rfl
@[simp] theorem State.withAccess_args (s : State) (h : HostAccess) : (s.withAccess h).args = s.args := rfl
@[simp] theorem State.withAccess_cmd (s : State) (h : HostAccess) : (s.withAccess h).cmd = s.cmd := rfl
@[simp] theorem State.withAccess_result0 (s : State) (h : HostAccess) : (s.withAccess h).result0 = s.result0 := rfl
@[simp] theorem State.withAccess_status (s : State) (h : HostAccess) : (s.withAccess h).status = s.status := rfl
@[simp] theorem State.withAccess_faultInfo (s : State) (h : HostAccess) : (s.withAccess h).faultInfo = s.faultInfo := rfl
@[simp] theorem State.withAccess_mem (s : State) (h : HostAccess) : (s.withAccess h).mem = s.mem := rfl
@[simp] theorem State.withAccess_frags (s : State) (h : HostAccess) : (s.withAccess h).frags = s.frags := rfl
@[simp] theorem State.withAccess_script (s : State) (h : HostAccess) : (s.withAccess h).script = h :: s.script := rfl
@[simp] theorem State.withAccess_replies (s : State) (h : HostAccess) : (s.withAccess h).replies = s.replies := rfl
@[simp] theorem State.withAccess_draws (s : State) (h : HostAccess) : (s.withAccess h).draws = s.draws := rfl

/-! ## Runs of elements -/

theorem State.writeRun_eq (s : State) (S : Space) (k : Nat) (xs : List Sample) :
    s.writeRun S k xs = { s with mem := (s.writeRun S k xs).mem } := by
  induction xs generalizing s k with
  | nil => rfl
  | cons x xs ih => exact ih (s.write S k (x.setWidth 32)) (k + 1)

@[simp] theorem State.writeRun_params (s : State) (S : Space) (k : Nat) (xs : List Sample) : (s.writeRun S k xs).params = s.params := by rw [State.writeRun_eq]
@[simp] theorem State.writeRun_cfg (s : State) (S : Space) (k : Nat) (xs : List Sample) : (s.writeRun S k xs).cfg = s.cfg := by rw [State.writeRun_eq]
@[simp] theorem State.writeRun_args (s : State) (S : Space) (k : Nat) (xs : List Sample) : (s.writeRun S k xs).args = s.args := by rw [State.writeRun_eq]
@[simp] theorem State.writeRun_cmd (s : State) (S : Space) (k : Nat) (xs : List Sample) : (s.writeRun S k xs).cmd = s.cmd := by rw [State.writeRun_eq]
@[simp] theorem State.writeRun_result0 (s : State) (S : Space) (k : Nat) (xs : List Sample) : (s.writeRun S k xs).result0 = s.result0 := by rw [State.writeRun_eq]
@[simp] theorem State.writeRun_status (s : State) (S : Space) (k : Nat) (xs : List Sample) : (s.writeRun S k xs).status = s.status := by rw [State.writeRun_eq]
@[simp] theorem State.writeRun_faultInfo (s : State) (S : Space) (k : Nat) (xs : List Sample) : (s.writeRun S k xs).faultInfo = s.faultInfo := by rw [State.writeRun_eq]
@[simp] theorem State.writeRun_frags (s : State) (S : Space) (k : Nat) (xs : List Sample) : (s.writeRun S k xs).frags = s.frags := by rw [State.writeRun_eq]
@[simp] theorem State.writeRun_script (s : State) (S : Space) (k : Nat) (xs : List Sample) : (s.writeRun S k xs).script = s.script := by rw [State.writeRun_eq]
@[simp] theorem State.writeRun_replies (s : State) (S : Space) (k : Nat) (xs : List Sample) : (s.writeRun S k xs).replies = s.replies := by rw [State.writeRun_eq]
@[simp] theorem State.writeRun_draws (s : State) (S : Space) (k : Nat) (xs : List Sample) : (s.writeRun S k xs).draws = s.draws := by rw [State.writeRun_eq]

@[simp] theorem State.writeLine_params (s : State) (f : Format) (c : Component) (j : Nat) (xs : List Sample) : (s.writeLine f c j xs).params = s.params := State.writeRun_params ..
@[simp] theorem State.writeLine_cfg (s : State) (f : Format) (c : Component) (j : Nat) (xs : List Sample) : (s.writeLine f c j xs).cfg = s.cfg := State.writeRun_cfg ..
@[simp] theorem State.writeLine_args (s : State) (f : Format) (c : Component) (j : Nat) (xs : List Sample) : (s.writeLine f c j xs).args = s.args := State.writeRun_args ..
@[simp] theorem State.writeLine_cmd (s : State) (f : Format) (c : Component) (j : Nat) (xs : List Sample) : (s.writeLine f c j xs).cmd = s.cmd := State.writeRun_cmd ..
@[simp] theorem State.writeLine_result0 (s : State) (f : Format) (c : Component) (j : Nat) (xs : List Sample) : (s.writeLine f c j xs).result0 = s.result0 := State.writeRun_result0 ..
@[simp] theorem State.writeLine_status (s : State) (f : Format) (c : Component) (j : Nat) (xs : List Sample) : (s.writeLine f c j xs).status = s.status := State.writeRun_status ..
@[simp] theorem State.writeLine_faultInfo (s : State) (f : Format) (c : Component) (j : Nat) (xs : List Sample) : (s.writeLine f c j xs).faultInfo = s.faultInfo := State.writeRun_faultInfo ..
@[simp] theorem State.writeLine_frags (s : State) (f : Format) (c : Component) (j : Nat) (xs : List Sample) : (s.writeLine f c j xs).frags = s.frags := State.writeRun_frags ..
@[simp] theorem State.writeLine_script (s : State) (f : Format) (c : Component) (j : Nat) (xs : List Sample) : (s.writeLine f c j xs).script = s.script := State.writeRun_script ..
@[simp] theorem State.writeLine_replies (s : State) (f : Format) (c : Component) (j : Nat) (xs : List Sample) : (s.writeLine f c j xs).replies = s.replies := State.writeRun_replies ..
@[simp] theorem State.writeLine_draws (s : State) (f : Format) (c : Component) (j : Nat) (xs : List Sample) : (s.writeLine f c j xs).draws = s.draws := State.writeRun_draws ..

@[simp] theorem State.writeRecord_params (s : State) (a : Nat) (xs : List Byte) : (s.writeRecord a xs).params = s.params := State.writeRun_params ..
@[simp] theorem State.writeRecord_cfg (s : State) (a : Nat) (xs : List Byte) : (s.writeRecord a xs).cfg = s.cfg := State.writeRun_cfg ..
@[simp] theorem State.writeRecord_args (s : State) (a : Nat) (xs : List Byte) : (s.writeRecord a xs).args = s.args := State.writeRun_args ..
@[simp] theorem State.writeRecord_cmd (s : State) (a : Nat) (xs : List Byte) : (s.writeRecord a xs).cmd = s.cmd := State.writeRun_cmd ..
@[simp] theorem State.writeRecord_result0 (s : State) (a : Nat) (xs : List Byte) : (s.writeRecord a xs).result0 = s.result0 := State.writeRun_result0 ..
@[simp] theorem State.writeRecord_status (s : State) (a : Nat) (xs : List Byte) : (s.writeRecord a xs).status = s.status := State.writeRun_status ..
@[simp] theorem State.writeRecord_faultInfo (s : State) (a : Nat) (xs : List Byte) : (s.writeRecord a xs).faultInfo = s.faultInfo := State.writeRun_faultInfo ..
@[simp] theorem State.writeRecord_frags (s : State) (a : Nat) (xs : List Byte) : (s.writeRecord a xs).frags = s.frags := State.writeRun_frags ..
@[simp] theorem State.writeRecord_script (s : State) (a : Nat) (xs : List Byte) : (s.writeRecord a xs).script = s.script := State.writeRun_script ..
@[simp] theorem State.writeRecord_replies (s : State) (a : Nat) (xs : List Byte) : (s.writeRecord a xs).replies = s.replies := State.writeRun_replies ..
@[simp] theorem State.writeRecord_draws (s : State) (a : Nat) (xs : List Byte) : (s.writeRecord a xs).draws = s.draws := State.writeRun_draws ..

/-! ## STATUS under each of its updates -/

@[simp] theorem Status.started_busy (t : Status) : (t.started).busy = true := rfl
@[simp] theorem Status.started_done (t : Status) : (t.started).done = false := rfl
@[simp] theorem Status.started_err (t : Status) : (t.started).err = t.err := rfl
@[simp] theorem Status.started_hosterr (t : Status) : (t.started).hosterr = t.hosterr := rfl
@[simp] theorem Status.started_errcode (t : Status) : (t.started).errcode = t.errcode := rfl
@[simp] theorem Status.started_errop (t : Status) : (t.started).errop = t.errop := rfl

@[simp] theorem Status.committed_busy (t : Status) : (t.committed).busy = false := rfl
@[simp] theorem Status.committed_done (t : Status) : (t.committed).done = true := rfl
@[simp] theorem Status.committed_err (t : Status) : (t.committed).err = t.err := rfl
@[simp] theorem Status.committed_hosterr (t : Status) : (t.committed).hosterr = t.hosterr := rfl
@[simp] theorem Status.committed_errcode (t : Status) : (t.committed).errcode = t.errcode := rfl
@[simp] theorem Status.committed_errop (t : Status) : (t.committed).errop = t.errop := rfl

@[simp] theorem Status.faulted_busy (t : Status) (c : Cause) (op : BitVec 8) : (t.faulted c op).busy = false := rfl
@[simp] theorem Status.faulted_done (t : Status) (c : Cause) (op : BitVec 8) : (t.faulted c op).done = false := rfl
@[simp] theorem Status.faulted_err (t : Status) (c : Cause) (op : BitVec 8) : (t.faulted c op).err = true := rfl
@[simp] theorem Status.faulted_hosterr (t : Status) (c : Cause) (op : BitVec 8) : (t.faulted c op).hosterr = t.hosterr := rfl
@[simp] theorem Status.faulted_errcode (t : Status) (c : Cause) (op : BitVec 8) : (t.faulted c op).errcode = c.code := rfl
@[simp] theorem Status.faulted_errop (t : Status) (c : Cause) (op : BitVec 8) : (t.faulted c op).errop = op := rfl

@[simp] theorem Status.portRefused_busy (t : Status) : (t.portRefused).busy = t.busy := rfl
@[simp] theorem Status.portRefused_done (t : Status) : (t.portRefused).done = t.done := rfl
@[simp] theorem Status.portRefused_err (t : Status) : (t.portRefused).err = t.err := rfl
@[simp] theorem Status.portRefused_hosterr (t : Status) : (t.portRefused).hosterr = true := rfl
@[simp] theorem Status.portRefused_errcode (t : Status) : (t.portRefused).errcode = t.errcode := rfl
@[simp] theorem Status.portRefused_errop (t : Status) : (t.portRefused).errop = t.errop := rfl

end Sys2Proof.Machine
end

