-- ==== Sys2Proof/Laws/Elements.lean ====
section
/-! SUPPORT. Memory by element and by vector-file slot: a read after a write, and what a write leaves alone. -/

namespace Sys2Proof.Machine

/-! ## Elements -/

theorem State.read_write_same (s : State) (S : Space) (k : Nat) (v : Word) :
    (s.write S k v).read S k = some ((v.setWidth (8 * S.bytes)).setWidth 32) :=
  Memory.readLE_writeLE_same ..

/-- A byte-wide element holds the low byte written. -/
theorem State.read_write_byte (s : State) {S : Space} (hS : S.bytes = 1) (k : Nat) (b : Byte) :
    (s.write S k (b.setWidth 32)).read S k = some (b.setWidth 32) := by
  rw [State.read_write_same, hS]
  congr 1
  ext i hi
  simp

theorem State.read_write_other (s : State) {S T : Space} {k j : Nat} (v : Word) (hp : s.params.wf)
    (hk : k < S.size s.params) (hj : j < T.size s.params) (h : S ≠ T ∨ k ≠ j) : (s.write S k v).read T j = s.read T j :=
  Memory.readLE_writeLE_disjoint _ _ (by have := Space.addr_apart hp hk hj h; omega)

/-- A write to an element leaves every byte outside it alone. -/
theorem State.byte_write_outside (s : State) (S : Space) (k : Nat) (v : Word) {a : Nat}
    (h : a < S.addr k ∨ S.addr k + S.bytes ≤ a) : (s.write S k v).mem.read a = s.mem.read a :=
  Memory.read_writeLE_outside _ _ h

/-- An element that fits in n bits reads as what its low n bits say. -/
theorem State.read_lt (s : State) {S : Space} {k : Nat} {v : Word} (h : s.read S k = some v) :
    v = (v.setWidth (8 * S.bytes)).setWidth 32 := by
  have key : ∀ n a (w : Word), Memory.readLE s.mem a n = some w → w = (w.setWidth (8 * n)).setWidth 32 := by
    intro n
    induction n with
    | zero =>
      intro a w hw
      simp only [Memory.readLE, Option.some.injEq] at hw
      subst hw
      rfl
    | succ n ih =>
      intro a w hw
      rw [Memory.readLE] at hw
      split at hw
      · next lo hi hlo hhi =>
        simp only [Option.some.injEq] at hw
        have := ih _ _ hhi
        subst hw
        rw [this]
        ext i hi
        simp
        grind
      · exact absurd hw (by simp)
  exact key _ _ _ h

/-! ## Slots -/

theorem Memory.read_writeSlot_outside (m : Memory) {a x : Nat} (e : VectorEntry) (h : x < a ∨ a + 16 ≤ x) :
    (m.writeSlot a e).read x = m.read x := by
  unfold Memory.writeSlot
  rw [read_writeLE_outside _ _ (by omega), read_writeLE_outside _ _ (by omega), read_writeLE_outside _ _ (by omega),
    read_writeLE_outside _ _ (by omega)]

theorem Memory.writeSlot_wf {m : Memory} (a : Nat) (e : VectorEntry) (h : Memory.wf m) : (m.writeSlot a e).wf :=
  writeLE_wf _ _ _ (writeLE_wf _ _ _ (writeLE_wf _ _ _ (writeLE_wf _ _ _ h)))

theorem Memory.mem_writeSlot {m : Memory} {a : Nat} {e : VectorEntry} {c : Host.Cell} (h : c ∈ m.writeSlot a e) :
    (a ≤ c.1 ∧ c.1 < a + 16) ∨ c ∈ m := by
  rcases mem_writeLE h with h | h
  · exact .inl (by omega)
  rcases mem_writeLE h with h | h
  · exact .inl (by omega)
  rcases mem_writeLE h with h | h
  · exact .inl (by omega)
  exact (mem_writeLE h).imp (by omega) id

theorem Memory.isSome_writeSlot {m : Memory} (a : Nat) (e : VectorEntry) {x : Nat} (h : (m.read x).isSome) :
    ((m.writeSlot a e).read x).isSome :=
  isSome_writeLE _ _ _ (isSome_writeLE _ _ _ (isSome_writeLE _ _ _ (isSome_writeLE _ _ _ h)))

/-- Every byte of a slot is written by a write of the slot. -/
theorem Memory.isSome_writeSlot_inside (m : Memory) {a x : Nat} (e : VectorEntry) (h : a ≤ x ∧ x < a + 16) :
    ((m.writeSlot a e).read x).isSome := by
  unfold Memory.writeSlot
  simp only [read_writeLE]
  by_cases h3 : a + 12 ≤ x ∧ x < a + 12 + 4
  · rw [if_pos h3]; rfl
  by_cases h2 : a + 8 ≤ x ∧ x < a + 8 + 4
  · rw [if_neg h3, if_pos h2]; rfl
  by_cases h1 : a + 4 ≤ x ∧ x < a + 4 + 4
  · rw [if_neg h3, if_neg h2, if_pos h1]; rfl
  rw [if_neg h3, if_neg h2, if_neg h1, if_pos (by omega)]; rfl

theorem Memory.readLE_writeSlot_flags (m : Memory) (a : Nat) (e : VectorEntry) :
    (m.writeSlot a e).readLE (a + 12) 4 = some e.flags := by
  unfold Memory.writeSlot
  rw [readLE_writeLE_same]
  simp

/-- A slot written reads back as the entry. -/
theorem Memory.readSlot_writeSlot_same (m : Memory) (a : Nat) (e : VectorEntry) :
    (m.writeSlot a e).readSlot a = some e := by
  have h3 := readLE_writeSlot_flags m a e
  have h2 : (m.writeSlot a e).readLE (a + 8) 4 = some e.front := by
    unfold Memory.writeSlot
    rw [readLE_writeLE_disjoint _ _ (by omega), readLE_writeLE_same]
    simp
  have h1 : (m.writeSlot a e).readLE (a + 4) 4 = some e.centre := by
    unfold Memory.writeSlot
    rw [readLE_writeLE_disjoint _ _ (by omega), readLE_writeLE_disjoint _ _ (by omega), readLE_writeLE_same]
    simp
  have h0 : (m.writeSlot a e).readLE a 4 = some e.back := by
    unfold Memory.writeSlot
    rw [readLE_writeLE_disjoint _ _ (by omega), readLE_writeLE_disjoint _ _ (by omega),
      readLE_writeLE_disjoint _ _ (by omega), readLE_writeLE_same]
    simp
  unfold Memory.readSlot
  rw [h0, h1, h2, h3]
  obtain ⟨b, c, f, g⟩ := e
  cases g <;> simp [VectorEntry.flags]

theorem Memory.readSlot_congr {m m' : Memory} {a : Nat} (h : ∀ x, a ≤ x → x < a + 16 → m'.read x = m.read x) :
    m'.readSlot a = m.readSlot a := by
  unfold Memory.readSlot
  rw [readLE_congr fun x h1 h2 => h x (by omega) (by omega), readLE_congr fun x h1 h2 => h x (by omega) (by omega),
    readLE_congr fun x h1 h2 => h x (by omega) (by omega), readLE_congr fun x h1 h2 => h x (by omega) (by omega)]

theorem State.readSlot_writeSlot_same (s : State) (cls : ScaleClass) (n : Nat) (e : VectorEntry) :
    (s.writeSlot cls n e).readSlot cls n = some e := by
  unfold State.readSlot
  rw [State.writeSlot_mem, Memory.readSlot_writeSlot_same]

theorem State.readSlot_writeSlot_other (s : State) {c d : ScaleClass} {n m : Nat} (e : VectorEntry) (hp : s.params.wf)
    (hn : n < s.params.vecCap) (hm : m < s.params.vecCap) (h : c ≠ d ∨ n ≠ m) :
    (s.writeSlot c n e).readSlot d m = s.readSlot d m := by
  have hd := ScaleClass.slotAddr_apart hp hn hm h
  unfold State.readSlot
  rw [State.writeSlot_mem]
  generalize c.slotAddr n = x at hd ⊢
  generalize d.slotAddr m = y at hd ⊢
  exact Memory.readSlot_congr fun z h1 h2 => Memory.read_writeSlot_outside _ _ (by omega)

theorem State.readSlot_write (s : State) {S : Space} {k : Nat} (v : Word) {cls : ScaleClass} {n : Nat}
    (hp : s.params.wf) (hk : k < S.size s.params) (hn : n < s.params.vecCap) :
    (s.write S k v).readSlot cls n = s.readSlot cls n := by
  have hd := Space.addr_apart_slot hp (cls := cls) hk hn
  unfold State.readSlot
  rw [State.write_mem]
  generalize cls.slotAddr n = x at hd ⊢
  generalize S.addr k = y at hd ⊢
  exact Memory.readSlot_congr fun z h1 h2 => Memory.read_writeLE_outside _ _ (by omega)

theorem State.read_writeSlot (s : State) {S : Space} {k : Nat} {cls : ScaleClass} {n : Nat} (e : VectorEntry)
    (hp : s.params.wf) (hk : k < S.size s.params) (hn : n < s.params.vecCap) :
    (s.writeSlot cls n e).read S k = s.read S k := by
  have hd := Space.addr_apart_slot hp (cls := cls) hk hn
  unfold State.read
  rw [State.writeSlot_mem]
  generalize cls.slotAddr n = x at hd ⊢
  generalize S.addr k = y at hd ⊢
  exact Memory.readLE_congr fun z h1 h2 => Memory.read_writeSlot_outside _ _ (by omega)

/-! ## Runs of elements -/

theorem State.writeRun_nil (s : State) (S : Space) (k : Nat) : s.writeRun S k [] = s := rfl

theorem State.writeRun_cons (s : State) (S : Space) (k : Nat) (x : Sample) (xs : List Sample) :
    s.writeRun S k (x :: xs) = (s.write S k (x.setWidth 32)).writeRun S (k + 1) xs := rfl

/-- A run of writes leaves every byte outside it alone. -/
theorem State.byte_writeRun_outside (s : State) (S : Space) (k : Nat) (xs : List Sample) {a : Nat}
    (h : a < S.addr k ∨ S.addr (k + xs.length) ≤ a) : (s.writeRun S k xs).mem.read a = s.mem.read a := by
  induction xs generalizing s k with
  | nil => rfl
  | cons x xs ih =>
    have e1 : S.addr (k + 1) = S.addr k + S.bytes := by simp only [Space.addr, Nat.add_mul]; omega
    have e2 : S.addr (k + 1) ≤ S.addr (k + 1 + xs.length) := by
      simp only [Space.addr, Nat.add_mul]; omega
    have e3 : k + (x :: xs).length = k + 1 + xs.length := by simp only [List.length_cons]; omega
    rw [e3] at h
    rw [State.writeRun_cons, ih _ _ (by omega), State.byte_write_outside _ _ _ _ (by omega)]

/-- Each element of a run holds the value written to it. -/
theorem State.read_writeRun_inside (s : State) {S : Space} {k : Nat} {xs : List Sample} {i : Nat} (hi : i < xs.length) :
    (s.writeRun S k xs).read S (k + i) = some (((xs[i].setWidth 32).setWidth (8 * S.bytes)).setWidth 32) := by
  induction xs generalizing s k i with
  | nil => exact absurd hi (by simp)
  | cons x xs ih =>
    rw [State.writeRun_cons]
    cases i with
    | zero =>
      rw [← State.read_write_same s S k]
      refine Memory.readLE_congr fun a h1 h2 => State.byte_writeRun_outside _ _ _ _ ?_
      have e1 : S.addr (k + 1) = S.addr k + S.bytes := by simp only [Space.addr, Nat.add_mul]; omega
      simp only [Nat.add_zero] at h2
      omega
    | succ i =>
      rw [show k + (i + 1) = k + 1 + i by omega]
      exact ih (s.write S k (x.setWidth 32)) (by simpa using hi)

end Sys2Proof.Machine
end

