-- ==== Sys2Proof/Laws/Staged.lean ====
section
/-! SUPPORT. The steps of the pseudocode: when a staged step answers a value and when it raises, what a loop does, and the two
ways a command ends. -/

namespace Sys2Proof.Machine

/-! ## Sequencing -/

theorem staged_bind_ok {α β : Type} {x : Staged α} {f : α → Staged β} {r : β} :
    (x >>= f) = .ok r ↔ ∃ a, x = .ok a ∧ f a = .ok r := by
  cases x with
  | error e => simp [bind, Except.bind]
  | ok a => simp [bind, Except.bind]

theorem staged_bind_error {α β : Type} {x : Staged α} {f : α → Staged β} {e : Raised} :
    (x >>= f) = .error e ↔ x = .error e ∨ ∃ a, x = .ok a ∧ f a = .error e := by
  cases x with
  | error e => simp [bind, Except.bind]
  | ok a => simp [bind, Except.bind]

@[simp] theorem staged_ok_bind {α β : Type} (a : α) (f : α → Staged β) : ((Except.ok a : Staged α) >>= f) = f a := rfl

@[simp] theorem staged_error_bind {α β : Type} (e : Raised) (f : α → Staged β) :
    ((Except.error e : Staged α) >>= f) = .error e := rfl

theorem require_ok {p : Prop} [Decidable p] {f : Raised} {u : Unit} : require p f = .ok u ↔ p := by
  unfold require; split <;> simp [*]

theorem require_error {p : Prop} [Decidable p] {f e : Raised} : require p f = .error e ↔ ¬p ∧ f = e := by
  unfold require; split <;> simp [*]

@[simp] theorem require_pos {p : Prop} [Decidable p] {f : Raised} (h : p) : require p f = .ok () := if_pos h

@[simp] theorem require_neg {p : Prop} [Decidable p] {f : Raised} (h : ¬p) : require p f = .error f := if_neg h

/-! ## Reading -/

theorem State.fetch_ok {s : State} {S : Space} {k : Nat} {v : Word} : s.fetch S k = .ok v ↔ s.read S k = some v := by
  unfold State.fetch; split <;> simp [*]

theorem State.fetch_error {s : State} {S : Space} {k : Nat} {e : Raised} :
    s.fetch S k = .error e ↔ s.read S k = none ∧ e = atElem .unwritten S.id k := by
  unfold State.fetch; split <;> simp [*, eq_comm]

theorem State.fetchSlot_ok {s : State} {cls : ScaleClass} {n : Nat} {e : VectorEntry} :
    s.fetchSlot cls n = .ok e ↔ s.readSlot cls n = some e := by
  unfold State.fetchSlot; split <;> simp [*]

theorem State.fetchSlot_error {s : State} {cls : ScaleClass} {n : Nat} {e : Raised} :
    s.fetchSlot cls n = .error e ↔ s.readSlot cls n = none ∧ e = atElem .unwritten cls.vecId n := by
  unfold State.fetchSlot; split <;> simp [*, eq_comm]

/-- A run read is the elements' low 16 bits, in order, each of them written. -/
theorem State.fetchRun_ok {s : State} {S : Space} {k n : Nat} {xs : List Sample} (h : s.fetchRun S k n = .ok xs) :
    xs.length = n ∧ ∀ i (hi : i < xs.length), ∃ v, s.read S (k + i) = some v ∧ xs[i] = v.setWidth 16 := by
  induction n generalizing k xs with
  | zero => simp only [State.fetchRun, Except.ok.injEq] at h; subst h; simp
  | succ n ih =>
    rw [State.fetchRun] at h
    split at h
    · simp at h
    · next v hv =>
      split at h
      · simp at h
      · next vs hvs =>
        simp only [Except.ok.injEq] at h
        subst h
        obtain ⟨hl, hx⟩ := ih hvs
        refine ⟨by simp [hl], fun i hi => ?_⟩
        cases i with
        | zero => exact ⟨v, State.fetch_ok.1 hv, rfl⟩
        | succ i =>
          obtain ⟨w, hw, e⟩ := hx i (by simpa using hi)
          exact ⟨w, by rw [show k + (i + 1) = k + 1 + i by omega]; exact hw, by simpa using e⟩

/-- A run whose elements are all written is read. -/
theorem State.fetchRun_written {s : State} {S : Space} {k n : Nat} (h : ∀ i, i < n → (s.read S (k + i)).isSome) :
    ∃ xs, s.fetchRun S k n = .ok xs := by
  induction n generalizing k with
  | zero => exact ⟨[], rfl⟩
  | succ n ih =>
    obtain ⟨v, hv⟩ := Option.isSome_iff_exists.1 (h 0 (by omega))
    obtain ⟨vs, hvs⟩ := ih (k := k + 1) fun i hi => by
      rw [show k + 1 + i = k + (i + 1) by omega]; exact h (i + 1) (by omega)
    rw [Nat.add_zero] at hv
    rw [State.fetchRun, State.fetch_ok.2 hv, hvs]
    exact ⟨_, rfl⟩

/-- The first unwritten element of a run is the one that faults. -/
theorem State.fetchRun_error {s : State} {S : Space} {k n : Nat} {e : Raised} (h : s.fetchRun S k n = .error e) :
    ∃ i, i < n ∧ s.read S (k + i) = none ∧ (∀ j, j < i → (s.read S (k + j)).isSome) ∧
      e = atElem .unwritten S.id (k + i) := by
  induction n generalizing k with
  | zero => exact absurd h (by simp [State.fetchRun])
  | succ n ih =>
    rw [State.fetchRun] at h
    split at h
    · next f hf =>
      simp only [Except.error.injEq] at h
      subst h
      obtain ⟨h1, h2⟩ := State.fetch_error.1 hf
      exact ⟨0, by omega, h1, fun j hj => absurd hj (by omega), h2⟩
    · next v hv =>
      split at h
      · next f hf =>
        simp only [Except.error.injEq] at h
        subst h
        obtain ⟨i, hi, h1, h2, h3⟩ := ih hf
        refine ⟨i + 1, by omega, by rw [← h1]; congr 1; omega, fun j hj => ?_, by rw [h3]; congr 1; omega⟩
        cases j with
        | zero => rw [Nat.add_zero, State.fetch_ok.1 hv]; rfl
        | succ j => rw [show k + (j + 1) = k + 1 + j by omega]; exact h2 j (by omega)
      · simp at h

/-! ## Loops -/

/-- What every iteration of a loop keeps, from one index to the next, holds at its end. -/
theorem forRange_ok {body : Nat → State → Staged State} {i n : Nat} {s t : State} (P : Nat → State → Prop)
    (h : forRange body i n s = .ok t) (h0 : P i s)
    (hstep : ∀ j u v, i ≤ j → j < i + n → P j u → body j u = .ok v → P (j + 1) v) : P (i + n) t := by
  induction n generalizing i s with
  | zero =>
    simp only [forRange, Except.ok.injEq] at h
    subst h
    simpa using h0
  | succ n ih =>
    rw [forRange] at h
    split at h
    · next u hu =>
      have := ih h (hstep i s u (Nat.le_refl i) (by omega) h0 hu)
        fun j u v h1 h2 => hstep j u v (by omega) (by omega)
      rwa [show i + 1 + n = i + (n + 1) by omega] at this
    · simp at h

/-- A loop all of whose iterations answer a state answers a state. -/
theorem forRange_completes {body : Nat → State → Staged State} {i n : Nat} {s : State} (P : Nat → State → Prop)
    (h0 : P i s) (hstep : ∀ j u, i ≤ j → j < i + n → P j u → ∃ v, body j u = .ok v ∧ P (j + 1) v) :
    ∃ t, forRange body i n s = .ok t ∧ P (i + n) t := by
  induction n generalizing i s with
  | zero => exact ⟨s, rfl, by simpa using h0⟩
  | succ n ih =>
    obtain ⟨u, hu, hPu⟩ := hstep i s (Nat.le_refl i) (by omega) h0
    obtain ⟨t, ht, hPt⟩ := ih hPu fun j v h1 h2 => hstep j v (by omega) (by omega)
    refine ⟨t, ?_, by rwa [show i + 1 + n = i + (n + 1) by omega] at hPt⟩
    rw [forRange, hu]
    exact ht

/-- A loop that raises does so at one of its indexes, all the iterations before it having answered a state. -/
theorem forRange_error {body : Nat → State → Staged State} {i n : Nat} {s : State} {e : Raised} (P : Nat → State → Prop)
    (h : forRange body i n s = .error e) (h0 : P i s)
    (hstep : ∀ j u v, i ≤ j → j < i + n → P j u → body j u = .ok v → P (j + 1) v) :
    ∃ j u, i ≤ j ∧ j < i + n ∧ P j u ∧ body j u = .error e := by
  induction n generalizing i s with
  | zero => simp [forRange] at h
  | succ n ih =>
    rw [forRange] at h
    split at h
    · next u hu =>
      obtain ⟨j, v, h1, h2, h3, h4⟩ := ih h (hstep i s u (Nat.le_refl i) (by omega) h0 hu)
        fun j u v h1 h2 => hstep j u v (by omega) (by omega)
      exact ⟨j, v, by omega, by omega, h3, h4⟩
    · next f hf =>
      simp only [Except.error.injEq] at h
      subst h
      exact ⟨i, s, Nat.le_refl i, by omega, h0, hf⟩

/-! ## How a command ends -/

/-- The staging copy a command starts from: RESULT0 starts at 0 (60_exceptions.md R133). -/
def State.staging (s : State) : State := { s with result0 := 0 }

theorem runCommand_ok {body : State → Staged State} {s t : State} (h : body s.staging = .ok t) :
    runCommand body s = .next t.commit := by
  unfold runCommand; unfold State.staging at h; rw [h]; rfl

theorem runCommand_error {body : State → Staged State} {s : State} {f : Raised} (h : body s.staging = .error f) :
    runCommand body s = .next (s.takeFault f) := by
  unfold runCommand; unfold State.staging at h; rw [h]; rfl

/-- A command ends in commit or in a fault, and in nothing else. -/
theorem runCommand_cases {body : State → Staged State} {s t : State} (h : runCommand body s = .next t) :
    (∃ u, body s.staging = .ok u ∧ t = u.commit) ∨ (∃ f, body s.staging = .error f ∧ t = s.takeFault f) := by
  cases hb : body s.staging with
  | ok u => exact .inl ⟨u, rfl, by simpa [runCommand_ok hb] using h.symm⟩
  | error f => exact .inr ⟨f, rfl, by simpa [runCommand_error hb] using h.symm⟩

/-- A command always ends in a next state. -/
theorem runCommand_next (body : State → Staged State) (s : State) : ∃ t, runCommand body s = .next t := ⟨_, rfl⟩

end Sys2Proof.Machine
end

