-- ==== Sys2Proof/Laws/Changes.lean ====
section
/-! SUPPORT. What a command can change. `MemSteps` and `FragSteps` say how memory and the fragment map can come out of a
command; `Effect` says it of the whole state. Machine-wide rules follow from these without unfolding a meaning. -/

namespace Sys2Proof.Machine

/-! ## Memory -/

/-- Memory after some writes of whole elements that exist, and of slots that exist with decoded entries. -/
inductive MemSteps (p : Params) (m : Memory) : Memory → Prop
  | refl : MemSteps p m m
  | elem {m' : Memory} (S : Space) (k : Nat) (v : Word) (h : MemSteps p m m') (hk : k < S.size p) :
      MemSteps p m (m'.writeLE (S.addr k) S.bytes v)
  | slot {m' : Memory} (cls : ScaleClass) (n : Nat) (e : VectorEntry) (h : MemSteps p m m') (hn : n < p.vecCap)
      (he : e.ok cls) : MemSteps p m (m'.writeSlot (cls.slotAddr n) e)

theorem MemSteps.trans {p : Params} {m m' m'' : Memory} (h : MemSteps p m m') (h' : MemSteps p m' m'') :
    MemSteps p m m'' := by
  induction h' with
  | refl => exact h
  | elem S k v _ hk ih => exact .elem S k v ih hk
  | slot cls n e _ hn he ih => exact .slot cls n e ih hn he

theorem MemSteps.wf {p : Params} {m m' : Memory} (h : MemSteps p m m') (hm : m.wf) : m'.wf := by
  induction h with
  | refl => exact hm
  | elem S k v _ _ ih => exact Memory.writeLE_wf _ _ _ ih
  | slot cls n e _ _ _ ih => exact Memory.writeSlot_wf _ _ ih

/-- What has been written stays written (10_state.md R42). -/
theorem MemSteps.isSome {p : Params} {m m' : Memory} (h : MemSteps p m m') {a : Nat} (ha : (m.read a).isSome) :
    (m'.read a).isSome := by
  induction h with
  | refl => exact ha
  | elem S k v _ _ ih => exact Memory.isSome_writeLE _ _ _ ih
  | slot cls n e _ _ _ ih => exact Memory.isSome_writeSlot _ _ ih

/-- Every listed byte belongs to an element that exists (20_memory.md R49). -/
theorem MemSteps.mapped {p : Params} {m m' : Memory} (h : MemSteps p m m') (hm : ∀ c ∈ m, mapped p c.1) :
    ∀ c ∈ m', mapped p c.1 := by
  induction h with
  | refl => exact hm
  | elem S k v _ hk ih =>
    intro c hc
    rcases Memory.mem_writeLE hc with h | h
    · exact .inl ⟨S, k, hk, h⟩
    · exact ih c h
  | slot cls n e _ hn _ ih =>
    intro c hc
    rcases Memory.mem_writeSlot hc with h | h
    · exact .inr ⟨cls, n, hn, h⟩
    · exact ih c h

/-! ## The fragment map -/

/-- The fragment map after some insertions of new keys, each with room for it (42_raster_assembler.md R116). -/
inductive FragSteps (cap : Option Nat) (fs : List Fragment) : List Fragment → Prop
  | refl : FragSteps cap fs fs
  | insert {fs' : List Fragment} (f : Fragment) (h : FragSteps cap fs fs') (hnew : ∀ g ∈ fs', g.key ≠ f.key)
      (hroom : cap ≠ some fs'.length) (hlen : f.key.rawLen ≠ 0)
      (hsamples : f.samples.length = f.key.rawLen.toNat * f.key.comp.rpc) : FragSteps cap fs (fragInsert fs' f)

theorem FragSteps.trans {cap : Option Nat} {fs gs hs : List Fragment} (h : FragSteps cap fs gs)
    (h' : FragSteps cap gs hs) : FragSteps cap fs hs := by
  induction h' with
  | refl => exact h
  | insert f _ h1 h2 h3 h4 ih => exact .insert f ih h1 h2 h3 h4

theorem mem_fragInsert {fs : List Fragment} {f g : Fragment} : g ∈ fragInsert fs f ↔ g = f ∨ g ∈ fs := by
  induction fs with
  | nil => simp [fragInsert]
  | cons h fs ih =>
    unfold fragInsert
    split
    · simp
    · simp only [List.mem_cons, ih]; tauto

theorem length_fragInsert (fs : List Fragment) (f : Fragment) : (fragInsert fs f).length = fs.length + 1 := by
  induction fs with
  | nil => rfl
  | cons h fs ih =>
    unfold fragInsert
    split
    · rfl
    · simp [ih]

theorem Component.code_injective {c d : Component} (h : c.code = d.code) : c = d := by
  cases c <;> cases d <;> first | rfl | exact absurd h (by decide)

/-- Two numbers below b, one in each of two places to the base b, are told apart. -/
theorem digits_injective {b x y r r' : Nat} (hr : r < b) (hr' : r' < b) (h : x * b + r = y * b + r') : x = y ∧ r = r' := by
  have hb : 0 < b := Nat.lt_of_le_of_lt (Nat.zero_le _) hr
  have h1 := congrArg (· / b) h
  have h2 := congrArg (· % b) h
  simp only [Nat.mul_comm x b, Nat.mul_comm y b, Nat.mul_add_mod, Nat.mod_eq_of_lt hr, Nat.mod_eq_of_lt hr',
    Nat.mul_add_div hb, Nat.div_eq_of_lt hr, Nat.div_eq_of_lt hr', Nat.add_zero] at h1 h2
  exact ⟨h1, h2⟩

theorem FragKey.code_injective {k l : FragKey} (h : k.code = l.code) : k = l := by
  obtain ⟨c, a, n⟩ := k
  obtain ⟨d, b, m⟩ := l
  obtain ⟨h1, hn⟩ := digits_injective n.isLt m.isLt h
  obtain ⟨h2, ha⟩ := digits_injective a.isLt b.isLt h1
  have hc : c = d := Component.code_injective h2
  rw [hc, BitVec.eq_of_toNat_eq ha, BitVec.eq_of_toNat_eq hn]

/-- Inserting a new key keeps the map a map. -/
theorem fragInsert_wf {fs : List Fragment} {f : Fragment} (h : fragsWf fs) (hnew : ∀ g ∈ fs, g.key ≠ f.key) :
    fragsWf (fragInsert fs f) := by
  induction fs with
  | nil => simp [fragsWf, fragInsert]
  | cons g fs ih =>
    obtain ⟨hg, hfs⟩ := List.pairwise_cons.1 h
    unfold fragInsert
    split
    · next hlt =>
      refine List.pairwise_cons.2 ⟨fun x hx => ?_, h⟩
      rcases List.mem_cons.1 hx with rfl | hx
      · exact hlt
      · exact Nat.lt_trans hlt (hg x hx)
    · next hlt =>
      refine List.pairwise_cons.2 ⟨fun x hx => ?_, ih hfs fun y hy => hnew y (List.mem_cons_of_mem _ hy)⟩
      rcases mem_fragInsert.1 hx with rfl | hx
      · have : g.key.code ≠ x.key.code := fun e => hnew g (List.mem_cons_self ..) (FragKey.code_injective e)
        omega
      · exact hg x hx

/-- No entry is dropped or changed by an insertion. -/
theorem FragSteps.mem {cap : Option Nat} {fs gs : List Fragment} (h : FragSteps cap fs gs) {f : Fragment}
    (hf : f ∈ fs) : f ∈ gs := by
  induction h with
  | refl => exact hf
  | insert g _ _ _ _ _ ih => exact mem_fragInsert.2 (.inr ih)

/-! ## The whole state -/

/-- What the body of a command can change: memory, the fragment map, RESULT0 and STITCH_LEN, and nothing else. -/
structure Effect (s t : State) : Prop where
  params : t.params = s.params
  cfg : t.cfg = { s.cfg with stitchLen := t.cfg.stitchLen }
  args : t.args = s.args
  cmd : t.cmd = s.cmd
  status : t.status = s.status
  faultInfo : t.faultInfo = s.faultInfo
  script : t.script = s.script
  replies : t.replies = s.replies
  draws : t.draws = s.draws
  mem : MemSteps s.params s.mem t.mem
  frags : t.frags = [] ∨ FragSteps s.params.fragCap s.frags t.frags

/-- What a loop body can change: memory and the fragment map, and nothing else. -/
structure LoopEffect (s t : State) : Prop where
  only : t = { s with mem := t.mem, frags := t.frags }
  mem : MemSteps s.params s.mem t.mem
  frags : FragSteps s.params.fragCap s.frags t.frags

theorem LoopEffect.params {s t : State} (h : LoopEffect s t) : t.params = s.params := by rw [h.only]
theorem LoopEffect.cfg {s t : State} (h : LoopEffect s t) : t.cfg = s.cfg := by rw [h.only]
theorem LoopEffect.args {s t : State} (h : LoopEffect s t) : t.args = s.args := by rw [h.only]
theorem LoopEffect.result0 {s t : State} (h : LoopEffect s t) : t.result0 = s.result0 := by rw [h.only]

theorem LoopEffect.refl (s : State) : LoopEffect s s := ⟨rfl, .refl, .refl⟩

theorem LoopEffect.trans {s t u : State} (h : LoopEffect s t) (h' : LoopEffect t u) : LoopEffect s u where
  only := by
    have h1 := h.only
    have h2 := h'.only
    rw [h1] at h2
    exact h2
  mem := h.mem.trans (h.params ▸ h'.mem)
  frags := h.frags.trans (h.params ▸ h'.frags)

theorem LoopEffect.effect {s t : State} (h : LoopEffect s t) : Effect s t where
  params := h.params
  cfg := by rw [h.cfg]
  args := h.args
  cmd := by rw [h.only]
  status := by rw [h.only]
  faultInfo := by rw [h.only]
  script := by rw [h.only]
  replies := by rw [h.only]
  draws := by rw [h.only]
  mem := h.mem
  frags := .inr h.frags

theorem LoopEffect.ofMem (s : State) {m : Memory} (h : MemSteps s.params s.mem m) : LoopEffect s { s with mem := m } :=
  ⟨rfl, h, .refl⟩

theorem LoopEffect.write (s : State) (S : Space) (k : Nat) (v : Word) (hk : k < S.size s.params) :
    LoopEffect s (s.write S k v) := by
  unfold State.write
  exact .ofMem s (.elem S k v .refl hk)

theorem LoopEffect.writeSlot (s : State) (cls : ScaleClass) (n : Nat) (e : VectorEntry) (hn : n < s.params.vecCap)
    (he : e.ok cls) : LoopEffect s (s.writeSlot cls n e) := by
  unfold State.writeSlot
  exact .ofMem s (.slot cls n e .refl hn he)

theorem LoopEffect.writeRun (s : State) (S : Space) (k : Nat) (xs : List Sample)
    (h : k + xs.length ≤ S.size s.params) : LoopEffect s (s.writeRun S k xs) := by
  induction xs generalizing s k with
  | nil => exact .refl s
  | cons x xs ih =>
    rw [List.length_cons] at h
    rw [State.writeRun_cons]
    refine (LoopEffect.write s S k _ (by omega)).trans (ih _ _ ?_)
    rw [State.write_params]
    omega

/-- A loop changes what its iterations can change. -/
theorem LoopEffect.forRange {body : Nat → State → Staged State} {i n : Nat} {s t : State}
    (h : forRange body i n s = .ok t)
    (hstep : ∀ j u v, i ≤ j → j < i + n → LoopEffect s u → body j u = .ok v → LoopEffect u v) : LoopEffect s t :=
  forRange_ok (fun _ u => LoopEffect s u) h (.refl s) fun j u v h1 h2 hu hv => hu.trans (hstep j u v h1 h2 hu hv)

end Sys2Proof.Machine
end

