-- ==== Sys2Proof/Laws/Commands.lean ====
section
/-! SUPPORT. What each command can do: the effect of each loop body, and of each command that commits. `exec_cases` says it once
for all thirteen. -/

namespace Sys2Proof.Machine

/-! ## Reconstruction and write-back -/

theorem reconLumaAt_effect {i : Nat} {s t : State} (hi : i < s.params.romBytes) (h : reconLumaAt i s = .ok t) :
    LoopEffect s t := by
  simp only [reconLumaAt, staged_bind_ok] at h
  obtain ⟨m0, _, m1, _, m2, _, m3, _, sel, _, h⟩ := h
  simp only [Except.ok.injEq] at h
  subst h
  have hs : ∀ u : State, u.params = s.params → Space.luma.size u.params = 4 * s.params.romBytes := fun u hu => by
    rw [hu]; rfl
  refine (((LoopEffect.write s .luma (4 * i) _ ?_).trans (LoopEffect.write _ .luma (4 * i + 1) _ ?_)).trans
    (LoopEffect.write _ .luma (4 * i + 2) _ ?_)).trans (LoopEffect.write _ .luma (4 * i + 3) _ ?_) <;>
  · first | (rw [hs s rfl]; omega) | (simp only [State.write_params]; rw [hs s rfl]; omega)

theorem reconChromaAt_effect {k : ChromaSpaces} {i : Nat} {s t : State} (hk : k.plane.size s.params = 2 * s.params.romBytes)
    (hi : i < s.params.romBytes) (h : reconChromaAt k i s = .ok t) : LoopEffect s t := by
  simp only [reconChromaAt, staged_bind_ok] at h
  obtain ⟨a, _, b, _, h⟩ := h
  simp only [Except.ok.injEq] at h
  subst h
  refine (LoopEffect.write s k.plane (2 * i) a ?_).trans (LoopEffect.write _ k.plane (2 * i + 1) b ?_)
  · omega
  · rw [State.write_params]; omega

theorem splitLumaAt_effect {i : Nat} {s t : State} (hi : i < s.params.romBytes) (h : splitLumaAt i s = .ok t) :
    LoopEffect s t := by
  simp only [splitLumaAt, staged_bind_ok] at h
  obtain ⟨v0, _, v1, _, v2, _, v3, _, h⟩ := h
  simp only [Except.ok.injEq] at h
  subst h
  exact ((((LoopEffect.write s .lmsb0 i _ hi).trans (LoopEffect.write _ .lmsb1 i _ hi)).trans
    (LoopEffect.write _ .lmsb2 i _ hi)).trans (LoopEffect.write _ .lmsb3 i _ hi)).trans (LoopEffect.write _ .llsb i _ hi)

theorem splitChromaAt_effect {k : ChromaSpaces} {i : Nat} {s t : State} (h0 : k.c0.size s.params = s.params.romBytes)
    (h1 : k.c1.size s.params = s.params.romBytes) (hi : i < s.params.romBytes) (h : splitChromaAt k i s = .ok t) :
    LoopEffect s t := by
  simp only [splitChromaAt, staged_bind_ok] at h
  obtain ⟨a, _, b, _, h⟩ := h
  simp only [Except.ok.injEq] at h
  subst h
  refine (LoopEffect.write s k.c0 i a ?_).trans (LoopEffect.write _ k.c1 i b ?_)
  · omega
  · rw [State.write_params]; omega

theorem selectComponent_ok {c : Comp} {k : Component} : selectComponent c = .ok k ↔ componentOf c = some k := by
  unfold selectComponent; split <;> simp [*]

theorem selectChroma_ok {c : Comp} {k : ChromaSpaces} : selectChroma c = .ok k ↔ chromaOf c = some k := by
  unfold selectChroma; split <;> simp [*]

theorem State.format_ok {s : State} {f : Format} : s.format = .ok f ↔ formatOf s.cfg.std = some f := by
  unfold State.format; split <;> simp [*]

/-- The sizes of the spaces of a chroma component (20_memory.md R49). -/
theorem chromaOf_sizes {c : Comp} {k : ChromaSpaces} (h : chromaOf c = some k) (p : Params) :
    k.c0.size p = p.romBytes ∧ k.c1.size p = p.romBytes ∧ k.plane.size p = 2 * p.romBytes := by
  cases c <;> simp only [chromaOf, Option.some.injEq, reduceCtorEq] at h <;> subst h <;> exact ⟨rfl, rfl, rfl⟩

/-! ## Decoded entries (41_vector_codec.md R110) -/

theorem dec43_le (p : Params) (seq a b : Byte) :
    (dec43 p seq a b).back ≤ 0xFFFF ∧ (dec43 p seq a b).centre ≤ 0xFFFF ∧ (dec43 p seq a b).front ≤ 0xFFFF :=
  ⟨Nat.le_of_lt_succ (BitVec.isLt _), Nat.le_of_lt_succ (BitVec.isLt _), Nat.le_of_lt_succ (BitVec.isLt _)⟩

theorem toNat_ofNat_small {n : Nat} (h : n < 4294967296) : (BitVec.ofNat 32 n).toNat = n := by
  rw [BitVec.toNat_ofNat]; exact Nat.mod_eq_of_lt h

theorem scale43_ok (p : Params) (seq a b : Byte) (cls : ScaleClass) : (scale43 (dec43 p seq a b) cls).ok cls := by
  obtain ⟨h1, h2, h3⟩ := dec43_le p seq a b
  generalize dec43 p seq a b = t at h1 h2 h3
  have hr : ∀ x, x ≤ 0xFFFF → (BitVec.ofNat 32 (x * cls.rpc)).toNat = x * cls.rpc := fun x hx =>
    toNat_ofNat_small (by cases cls <;> simp only [ScaleClass.rpc] <;> omega)
  have hm : ∀ x, x ≤ 0xFFFF → x * cls.rpc ≤ cls.maxAddr := fun x hx => by
    cases cls <;> simp only [ScaleClass.rpc, ScaleClass.maxAddr] <;> omega
  simp only [VectorEntry.ok, scale43, hr _ h1, hr _ h2, hr _ h3, Nat.mul_mod_left, true_and]
  exact ⟨hm _ h1, hm _ h2, hm _ h3, fun h => absurd h (by decide)⟩

/-- A raw centre is a multiple of 256 below 2^19 (R102, R110). -/
theorem rawCentre169_range (a b : Byte) : rawCentre169 a b % 256 = 0 ∧ rawCentre169 a b ≤ 0x7FF00 := by
  unfold rawCentre169
  generalize BitVec.ofBool (b.getLsbD 3) ++ BitVec.ofBool (b.getLsbD 2) ++ BitVec.ofBool (b.getLsbD 5) ++ a = x
  have hx := x.isLt
  rw [BitVec.toNat_append, show (0 : BitVec 8).toNat = 0 from rfl, Nat.or_zero, Nat.shiftLeft_eq]
  simp only [Nat.reduceAdd, Nat.reducePow] at *
  omega

theorem scale169_ok {p : Params} {rc : Nat} {cls : ScaleClass} (h : rc % 256 = 0 ∧ rc ≤ 0x7FF00)
    (hb : 0 ≤ back169 p rc cls) : (scale169 p rc cls).ok cls := by
  obtain ⟨h1, h2⟩ := h
  have hback : ((back169 p rc cls).toNat % cls.rpc = 0 ∧ (back169 p rc cls).toNat ≤ rc * cls.rpc) := by
    unfold back169 at hb ⊢
    cases cls <;> cases p.bp169Mode <;> simp only [ScaleClass.rpc, ScaleClass.off] at hb ⊢ <;> omega
  have hc : rc * cls.rpc ≤ cls.maxAddr := by
    cases cls <;> simp only [ScaleClass.rpc, ScaleClass.maxAddr] <;> omega
  have hlt : cls.maxAddr < 4294967296 := by cases cls <;> decide
  unfold VectorEntry.ok scale169
  simp only
  rw [toNat_ofNat_small (by omega), toNat_ofNat_small (by omega)]
  refine ⟨hback.1, Nat.mul_mod_left .., ?_, by omega, by omega, ?_, fun _ => trivial⟩
  · cases cls <;> rfl
  · exact Nat.zero_le _

/-! ## Vector codec -/

theorem vdecAt_effect {f : Format} {n : Nat} {s t : State} (hn : n < s.params.vecCap) (h : vdecAt f n s = .ok t) :
    LoopEffect s t := by
  have two : ∀ eL eC : VectorEntry, eL.ok .L → eC.ok .C → LoopEffect s ((s.writeSlot .L n eL).writeSlot .C n eC) :=
    fun eL eC h1 h2 => (LoopEffect.writeSlot s .L n eL hn h1).trans (LoopEffect.writeSlot _ .C n eC hn h2)
  cases f with
  | f43 =>
    simp only [vdecAt, staged_bind_ok] at h
    obtain ⟨x, _, y, _, z, _, h⟩ := h
    simp only [Except.ok.injEq] at h
    subst h
    exact two _ _ (scale43_ok ..) (scale43_ok ..)
  | f169 =>
    simp only [vdecAt, staged_bind_ok, require_ok] at h
    obtain ⟨x, _, y, _, _, hb, h⟩ := h
    simp only [Except.ok.injEq] at h
    subst h
    exact two _ _ (scale169_ok (rawCentre169_range x y) hb.1) (scale169_ok (rawCentre169_range x y) hb.2)

/-- A record has E bytes. -/
theorem encodeEntry_length {p : Params} {f : Format} {b c fr : Nat} {cls : ScaleClass} {bytes : List Byte}
    (h : encodeEntry p f b c fr cls = .ok bytes) : bytes.length = f.recBytes := by
  cases f with
  | f43 =>
    simp only [encodeEntry, enc43, staged_bind_ok] at h
    obtain ⟨_, _, _, _, _, _, h⟩ := h
    split at h
    · simp at h
    · simp only [Except.ok.injEq] at h; subst h; rfl
  | f169 =>
    simp only [encodeEntry, enc169, staged_bind_ok] at h
    obtain ⟨_, _, _, _, _, _, _, _, h⟩ := h
    simp only [Except.ok.injEq] at h; subst h; rfl

/-! ## Raster assembler -/

theorem segKey_len {s : State} {f : Format} {c : Component} {e : VectorEntry} {g : Segment}
    (hg : g ∈ s.segments f c e) : ∃ w : BitVec 16, g.len = w.toNat * c.rpc := by
  cases f <;> simp only [State.segments, List.mem_cons, List.mem_append, List.not_mem_nil, or_false] at hg
  · rcases hg with (rfl | rfl) | rfl <;> exact ⟨_, rfl⟩
  · rcases hg with rfl | rfl <;> exact ⟨_, rfl⟩

theorem Component.rpc_pos (c : Component) : 0 < c.rpc := by cases c <;> decide

theorem State.recordFragment_effect {s t : State} {c : Component} {g : Segment} {xs : List Sample} {w : BitVec 16}
    (hw : g.len = w.toNat * c.rpc) (hne : g.len ≠ 0) (hxs : xs.length = g.len)
    (h : s.recordFragment (segKey c g) xs = .ok t) : LoopEffect s t := by
  unfold State.recordFragment at h
  split at h
  · simp only [Except.ok.injEq] at h
    subst h
    exact .refl s
  · next hnew =>
    split at h
    · simp at h
    · next hroom =>
      simp only [Except.ok.injEq] at h
      subst h
      refine ⟨rfl, .refl, .insert _ .refl ?_ hroom ?_ ?_⟩
      · intro f hf e
        exact hnew (List.any_eq_true.2 ⟨f, hf, by simp [e]⟩)
      all_goals
        have hdiv : g.len / c.rpc = w.toNat := by rw [hw]; exact Nat.mul_div_cancel _ c.rpc_pos
        have hwlt := w.isLt
        have hk : (segKey c g).rawLen.toNat = w.toNat := by
          unfold segKey
          simp only
          rw [hdiv, toNat_ofNat_small (by omega)]
      · intro e
        rw [e] at hk
        rw [← hk] at hw
        simp at hw
        exact hne hw
      · simp only [hk]
        rw [hxs, hw]
        rfl

theorem State.assembleSegment_effect {s : State} {c : Component} {g : Segment} {w : BitVec 16}
    {r : State × List Sample} (hw : g.len = w.toNat * c.rpc) (h : s.assembleSegment c g = .ok r) :
    LoopEffect s r.1 ∧ r.2.length = g.len := by
  unfold State.assembleSegment at h
  split at h
  · next h0 =>
    simp only [Except.ok.injEq] at h
    subst h
    exact ⟨.refl s, h0.symm⟩
  · next h0 =>
    simp only [staged_bind_ok] at h
    obtain ⟨_, _, xs, hxs, t, ht, h⟩ := h
    simp only [Except.ok.injEq] at h
    subst h
    have hl := (State.fetchRun_ok hxs).1
    exact ⟨State.recordFragment_effect hw h0 hl ht, hl⟩

/-- Assembling segments changes the fragment map only, and the line has their samples. -/
theorem State.assemble_effect {s : State} {c : Component} {gs : List Segment} {r : State × List Sample}
    (hw : ∀ g ∈ gs, ∃ w : BitVec 16, g.len = w.toNat * c.rpc) (h : s.assemble c gs = .ok r) :
    LoopEffect s r.1 ∧ r.2.length = (gs.map Segment.len).sum := by
  induction gs generalizing s r with
  | nil =>
    simp only [State.assemble, Except.ok.injEq] at h
    subst h
    exact ⟨.refl s, rfl⟩
  | cons g gs ih =>
    rw [State.assemble] at h
    split at h
    · simp at h
    · next t xs hx =>
      split at h
      · simp at h
      · next u ys hy =>
        simp only [Except.ok.injEq] at h
        subst h
        obtain ⟨w, hg⟩ := hw g (List.mem_cons_self ..)
        obtain ⟨h1, h2⟩ := State.assembleSegment_effect hg hx
        obtain ⟨h3, h4⟩ := ih (fun g' hg' => hw g' (List.mem_cons_of_mem _ hg')) hy
        simp only at h1 h2 h3 h4
        exact ⟨h1.trans h3, by simp [h2, h4]⟩

theorem State.segments_len (s : State) (f : Format) (c : Component) (e : VectorEntry) :
    ((s.segments f c e).map Segment.len).sum = s.lineWidth f c := by
  cases f <;> simp [State.segments, State.lineWidth, State.fpl, Nat.add_assoc]

theorem LoopEffect.lineWidth {s t : State} (h : LoopEffect s t) (f : Format) (c : Component) :
    t.lineWidth f c = s.lineWidth f c := by
  rw [h.only]; rfl

theorem State.assembleLine_effect {s t : State} {f : Format} {c : Component} {e : VectorEntry} {j : Nat}
    (hcap : (j + 1) * s.lineWidth f c ≤ rasterCap s.params c) (h : s.assembleLine f c e j = .ok t) : LoopEffect s t := by
  simp only [State.assembleLine, staged_bind_ok] at h
  obtain ⟨r, hr, h⟩ := h
  simp only [Except.ok.injEq] at h
  subst h
  obtain ⟨h1, h2⟩ := State.assemble_effect (fun g hg => segKey_len hg) hr
  refine h1.trans (LoopEffect.writeRun _ _ _ _ ?_)
  rw [h2, State.segments_len, h1.lineWidth, h1.params]
  rw [Nat.add_mul, Nat.one_mul] at hcap
  exact hcap

theorem State.writeBlank_effect {s : State} {f : Format} {c : Component} {j : Nat}
    (hcap : (j + 1) * s.lineWidth f c ≤ rasterCap s.params c) : LoopEffect s (s.writeLine f c j (s.blankLine f c)) := by
  refine LoopEffect.writeRun _ _ _ _ ?_
  rw [State.blankLine, List.length_replicate]
  rw [Nat.add_mul, Nat.one_mul] at hcap
  exact hcap

theorem stitchGenAt_effect {f : Format} {n : Nat} {s t : State} (hn : n < s.params.stitchCap)
    (h : stitchGenAt f n s = .ok t) : LoopEffect s t := by
  simp only [stitchGenAt, staged_bind_ok] at h
  obtain ⟨_, _, h⟩ := h
  simp only [Except.ok.injEq] at h
  subst h
  exact LoopEffect.write s .stitch n _ hn

theorem asmFrameAt_effect {f : Format} {c : Component} {n : Nat} {s t : State}
    (hcap : (n + 1) * s.lineWidth f c ≤ rasterCap s.params c) (h : asmFrameAt f c n s = .ok t) : LoopEffect s t := by
  simp only [asmFrameAt, staged_bind_ok] at h
  obtain ⟨w, _, _, _, h⟩ := h
  split at h
  · simp only [staged_bind_ok] at h
    obtain ⟨_, _, h⟩ := h
    simp only [Except.ok.injEq] at h
    subst h
    exact State.writeBlank_effect hcap
  · simp only [staged_bind_ok] at h
    obtain ⟨_, _, e, _, h⟩ := h
    exact State.assembleLine_effect hcap h

/-! ## All thirteen -/

/-- How a command's body that answers a staging copy leaves it. -/
structure Commits (i : Instr) (s u : State) : Prop where
  effect : Effect s u
  /-- Only STITCH_GEN writes a configuration register, STITCH_LEN. -/
  cfg : i ≠ .stitchGen → u.cfg = s.cfg
  /-- Only FRAG_CLEAR drops fragments. -/
  frags : i ≠ .fragClear → FragSteps s.params.fragCap s.frags u.frags

theorem LoopEffect.commits {s u : State} (h : LoopEffect s.staging u) (i : Instr) : Commits i s u :=
  ⟨{ params := h.params, cfg := h.effect.cfg, args := h.args, cmd := h.effect.cmd, status := h.effect.status,
     faultInfo := h.effect.faultInfo, script := h.effect.script, replies := h.effect.replies, draws := h.effect.draws,
     mem := h.mem, frags := .inr h.frags }, fun _ => h.cfg, fun _ => h.frags⟩

/-- A write of RESULT0 beside the effect. -/
theorem Commits.withResult0 {i : Instr} {s u : State} (h : Commits i s u) (w : Word) :
    Commits i s { u with result0 := w } :=
  ⟨⟨h.effect.params, h.effect.cfg, h.effect.args, h.effect.cmd, h.effect.status, h.effect.faultInfo, h.effect.script,
    h.effect.replies, h.effect.draws, h.effect.mem, h.effect.frags⟩, h.cfg, h.frags⟩

/-- The pseudocode of each command. -/
def bodyOf : Instr → State → Staged State
  | .nop => nopBody
  | .reconLuma => reconLumaBody
  | .reconChroma c => reconChromaBody c
  | .splitLuma => splitLumaBody
  | .splitChroma c => splitChromaBody c
  | .vdec => vdecBody
  | .venc c => vencBody c
  | .stitchGen => stitchGenBody
  | .asmLine c => asmLineBody c
  | .asmBlank c => asmBlankBody c
  | .asmFrame c => asmFrameBody c
  | .fragClear => fragClearBody
  | .fragQuery c => fragQueryBody c

/-- Every command runs its pseudocode on a staging copy. -/
theorem exec_eq (i : Instr) (s : State) : exec i s = runCommand (bodyOf i) s := by cases i <;> rfl

/-- The command commits what its pseudocode answers. -/
theorem exec_ok {i : Instr} {s t : State} (h : bodyOf i s.staging = .ok t) : exec i s = .next t.commit := by
  rw [exec_eq, runCommand_ok h]

/-- The command takes the fault its pseudocode raises. -/
theorem exec_error {i : Instr} {s : State} {f : Raised} (h : bodyOf i s.staging = .error f) :
    exec i s = .next (s.takeFault f) := by
  rw [exec_eq, runCommand_error h]

/-- The two ways every command ends (60_exceptions.md R132, R133): it commits, having changed what its rule lets it change, or
it takes a fault, having changed nothing else. -/
theorem exec_cases {i : Instr} {s t : State} (h : exec i s = .next t) :
    (∃ u, Commits i s u ∧ t = u.commit) ∨ (∃ f, t = s.takeFault f) := by
  have lift : ∀ {body : State → Staged State}, runCommand body s = .next t →
      (∀ u, body s.staging = .ok u → Commits i s u) →
      (∃ u, Commits i s u ∧ t = u.commit) ∨ (∃ f, t = s.takeFault f) := fun hr hb => by
    rcases runCommand_cases hr with ⟨u, hu, e⟩ | ⟨f, _, e⟩
    · exact .inl ⟨u, hb u hu, e⟩
    · exact .inr ⟨f, e⟩
  cases i with
  | nop =>
    refine lift (body := nopBody) h fun u hu => ?_
    simp only [nopBody, Except.ok.injEq] at hu
    subst hu
    exact (LoopEffect.refl _).commits _
  | reconLuma =>
    refine lift (body := reconLumaBody) h fun u hu => ?_
    simp only [reconLumaBody, staged_bind_ok, State.requireRawRange, require_ok] at hu
    obtain ⟨_, hr, hu⟩ := hu
    exact (LoopEffect.forRange hu fun j v w _ h2 hv hw =>
      reconLumaAt_effect (by rw [hv.params]; omega) hw).commits _
  | reconChroma c =>
    refine lift (body := reconChromaBody c) h fun u hu => ?_
    simp only [reconChromaBody, staged_bind_ok, State.requireRawRange, require_ok, selectChroma_ok] at hu
    obtain ⟨k, hk, _, hr, hu⟩ := hu
    exact (LoopEffect.forRange hu fun j v w _ h2 hv hw =>
      reconChromaAt_effect (chromaOf_sizes hk _).2.2 (by rw [hv.params]; omega) hw).commits _
  | splitLuma =>
    refine lift (body := splitLumaBody) h fun u hu => ?_
    simp only [splitLumaBody, staged_bind_ok, State.requireRawRange, require_ok] at hu
    obtain ⟨_, hr, hu⟩ := hu
    exact (LoopEffect.forRange hu fun j v w _ h2 hv hw =>
      splitLumaAt_effect (by rw [hv.params]; omega) hw).commits _
  | splitChroma c =>
    refine lift (body := splitChromaBody c) h fun u hu => ?_
    simp only [splitChromaBody, staged_bind_ok, State.requireRawRange, require_ok, selectChroma_ok] at hu
    obtain ⟨k, hk, _, hr, hu⟩ := hu
    exact (LoopEffect.forRange hu fun j v w _ h2 hv hw =>
      splitChromaAt_effect (chromaOf_sizes hk _).1 (chromaOf_sizes hk _).2.1 (by rw [hv.params]; omega) hw).commits _
  | vdec =>
    refine lift (body := vdecBody) h fun u hu => ?_
    simp only [vdecBody, staged_bind_ok, require_ok] at hu
    obtain ⟨f, _, _, hr, _, _, v, hv, hu⟩ := hu
    simp only [Except.ok.injEq] at hu
    subst hu
    exact ((LoopEffect.forRange hv fun j v w _ h2 hv hw =>
      vdecAt_effect (by rw [hv.params]; omega) hw).commits _).withResult0 _
  | venc c =>
    refine lift (body := vencBody c) h fun u hu => ?_
    simp only [vencBody, staged_bind_ok, require_ok] at hu
    obtain ⟨k, _, f, _, _, _, _, hr, bytes, hb, hu⟩ := hu
    simp only [Except.ok.injEq] at hu
    subst hu
    refine (LoopEffect.writeRun _ _ _ _ ?_).commits _
    rw [List.length_map, encodeEntry_length hb]
    exact hr
  | stitchGen =>
    refine lift (body := stitchGenBody) h fun u hu => ?_
    simp only [stitchGenBody, staged_bind_ok, require_ok] at hu
    obtain ⟨f, _, _, hr, v, hv, hu⟩ := hu
    simp only [Except.ok.injEq] at hu
    subst hu
    have hv := (LoopEffect.forRange hv fun j v w _ h2 hv hw =>
      stitchGenAt_effect (by rw [hv.params]; omega) hw).commits (i := .stitchGen)
    have hc := hv.effect.cfg
    exact ⟨⟨hv.effect.params, by simp only; rw [hc], hv.effect.args, hv.effect.cmd, hv.effect.status,
      hv.effect.faultInfo, hv.effect.script, hv.effect.replies, hv.effect.draws, hv.effect.mem, hv.effect.frags⟩,
      fun hne => absurd rfl hne, hv.frags⟩
  | asmLine c =>
    refine lift (body := asmLineBody c) h fun u hu => ?_
    simp only [asmLineBody, staged_bind_ok, require_ok] at hu
    obtain ⟨k, _, f, _, _, _, e, _, _, hr, hu⟩ := hu
    exact (State.assembleLine_effect hr hu).commits _
  | asmBlank c =>
    refine lift (body := asmBlankBody c) h fun u hu => ?_
    simp only [asmBlankBody, staged_bind_ok, require_ok] at hu
    obtain ⟨k, _, f, _, _, _, _, hr, hu⟩ := hu
    simp only [Except.ok.injEq] at hu
    subst hu
    exact (State.writeBlank_effect hr).commits _
  | asmFrame c =>
    refine lift (body := asmFrameBody c) h fun u hu => ?_
    simp only [asmFrameBody, staged_bind_ok, require_ok] at hu
    obtain ⟨k, _, f, _, _, _, _, hr, hu⟩ := hu
    refine (LoopEffect.forRange hu fun j v w _ h2 hv hw => asmFrameAt_effect ?_ hw).commits _
    rw [hv.lineWidth, hv.params]
    exact Nat.le_trans (Nat.mul_le_mul_right _ (by omega)) hr
  | fragClear =>
    refine lift (body := fragClearBody) h fun u hu => ?_
    simp only [fragClearBody, Except.ok.injEq] at hu
    subst hu
    exact ⟨⟨rfl, rfl, rfl, rfl, rfl, rfl, rfl, rfl, rfl, .refl, .inl rfl⟩, fun _ => rfl, fun hne => absurd rfl hne⟩
  | fragQuery c =>
    refine lift (body := fragQueryBody c) h fun u hu => ?_
    simp only [fragQueryBody, staged_bind_ok] at hu
    obtain ⟨k, _, hu⟩ := hu
    simp only [Except.ok.injEq] at hu
    subst hu
    exact ((LoopEffect.refl s.staging).commits _).withResult0 _

end Sys2Proof.Machine
end

