-- ==== Sys2Proof/Laws/Frames.lean ====
section
/-! SUPPORT. Frames by element: which bytes a write can touch, which reads it leaves alone, and which values fit an element. -/

namespace Sys2Proof.Machine

/-- The bytes outside `inside` are unchanged. -/
def FrameOf (inside : Nat → Prop) (s t : State) : Prop := ∀ a, ¬inside a → t.mem.read a = s.mem.read a

/-- The bytes of elements k to k+n-1 of a space. -/
def Space.range (S : Space) (k n a : Nat) : Prop := S.addr k ≤ a ∧ a < S.addr (k + n)

/-- The bytes of slots k to k+n-1 of a class's vector file. -/
def ScaleClass.slotRange (cls : ScaleClass) (k n a : Nat) : Prop := cls.slotAddr k ≤ a ∧ a < cls.slotAddr (k + n)

theorem Space.addr_mono (S : Space) {k j : Nat} (h : k ≤ j) : S.addr k ≤ S.addr j :=
  Nat.add_le_add_left (Nat.mul_le_mul_right S.bytes h) _

theorem Space.addr_succ (S : Space) (k : Nat) : S.addr (k + 1) = S.addr k + S.bytes := by
  unfold Space.addr; rw [Nat.add_mul, Nat.one_mul, Nat.add_assoc]

theorem ScaleClass.slotAddr_mono (cls : ScaleClass) {k j : Nat} (h : k ≤ j) : cls.slotAddr k ≤ cls.slotAddr j :=
  Nat.add_le_add_left (Nat.mul_le_mul_right 16 h) _

theorem ScaleClass.slotAddr_succ (cls : ScaleClass) (k : Nat) : cls.slotAddr (k + 1) = cls.slotAddr k + 16 := by
  unfold ScaleClass.slotAddr; rw [Nat.add_mul, Nat.one_mul, Nat.add_assoc]

theorem FrameOf.refl (inside : Nat → Prop) (s : State) : FrameOf inside s s := fun _ _ => rfl

theorem FrameOf.trans {inside : Nat → Prop} {s t u : State} (h : FrameOf inside s t) (h' : FrameOf inside t u) :
    FrameOf inside s u := fun a ha => (h' a ha).trans (h a ha)

theorem FrameOf.mono {inside outside : Nat → Prop} {s t : State} (h : FrameOf inside s t)
    (hm : ∀ a, inside a → outside a) : FrameOf outside s t := fun a ha => h a fun h' => ha (hm a h')

theorem Space.range_mono {S : Space} {k n j m : Nat} (h1 : j ≤ k) (h2 : k + n ≤ j + m) (a : Nat) (h : S.range k n a) :
    S.range j m a :=
  ⟨Nat.le_trans (S.addr_mono h1) h.1, Nat.lt_of_lt_of_le h.2 (S.addr_mono h2)⟩

theorem ScaleClass.slotRange_mono {cls : ScaleClass} {k n j m : Nat} (h1 : j ≤ k) (h2 : k + n ≤ j + m) (a : Nat)
    (h : cls.slotRange k n a) : cls.slotRange j m a :=
  ⟨Nat.le_trans (cls.slotAddr_mono h1) h.1, Nat.lt_of_lt_of_le h.2 (cls.slotAddr_mono h2)⟩

theorem State.write_frame (s : State) (S : Space) (k : Nat) (v : Word) : FrameOf (S.range k 1) s (s.write S k v) := by
  intro a h
  refine State.byte_write_outside _ _ _ _ ?_
  simp only [Space.range, Space.addr_succ] at h
  omega

theorem State.writeSlot_frame (s : State) (cls : ScaleClass) (n : Nat) (e : VectorEntry) :
    FrameOf (cls.slotRange n 1) s (s.writeSlot cls n e) := by
  intro a h
  rw [State.writeSlot_mem]
  refine Memory.read_writeSlot_outside _ _ ?_
  simp only [ScaleClass.slotRange, ScaleClass.slotAddr_succ] at h
  omega

theorem State.writeRun_frame (s : State) (S : Space) (k : Nat) (xs : List Sample) :
    FrameOf (S.range k xs.length) s (s.writeRun S k xs) := by
  intro a h
  refine State.byte_writeRun_outside _ _ _ _ ?_
  simp only [Space.range] at h
  omega

/-- A change of elements k to k+n-1 of a space leaves every other element alone. -/
theorem FrameOf.read {s t : State} {S T : Space} {k n j : Nat} (h : FrameOf (S.range k n) s t) (hp : s.params.wf)
    (hk : k + n ≤ S.size s.params) (hj : j < T.size s.params) (hne : S ≠ T ∨ j < k ∨ k + n ≤ j) :
    t.read T j = s.read T j := by
  refine Memory.readLE_congr fun a h1 h2 => h a ?_
  rintro ⟨h3, h4⟩
  by_cases hn : n = 0
  · subst hn; simp only [Nat.add_zero] at h4; omega
  by_cases hST : S = T
  · subst hST
    rcases hne with h | h | h
    · exact h rfl
    · have := S.addr_mono (k := j + 1) (j := k) h; rw [Space.addr_succ] at this; omega
    · have := S.addr_mono h; omega
  · have a1 := Space.addr_add_bytes_le hp hj
    have a2 := Space.addr_add_bytes_le (S := S) (k := k + n - 1) hp (by omega)
    rw [← Space.addr_succ, show k + n - 1 + 1 = k + n by omega] at a2
    have h5 : spaceBase S.id ≤ S.addr k := Nat.le_add_right ..
    have h6 : spaceBase T.id ≤ T.addr j := Nat.le_add_right ..
    rcases spaceBase_apart (fun e => hST (Space.id_injective e)) with h | h <;> omega

/-- A change of elements of a space leaves the vector files alone. -/
theorem FrameOf.readSlot {s t : State} {S : Space} {cls : ScaleClass} {k n j : Nat} (h : FrameOf (S.range k n) s t)
    (hp : s.params.wf) (hk : k + n ≤ S.size s.params) (hj : j < s.params.vecCap) :
    t.readSlot cls j = s.readSlot cls j := by
  unfold State.readSlot
  refine Memory.readSlot_congr fun a h1 h2 => h a ?_
  rintro ⟨h3, h4⟩
  by_cases hn : n = 0
  · subst hn; simp only [Nat.add_zero] at h4; omega
  have a1 := ScaleClass.slotAddr_add_le hp (cls := cls) hj
  have a2 := Space.addr_add_bytes_le (S := S) (k := k + n - 1) hp (by omega)
  rw [← Space.addr_succ, show k + n - 1 + 1 = k + n by omega] at a2
  have h5 : spaceBase S.id ≤ S.addr k := Nat.le_add_right ..
  have h6 : spaceBase cls.vecId ≤ cls.slotAddr j := Nat.le_add_right ..
  rcases spaceBase_apart (Space.id_ne_vecId S cls) with h | h <;> omega

/-- A value that fits in the element reads back unchanged. -/
theorem State.read_write_fits (s : State) {S : Space} (k : Nat) {v : Word} (h : v.toNat < 2 ^ (8 * S.bytes)) :
    (s.write S k v).read S k = some v := by
  rw [State.read_write_same]
  congr 1
  apply BitVec.eq_of_toNat_eq
  simp only [BitVec.toNat_setWidth]
  rw [Nat.mod_eq_of_lt h, Nat.mod_eq_of_lt v.isLt]

/-- An element's value fits in the element. -/
theorem State.read_fits {s : State} {S : Space} {k : Nat} {v : Word} (h : s.read S k = some v) :
    v.toNat < 2 ^ (8 * S.bytes) := by
  rw [State.read_lt s h]
  simp only [BitVec.toNat_setWidth]
  exact Nat.lt_of_le_of_lt (Nat.mod_le _ _) (Nat.mod_lt _ (Nat.pow_pos (by decide)))

/-- A byte-wide element's value is its low byte. -/
theorem State.read_byte {s : State} {S : Space} {k : Nat} {v : Word} (hS : S.bytes = 1) (h : s.read S k = some v) :
    ((v.setWidth 8 : Byte).setWidth 32 : Word) = v := by
  have := State.read_fits h
  rw [hS] at this
  apply BitVec.eq_of_toNat_eq
  simp only [BitVec.toNat_setWidth]
  omega

end Sys2Proof.Machine
end

