-- ==== Sys2Proof/Laws/Invariants.lean ====
section
/-! SUPPORT. What writes of whole elements, and insertions of new keys, keep: the pieces that the invariants of Safety.lean are
assembled from. -/

namespace Sys2Proof.Machine

/-- An element is written as a whole or not at all, in a memory (10_state.md R42). -/
def wholeIn (p : Params) (m : Memory) : Prop :=
  (∀ S k a b, k < Space.size p S → Space.holds S k a → Space.holds S k b → (m.read a).isSome = (m.read b).isSome) ∧
  (∀ cls n a b, n < p.vecCap → ScaleClass.slotHolds cls n a → ScaleClass.slotHolds cls n b →
    (m.read a).isSome = (m.read b).isSome)

theorem wholeIn_iff (s : State) : s.wholeElements ↔ wholeIn s.params s.mem := Iff.rfl

theorem isSome_writeLE_inside {m : Memory} {a n x : Nat} {v : Word} (h : a ≤ x ∧ x < a + n) :
    ((m.writeLE a n v).read x).isSome = true := by
  rw [Memory.read_writeLE, if_pos h]; rfl

theorem MemSteps.whole {p : Params} (hp : p.wf) {m m' : Memory} (h : MemSteps p m m') (hm : wholeIn p m) :
    wholeIn p m' := by
  induction h with
  | refl => exact hm
  | @elem m1 S k v _ hk ih =>
    constructor
    · intro T j a b hj ha hb
      by_cases hST : S = T ∧ k = j
      · obtain ⟨rfl, rfl⟩ := hST
        rw [isSome_writeLE_inside ha, isSome_writeLE_inside hb]
      · have hd := Space.addr_apart hp hk hj (not_and_or.1 hST)
        obtain ⟨a1, a2⟩ := ha
        obtain ⟨b1, b2⟩ := hb
        rw [Memory.read_writeLE_outside _ _ (by omega), Memory.read_writeLE_outside _ _ (by omega)]
        exact ih.1 T j a b hj ⟨a1, a2⟩ ⟨b1, b2⟩
    · intro cls n a b hn ha hb
      have hd := Space.addr_apart_slot hp (cls := cls) hk hn
      obtain ⟨a1, a2⟩ := ha
      obtain ⟨b1, b2⟩ := hb
      rw [Memory.read_writeLE_outside _ _ (by omega), Memory.read_writeLE_outside _ _ (by omega)]
      exact ih.2 cls n a b hn ⟨a1, a2⟩ ⟨b1, b2⟩
  | @slot m1 cls n e _ hn _ ih =>
    constructor
    · intro T j a b hj ha hb
      have hd := Space.addr_apart_slot hp (cls := cls) hj hn
      obtain ⟨a1, a2⟩ := ha
      obtain ⟨b1, b2⟩ := hb
      rw [Memory.read_writeSlot_outside _ _ (by omega), Memory.read_writeSlot_outside _ _ (by omega)]
      exact ih.1 T j a b hj ⟨a1, a2⟩ ⟨b1, b2⟩
    · intro d j a b hj ha hb
      by_cases hcd : cls = d ∧ n = j
      · obtain ⟨rfl, rfl⟩ := hcd
        rw [Memory.isSome_writeSlot_inside _ _ ha, Memory.isSome_writeSlot_inside _ _ hb]
      · have hd := ScaleClass.slotAddr_apart hp hn hj (not_and_or.1 hcd)
        obtain ⟨a1, a2⟩ := ha
        obtain ⟨b1, b2⟩ := hb
        rw [Memory.read_writeSlot_outside _ _ (by omega), Memory.read_writeSlot_outside _ _ (by omega)]
        exact ih.2 d j a b hj ⟨a1, a2⟩ ⟨b1, b2⟩

/-- Every written slot of a memory holds a decoded entry, and a flags word of 0 or 1. -/
def slotsIn (p : Params) (m : Memory) : Prop :=
  ∀ cls n e, n < p.vecCap → m.readSlot (ScaleClass.slotAddr cls n) = some e →
    e.ok cls ∧ ∃ w, m.readLE (cls.slotAddr n + 12) 4 = some w ∧ (w = 0 ∨ w = 1)

theorem slotsIn_iff (s : State) : s.slotsOk ↔ slotsIn s.params s.mem := Iff.rfl

/-- The flags word of a written slot, where the slots hold decoded entries: HAS_FRONT and zeros (30_encoding.md R82). -/
theorem State.slotsOk.flags {s : State} (h : s.slotsOk) {cls : ScaleClass} {n : Nat} {e : VectorEntry}
    (hn : n < s.params.vecCap) (he : s.readSlot cls n = some e) :
    s.mem.readLE (cls.slotAddr n + 12) 4 = some (if e.hasFront then 1 else 0) := by
  obtain ⟨-, w, hw, h01⟩ := h cls n e hn he
  unfold State.readSlot Memory.readSlot at he
  rw [hw] at he ⊢
  split at he
  · next hg =>
    simp only [Option.some.injEq] at hg he
    subst hg he
    rcases h01 with rfl | rfl <;> simp
  · cases he

theorem MemSteps.slots {p : Params} (hp : p.wf) {m m' : Memory} (h : MemSteps p m m') (hm : slotsIn p m) :
    slotsIn p m' := by
  induction h with
  | refl => exact hm
  | @elem m1 S k v _ hk ih =>
    intro cls n e hn he
    have hd := Space.addr_apart_slot hp (cls := cls) hk hn
    have hr : ∀ x, cls.slotAddr n ≤ x → x < cls.slotAddr n + 16 →
        (m1.writeLE (S.addr k) S.bytes v).read x = m1.read x := fun x h1 h2 =>
      Memory.read_writeLE_outside _ _ (by omega)
    rw [Memory.readSlot_congr hr] at he
    rw [Memory.readLE_congr fun x h1 h2 => hr x (by omega) (by omega)]
    exact ih cls n e hn he
  | @slot m1 c n e _ hn hok ih =>
    intro d j e' hj he
    by_cases hcd : c = d ∧ n = j
    · obtain ⟨rfl, rfl⟩ := hcd
      rw [Memory.readSlot_writeSlot_same, Option.some.injEq] at he
      subst he
      rw [Memory.readLE_writeSlot_flags]
      refine ⟨hok, e.flags, rfl, ?_⟩
      unfold VectorEntry.flags
      split
      · exact .inr rfl
      · exact .inl rfl
    · have hd := ScaleClass.slotAddr_apart hp hn hj (not_and_or.1 hcd)
      have hr : ∀ x, d.slotAddr j ≤ x → x < d.slotAddr j + 16 →
          (m1.writeSlot (c.slotAddr n) e).read x = m1.read x := fun x h1 h2 =>
        Memory.read_writeSlot_outside _ _ (by omega)
      rw [Memory.readSlot_congr hr] at he
      rw [Memory.readLE_congr fun x h1 h2 => hr x (by omega) (by omega)]
      exact ih d j e' hj he

/-- A fragment map is a map, within a capacity, of entries with non-empty keys and that many samples. -/
def fragsIn (cap : Option Nat) (fs : List Fragment) : Prop :=
  fragsWf fs ∧ (∀ n, cap = some n → fs.length ≤ n) ∧
  ∀ f ∈ fs, f.key.rawLen ≠ 0 ∧ f.samples.length = f.key.rawLen.toNat * f.key.comp.rpc

theorem fragsIn_iff (s : State) : s.fragsOk ↔ fragsIn s.params.fragCap s.frags := Iff.rfl

theorem FragSteps.frags {cap : Option Nat} {fs gs : List Fragment} (h : FragSteps cap fs gs) (hf : fragsIn cap fs) :
    fragsIn cap gs := by
  induction h with
  | refl => exact hf
  | insert f _ hnew hroom hlen hsamples ih =>
    obtain ⟨h1, h2, h3⟩ := ih
    refine ⟨fragInsert_wf h1 hnew, fun n hn => ?_, fun g hg => ?_⟩
    · rw [length_fragInsert]
      have := h2 n hn
      have : n ≠ _ := fun e => hroom (by rw [hn, e])
      omega
    · rcases mem_fragInsert.1 hg with rfl | hg
      · exact ⟨hlen, hsamples⟩
      · exact h3 g hg

theorem fragsIn_nil (cap : Option Nat) : fragsIn cap [] :=
  ⟨List.Pairwise.nil, fun _ _ => Nat.zero_le _, fun _ h => absurd h (by simp)⟩

end Sys2Proof.Machine
end

