-- ==== Sys2Proof/Laws/Host.lean ====
section
/-! SUPPORT. What one host access can do: `step_cases` names the eight ways a step ends. -/

namespace Sys2Proof.Machine

theorem elementAt_lt {off bytes width size k : Nat} (h : elementAt off bytes width size = some k) : k < size := by
  unfold elementAt at h
  split at h
  · next hc => simp only [Option.some.injEq] at h; omega
  · simp at h

/-- An access names an element that exists (20_memory.md R58). -/
theorem target_elem_lt {p : Params} {a : Word} {n : Nat} {S : Space} {k : Nat} (h : target p a n = some (.elem S k)) :
    k < S.size p := by
  unfold target at h
  split at h
  · simp only [Option.map_eq_some_iff, reduceCtorEq, and_false, exists_false] at h
  · split at h
    · next T _ =>
      simp only [Option.map_eq_some_iff, Target.elem.injEq] at h
      obtain ⟨j, hj, rfl, rfl⟩ := h
      exact elementAt_lt hj
    · split at h
      · simp only [Option.map_eq_some_iff, reduceCtorEq, and_false, exists_false] at h
      · simp at h

/-- What a host write does to a register other than CMD: a soft reset, a new configuration or argument register, or
nothing. -/
theorem writeReg_cases {s t : State} {r : Reg} {v : Word} (h : s.writeReg r v = .next t) :
    (r = .cmd ∧ issueCommand v s = .next t) ∨ (r = .ctrl ∧ v.getLsbD 0 = true ∧ t = s.softReset) ∨
    (∃ c, t = s.setCfg c) ∨ (∃ a, t = s.setArgs a) ∨ t = s := by
  cases r <;> simp only [State.writeReg, Host.Outcome.next.injEq] at h
  case cmd => exact .inl ⟨rfl, h⟩
  case ctrl =>
    split at h
    · next hv => exact .inr (.inl ⟨rfl, hv, h.symm⟩)
    · exact .inr (.inr (.inr (.inr h.symm)))
  all_goals first
    | exact .inr (.inr (.inr (.inr h.symm)))
    | exact .inr (.inr (.inl ⟨_, h.symm⟩))
    | exact .inr (.inr (.inr (.inl ⟨_, h.symm⟩)))

/-- What a host write of CMD does (60_exceptions.md R133): nothing but the store while ERR = 1, an ILLEGAL fault, or the
command. -/
theorem issueCommand_cases {s t : State} {w : Word} (h : issueCommand w s = .next t) :
    (s.status.err = true ∧ t = s.setCmd w) ∨
    (s.status.err = false ∧
      ((∃ r, decode w = .error r ∧ t = (s.setCmd w).startCommand.takeFault (atReg .illegal .cmd)) ∨
       (∃ i, decode w = .ok i ∧ exec i (s.setCmd w).startCommand = .next t))) := by
  unfold issueCommand at h
  split at h
  · next he => exact .inl ⟨he, by simpa using h.symm⟩
  · next he =>
    refine .inr ⟨by simpa using he, ?_⟩
    unfold runWord at h
    split at h
    · next i hi => exact .inr ⟨i, hi, h⟩
    · next r hr => exact .inl ⟨r, hr, by simpa using h.symm⟩

/-- What a host read does: the host receives a value, and a refused read sets HOSTERR. -/
theorem hostRead_cases (a : Word) (n : Nat) (s : State) :
    (∃ v, hostRead a n s = s.reply v) ∨ hostRead a n s = s.replyFree n ∨
    hostRead a n s = s.refuseAccess.replyFree n := by
  unfold hostRead
  split
  · exact .inr (.inr rfl)
  · split
    · exact .inl ⟨_, rfl⟩
    · exact .inr (.inl rfl)

/-- The ways a step that answers a next state can end. `s'` is the state with the access taken from the script. -/
theorem step_cases {s t : State} (h : step s = .next t) :
    (s.script = [] ∧ t = s) ∨
    ∃ acc rest, s.script = acc :: rest ∧
      ((∃ v, t = State.reply { s with script := rest } v) ∨
       (∃ n, t = State.replyFree { s with script := rest } n) ∨
       (∃ n, t = (State.refuseAccess { s with script := rest }).replyFree n) ∨
       (t = State.refuseAccess { s with script := rest }) ∨
       (∃ S k v, k < Space.size s.params S ∧ t = State.write { s with script := rest } S k v) ∨
       (∃ a n v r, acc = .write a n v ∧ target s.params a n = some (.reg (some r)) ∧
         State.writeReg { s with script := rest } r v = .next t) ∨
       (t = { s with script := rest })) := by
  unfold step hostStep at h
  split at h
  · next hs => exact .inl ⟨hs, by simpa using h.symm⟩
  · next acc rest hs =>
    refine .inr ⟨acc, rest, hs, ?_⟩
    unfold hostAccess at h
    split at h
    · simp at h
    · split at h
      · next a n _ =>
        simp only [Host.Outcome.next.injEq] at h
        subst h
        rcases hostRead_cases a n { s with script := rest } with ⟨v, e⟩ | e | e
        · exact .inl ⟨v, e⟩
        · exact .inr (.inl ⟨n, e⟩)
        · exact .inr (.inr (.inl ⟨n, e⟩))
      · next a n v _ =>
        unfold hostWrite at h
        split at h
        · simp only [Host.Outcome.next.injEq] at h
          exact .inr (.inr (.inr (.inl h.symm)))
        · next r hr => exact .inr (.inr (.inr (.inr (.inr (.inl ⟨a, n, v, r, rfl, hr, h⟩)))))
        · simp only [Host.Outcome.next.injEq] at h
          exact .inr (.inr (.inr (.inr (.inr (.inr h.symm)))))
        · next S k hk =>
          simp only [Host.Outcome.next.injEq] at h
          exact .inr (.inr (.inr (.inr (.inl ⟨S, k, v, target_elem_lt hk, h.symm⟩))))
        · simp only [Host.Outcome.next.injEq] at h
          exact .inr (.inr (.inr (.inl h.symm)))

/-! ## An access, by its address -/

/-- A step that meets a write between two commands performs it. -/
theorem step_write {s : State} {a v : Word} {n : Nat} {rest : List HostAccess} (hs : s.script = .write a n v :: rest)
    (hb : s.status.busy = false) : step s = hostWrite a n v { s with script := rest } := by
  unfold step hostStep
  rw [hs]
  simp only [hostAccess, hb, Bool.false_and, Bool.false_eq_true, if_false]

/-- A step that meets a read between two commands performs it. -/
theorem step_read {s : State} {a : Word} {n : Nat} {rest : List HostAccess} (hs : s.script = .read a n :: rest)
    (hb : s.status.busy = false) : step s = .next (hostRead a n { s with script := rest }) := by
  unfold step hostStep
  rw [hs]
  simp only [hostAccess, hb, Bool.false_and, Bool.false_eq_true, if_false]

theorem target_cmd (p : Params) : target p Reg.cmd.addr 4 = some (.reg (some .cmd)) := rfl

/-- A step that meets a write of CMD issues the command (60_exceptions.md R133). -/
theorem step_cmd {s : State} {w : Word} {rest : List HostAccess} (hs : s.script = .write Reg.cmd.addr 4 w :: rest)
    (hb : s.status.busy = false) : step s = issueCommand w { s with script := rest } := by
  rw [step_write hs hb, hostWrite, target_cmd]
  rfl

/-- The space id and the byte offset of a host byte address `id << 24 | offset` (20_memory.md R49). -/
theorem addr_fields {i off : Nat} (hi : i < 256) (ho : off < 2 ^ 24) :
    (addrSpace (BitVec.ofNat 32 (i * 2 ^ 24 + off))).toNat = i ∧ addrOffset (BitVec.ofNat 32 (i * 2 ^ 24 + off)) = off := by
  have hlt : i * 2 ^ 24 + off < 2 ^ 32 := by omega
  have h1 : (i * 2 ^ 24 + off) / 2 ^ 24 % 2 ^ 8 = i := by omega
  have h2 : (i * 2 ^ 24 + off) % 2 ^ 24 = off := by omega
  generalize i * 2 ^ 24 + off = x at *
  constructor
  · unfold addrSpace
    rw [BitVec.extractLsb'_toNat, BitVec.toNat_ofNat, Nat.shiftRight_eq_div_pow, Nat.mod_eq_of_lt hlt, h1]
  · unfold addrOffset
    rw [BitVec.extractLsb'_toNat, BitVec.toNat_ofNat, Nat.shiftRight_eq_div_pow, Nat.mod_eq_of_lt hlt, Nat.pow_zero,
      Nat.div_one, h2]

/-- A host byte address is given by its space id and its byte offset. -/
theorem addr_of_fields (a : Word) : a.toNat = (addrSpace a).toNat * 2 ^ 24 + addrOffset a ∧ addrOffset a < 2 ^ 24 := by
  have := a.isLt
  simp only [addrSpace, addrOffset, BitVec.extractLsb'_toNat, Nat.shiftRight_eq_div_pow]
  omega

theorem Reg.ofOffset_offset (r : Reg) : Reg.ofOffset r.offset = some r := by cases r <;> decide

theorem Reg.offset_of_ofOffset {off : Nat} {r : Reg} (h : Reg.ofOffset off = some r) : r.offset = off := by
  have := List.find?_some h
  simpa using this

/-- Only a 32-bit access at a register's own address names the register (20_memory.md R59). -/
theorem target_reg {p : Params} {a : Word} {n : Nat} {r : Reg} (h : target p a n = some (.reg (some r))) :
    a = r.addr ∧ n = 4 := by
  unfold target at h
  split at h
  · next h0 =>
    simp only [Option.map_eq_some_iff, Target.reg.injEq] at h
    obtain ⟨k, hk, hr⟩ := h
    unfold elementAt at hk
    split at hk
    · next hc =>
      simp only [Option.some.injEq] at hk
      have ho := Reg.offset_of_ofOffset hr
      obtain ⟨ha, hlt⟩ := addr_of_fields a
      rw [h0] at ha
      refine ⟨BitVec.eq_of_toNat_eq ?_, hc.1⟩
      rw [Reg.addr, BitVec.toNat_ofNat, ha]
      have h00 : (0 : BitVec 8).toNat = 0 := rfl
      have : addrOffset a < 4 * 64 := by have := Nat.div_lt_iff_lt_mul (x := addrOffset a) (y := 64) (k := 4) (by decide); omega
      rw [h00, ho]
      omega
    · simp at hk
  · split at h
    · simp [Option.map_eq_some_iff] at h
    · split at h
      · simp [Option.map_eq_some_iff] at h
      · simp at h

/-- A 4-byte access at a register's offset of space 0x00 names the register (10_state.md R23, 20_memory.md R49). -/
theorem target_of_reg (p : Params) (r : Reg) : target p r.addr 4 = some (.reg (some r)) := by cases r <;> rfl

/-- The four flag bits of STATUS as a number. -/
theorem flagBits (b d e h : Bool) : flagBit b 0 ||| flagBit d 1 ||| flagBit e 2 ||| flagBit h 3 =
    BitVec.ofNat 32 (b.toNat + 2 * d.toNat + 4 * e.toNat + 8 * h.toNat) := by revert b d e h; decide

/-- Two fields side by side, as a sum. -/
theorem or_shifted {x c k : Nat} (h : x < 2 ^ k) : x ||| c * 2 ^ k = c * 2 ^ k + x := by
  rw [Nat.or_comm, Nat.mul_comm, Nat.two_pow_add_eq_or_of_lt h]

/-- STATUS as the host reads it, as a sum of its fields (10_state.md R25). -/
theorem Status.toNat_toWord (t : Status) : t.toWord.toNat =
    t.busy.toNat + 2 * t.done.toNat + 4 * t.err.toNat + 8 * t.hosterr.toNat + 2 ^ 8 * t.errcode.toNat +
      2 ^ 16 * t.errop.toNat := by
  have hc := t.errcode.isLt
  have ho := t.errop.isLt
  have hb := t.busy.toNat_lt
  have hd := t.done.toNat_lt
  have he := t.err.toNat_lt
  have hh := t.hosterr.toNat_lt
  unfold Status.toWord
  rw [flagBits]
  generalize hx : t.busy.toNat + 2 * t.done.toNat + 4 * t.err.toNat + 8 * t.hosterr.toNat = x
  simp only [BitVec.toNat_or, BitVec.toNat_ofNat, BitVec.toNat_shiftLeft, BitVec.toNat_setWidth, Nat.shiftLeft_eq]
  rw [Nat.mod_eq_of_lt (by omega : x < 2 ^ 32), Nat.mod_eq_of_lt (by omega : t.errcode.toNat < 2 ^ 32),
    Nat.mod_eq_of_lt (by omega : t.errop.toNat < 2 ^ 32), Nat.mod_eq_of_lt (by omega), Nat.mod_eq_of_lt (by omega),
    or_shifted (by omega : x < 2 ^ 8), or_shifted (by omega)]
  omega

/-- FAULT_INFO as the host reads it, as a sum of its fields (10_state.md R35). -/
theorem FaultInfo.toNat_toWord (f : FaultInfo) : f.toWord.toNat = 2 ^ 24 * f.space.toNat + f.index.toNat := by
  unfold FaultInfo.toWord
  rw [BitVec.toNat_append, Nat.shiftLeft_eq, Nat.mul_comm, ← Nat.two_pow_add_eq_or_of_lt f.index.isLt]

end Sys2Proof.Machine
end

