-- ==== Sys2Proof/Laws/PerInstr.lean ====
section
/-! SUPPORT. Statements made for each command as syntax: its word decodes to it, leaves the reserved bits 0, and belongs to
the one row of the opcode table that bears its mnemonic. And the opcode table's rows do not overlap. -/

namespace Sys2Proof

/-- No word belongs to two rows of the opcode table: every pair of rows differs in a bit that both masks fix. -/
theorem opcodeRows_disjoint :
    opcodeRows.Pairwise (fun r q => r.pattern &&& (r.mask &&& q.mask) ≠ q.pattern &&& (r.mask &&& q.mask)) := by
  decide

end Sys2Proof

namespace Sys2Proof.Laws.RoundTrip

/-- The command's word decodes to the command, has RSVD = 0, and is taken by the rows that bear the command's mnemonic, and by no
other (30_encoding.md R68, R69, R73, R87). -/
def Statement (i : Instr) : Prop :=
  decode (encode i) = .ok i ∧ rsvdField (encode i) = 0 ∧
    (opcodeRows.filter (fun r => r.takes (encode i))).map OpcodeRow.mnemonic = [mnemonicOf i]

theorem nop : Statement .nop := ⟨rfl, by decide, by decide⟩

theorem reconLuma : Statement .reconLuma := ⟨rfl, by decide, by decide⟩

theorem reconChroma (c : Comp) : Statement (.reconChroma c) := by cases c <;> exact ⟨rfl, by decide, by decide⟩

theorem splitLuma : Statement .splitLuma := ⟨rfl, by decide, by decide⟩

theorem splitChroma (c : Comp) : Statement (.splitChroma c) := by cases c <;> exact ⟨rfl, by decide, by decide⟩

theorem vdec : Statement .vdec := ⟨rfl, by decide, by decide⟩

theorem venc (c : Comp) : Statement (.venc c) := by cases c <;> exact ⟨rfl, by decide, by decide⟩

theorem stitchGen : Statement .stitchGen := ⟨rfl, by decide, by decide⟩

theorem asmLine (c : Comp) : Statement (.asmLine c) := by cases c <;> exact ⟨rfl, by decide, by decide⟩

theorem asmBlank (c : Comp) : Statement (.asmBlank c) := by cases c <;> exact ⟨rfl, by decide, by decide⟩

theorem asmFrame (c : Comp) : Statement (.asmFrame c) := by cases c <;> exact ⟨rfl, by decide, by decide⟩

theorem fragClear : Statement .fragClear := ⟨rfl, by decide, by decide⟩

theorem fragQuery (c : Comp) : Statement (.fragQuery c) := by cases c <;> exact ⟨rfl, by decide, by decide⟩

end Sys2Proof.Laws.RoundTrip
end

