-- ==== Sys2Proof/Machine/Script.lean ====
section
/-! DEFINITION. The host-script statements of 30_encoding.md R84 to R86 as lists of host accesses. The spec gives them for its
examples and programs (D37, "documentation only"); the machine does not depend on them. -/

namespace Sys2Proof.Machine

/-- `WR <reg>, <value>` (R84). -/
def wr (r : Reg) (v : Word) : HostAccess := .write r.addr 4 v

/-- The host byte address of element k of a space, as the host port takes it (20_memory.md R49). -/
def Space.hostAddr (S : Space) (k : Nat) : Word := BitVec.ofNat 32 (S.addr k)

/-- `LD <space>[<k>] = <v0>, <v1>, ...` (R84): consecutive elements starting at k. -/
def ld (S : Space) (k : Nat) : List Word → List HostAccess
  | [] => []
  | v :: vs => .write (S.hostAddr k) S.bytes v :: ld S (k + 1) vs

/-- `RD <space>[<k>]` (R84), of a space of plain elements. -/
def rd (S : Space) (k : Nat) : HostAccess := .read (S.hostAddr k) S.bytes

/-- `RD <reg>` (R84). -/
def rdReg (r : Reg) : HostAccess := .read r.addr 4

/-- The registers that a statement's operands go to, in order: ARG0 to ARG3, but ARG1 for ASM_BLANK (R85). -/
def operandRegs : Instr → List Reg
  | .nop => [.arg0, .arg1, .arg2, .arg3]
  | .reconLuma => [.arg0, .arg1, .arg2, .arg3]
  | .reconChroma _ => [.arg0, .arg1, .arg2, .arg3]
  | .splitLuma => [.arg0, .arg1, .arg2, .arg3]
  | .splitChroma _ => [.arg0, .arg1, .arg2, .arg3]
  | .vdec => [.arg0, .arg1, .arg2, .arg3]
  | .venc _ => [.arg0, .arg1, .arg2, .arg3]
  | .stitchGen => [.arg0, .arg1, .arg2, .arg3]
  | .asmLine _ => [.arg0, .arg1, .arg2, .arg3]
  | .asmBlank _ => [.arg1]
  | .asmFrame _ => [.arg0, .arg1, .arg2, .arg3]
  | .fragClear => [.arg0, .arg1, .arg2, .arg3]
  | .fragQuery _ => [.arg0, .arg1, .arg2, .arg3]

/-- `MN.C a0, a1, a2, a3` (R85): only the operands written appear; the CMD write comes last. -/
def statement (i : Instr) (ops : List Word) : List HostAccess :=
  List.zipWith wr (operandRegs i) ops ++ [wr .cmd (encode i)]

/-- `RECON_ALL` (R86), for plane chips of L bytes. -/
def reconAll (L : Word) : List HostAccess :=
  statement .reconLuma [0, L] ++ statement (.reconChroma .rY) [0, L] ++ statement (.reconChroma .bY) [0, L]

/-- `SPLIT_ALL` (R86). -/
def splitAll (L : Word) : List HostAccess :=
  statement .splitLuma [0, L] ++ statement (.splitChroma .rY) [0, L] ++ statement (.splitChroma .bY) [0, L]

/-- `VDEC_ALL` (R86): floor(VT_LEN / E) slots. -/
def vdecAll (vtLen : Nat) (f : Format) : List HostAccess :=
  statement .vdec [0, BitVec.ofNat 32 (vtLen / f.recBytes)]

/-- `FRAME_ALL` (R86). -/
def frameAll : List HostAccess :=
  statement (.asmFrame .luma) [] ++ statement (.asmFrame .rY) [] ++ statement (.asmFrame .bY) []

end Sys2Proof.Machine
end

