-- ==== Sys2Proof/Tests/Slice0.lean ====
section
/-! SUPPORT. The model's own tests. Expected values come from spec/: the words from 30_encoding.md R68 to R70 and R87, the results
from 95_test_vectors.md (the vector is named beside each). After them, a witness for every obligation that has hypotheses:
concrete states and operands that meet them together. -/

open Sys2Proof Sys2Proof.Machine Sys2Proof.Claims

set_option Elab.async false

namespace Sys2Proof.Tests

/-! ## Decoding: one word of each command, written out from R68 (RSVD, COMP, OPC) and R69 -/

def word (comp : BitVec 2) (opc : BitVec 8) : Word := (0 : BitVec 22) ++ comp ++ opc

theorem test_decode_session :
    decode (word 0b00 0b00000000) = .ok .nop ∧ decode (word 0b00 0b00110000) = .ok .fragClear ∧
    decode (word 0b11 0b00110001) = .ok (.fragQuery .bY) := by decide

theorem test_decode_planes :
    decode (word 0b00 0b00000001) = .ok .reconLuma ∧ decode (word 0b10 0b00000010) = .ok (.reconChroma .rY) ∧
    decode (word 0b00 0b00000011) = .ok .splitLuma ∧ decode (word 0b11 0b00000100) = .ok (.splitChroma .bY) := by decide

theorem test_decode_codec :
    decode (word 0b00 0b00010000) = .ok .vdec ∧ decode (word 0b01 0b00010001) = .ok (.venc .lumaLsb) := by decide

theorem test_decode_assembler :
    decode (word 0b00 0b00100000) = .ok .stitchGen ∧ decode (word 0b10 0b00100001) = .ok (.asmLine .rY) ∧
    decode (word 0b00 0b00100010) = .ok (.asmBlank .luma) ∧ decode (word 0b11 0b00100011) = .ok (.asmFrame .bY) := by decide

/-- V-S2 to V-S6: each reason of R73 by its name. -/
theorem test_decode_rejects :
    decode 0x00000005 = .error .reservedOpcode ∧ decode 0x00000101 = .error .compNotUsed ∧
    decode 0x00000400 = .error .reservedBits ∧ decode 0x80000000 = .error .reservedBits ∧
    decode 0x00000130 = .error .compNotUsed := by decide

theorem test_decodeTableWord :
    decodeTableWord 32 0x221 = some (.asmLine .rY) ∧ decodeTableWord 32 0x10 = some .vdec ∧
    decodeTableWord 32 0x101 = none := by decide

/-! ## WellFormed: an ill-formed term for each check, refused -/

theorem test_wf_refuses_lumaLsb :
    (Instr.fragQuery .lumaLsb).wf = false ∧ (Instr.venc .lumaLsb).wf = false ∧ (Instr.asmLine .lumaLsb).wf = false ∧
    (Instr.asmBlank .lumaLsb).wf = false ∧ (Instr.asmFrame .lumaLsb).wf = false := by decide

theorem test_wf_refuses_luma_for_chroma :
    (Instr.reconChroma .luma).wf = false ∧ (Instr.splitChroma .luma).wf = false ∧
    (Instr.reconChroma .lumaLsb).wf = false ∧ (Instr.splitChroma .lumaLsb).wf = false := by decide

theorem test_wf_takes : (Instr.reconChroma .bY).wf = true ∧ (Instr.fragQuery .luma).wf = true := by decide

/-! ## One step: a small state, a command word written to CMD, the result -/

/-- The parameters of 95_test_vectors.md; the OPEN patterns are three that no vector uses. -/
def prm : Params where
  romSize := .kib64
  cpuRomBytes := 0x200
  pat0 := { back := 1, centre := 1, front := 1 }
  pat1 := { back := 2, centre := 2, front := 2 }
  pat3 := { back := 3, centre := 3, front := 3 }
  lsbOrder := .normal
  bp169Mode := .raw
  whiteLuma := 777
  stitchCap := 64
  rasterCapY := 4096
  rasterCapC := 4096
  fragCap := none
  vecCap := 64

def base : State := State.powerOn prm

def put (s : State) (S : Space) (k : Nat) : List Word → State
  | [] => s
  | v :: vs => put (s.write S k v) S (k + 1) vs

def withArgs (s : State) (a b c d : Word) : State := { s with args := { arg0 := a, arg1 := b, arg2 := c, arg3 := d } }

/-- STD and the geometry in ROM-address units. -/
def withGeom (s : State) (std : BitVec 3) (bpl cl fpl : BitVec 16) : State :=
  { s with cfg := { s.cfg with std := std, geomBpl := bpl, geomCl := cl, geomFpl := fpl } }

def withTable (s : State) (std : BitVec 3) (start len : BitVec 24) : State :=
  { s with cfg := { s.cfg with std := std, vtStart := start, vtLen := len } }

/-- The next state of an outcome, if it is one. -/
def nextOf (o : Host.Outcome State Fault Refusal) : Option State :=
  match o with
  | .next t => some t
  | .fault _ => none
  | .refused _ => none

/-- The step that issues the command's word, and what is seen of its next state. -/
def seen {α : Type} (i : Instr) (s : State) (see : State → α) : Option α :=
  (nextOf (step (s.withFetchWord 32 (encode i).toNat))).map see

def run (S : Space) (k n : Nat) (t : State) : List (Option Word) := (List.range n).map fun i => t.read S (k + i)

def flags (t : State) : Word × Word × Word := (t.status.toWord, t.faultInfo.toWord, t.result0)

def chips (s : State) (m0 m1 m2 m3 sel : Word) : State :=
  put (put (put (put (put s .lmsb0 0 [m0]) .lmsb1 0 [m1]) .lmsb2 0 [m2]) .lmsb3 0 [m3]) .llsb 0 [sel]

/-- V-R1. -/
theorem test_reconLuma :
    seen .reconLuma (withArgs (chips base 0xFF 0x00 0x80 0x01 0x5A) 0 1 0 0) (fun t => (flags t, run .luma 0 4 t)) =
      some ((0x2, 0, 0), [some 1022, some 1, some 514, some 5]) := by decide +kernel

/-- V-R18: the range does not wrap. V-R21: the first unwritten byte. -/
theorem test_reconLuma_faults :
    seen .reconLuma (withArgs base 0xFFFFFFFF 2 0 0) flags = some (0x00010304, 0xFF000044, 0) ∧
    seen .reconLuma (withArgs base 0 1 0 0) flags = some (0x00010404, 0x01000000, 0) := by decide +kernel

/-- V-R16. -/
theorem test_reconChroma :
    seen (.reconChroma .rY) (withArgs (put (put base .ry0 5 [0x10]) .ry1 5 [0xF0]) 5 1 0 0) (run .ryp 10 2) =
      some [some 0x10, some 0xF0] := by decide +kernel

/-- V-R24, V-R25. -/
theorem test_reconChroma_faults :
    seen (.reconChroma .luma) base flags = some (0x00020204, 0xFF000050, 0) ∧
    seen (.reconChroma .lumaLsb) base flags = some (0x00020204, 0xFF000050, 0) := by decide +kernel

/-- V-R12. -/
theorem test_splitLuma :
    seen .splitLuma (withArgs (put base .luma 0 [341, 682, 1023, 256]) 0 1 0 0)
      (fun t => [t.read .lmsb0 0, t.read .lmsb1 0, t.read .lmsb2 0, t.read .lmsb3 0, t.read .llsb 0]) =
      some [some 0x55, some 0xAA, some 0xFF, some 0x40, some 0x65] := by decide +kernel

/-- V-R22, V-R23. -/
theorem test_splitLuma_faults :
    seen .splitLuma (withArgs (put base .luma 0 [1024, 0, 0, 0]) 0 1 0 0) (fun t => (flags t, t.written .lmsb0 0)) =
      some ((0x00030304, 0x10000000, 0), false) ∧
    seen .splitLuma (withArgs (put base .luma 0 [1, 2, 3]) 0 1 0 0) flags =
      some (0x00030404, 0x10000003, 0) := by decide +kernel

/-- V-R17. -/
theorem test_splitChroma :
    seen (.splitChroma .bY) (withArgs (put base .byp 0 [0x7F, 0x81]) 0 1 0 0) (fun t => [t.read .by0 0, t.read .by1 0]) =
      some [some 0x7F, some 0x81] := by decide +kernel

/-- V-D1 (L1.1) and V-D5. -/
theorem test_vdec :
    seen .vdec (withArgs (withTable (put base .cpurom 0 [0x02, 0x10, 0x20]) 0 0 3) 0 1 0 0)
      (fun t => (t.result0, t.readSlot .L 0, t.readSlot .C 0)) =
      some (1, some ⟨16384, 32768, 16640, true⟩, some ⟨8192, 16384, 8320, true⟩) ∧
    seen .vdec (withArgs (withTable (put base .cpurom 0 [0x12, 0x2C]) 1 0 2) 0 1 0 0)
      (fun t => (t.readSlot .L 0, t.readSlot .C 0)) =
      some (some ⟨1849344, 1853440, 0, false⟩, some ⟨925696, 926720, 0, false⟩) := by decide +kernel

/-- V-D13, V-D16: atomic. -/
theorem test_vdec_faults :
    seen .vdec (withArgs (withTable (put base .cpurom 0x10 [0x03, 0x00]) 1 0x10 4) 0 1 0 0) flags =
      some (0x00100304, 0x0A000010, 0) ∧
    seen .vdec (withArgs (withTable (put base .cpurom 0x10 [0x02, 0xFF, 0xFE]) 0 0x10 6) 0 2 0 0)
      (fun t => (flags t, t.readSlot .L 0)) = some ((0x00100404, 0x0A000013, 0), none) := by decide +kernel

/-- V-E2, V-E10. -/
theorem test_venc :
    seen (.venc .rY) (withArgs (withTable base 0 0 6) 1 8192 16384 8320) (run .cpurom 3 3) =
      some [some 0x02, some 0x10, some 0x20] ∧
    seen (.venc .bY) (withArgs (withTable base 1 0 4) 1 925696 926720 0) (run .cpurom 2 2) =
      some [some 0x12, some 0x2C] := by decide +kernel

/-- V-E5, V-E15. -/
theorem test_venc_faults :
    seen (.venc .luma) (withArgs (withTable base 0 0 6) 0 16384 32768 17664) flags = some (0x00110504, 0xFF00004C, 0) ∧
    seen (.venc .luma) (withArgs (withTable base 1 0 4) 0 0xFFFFFFFF 1024 0) flags =
      some (0x00110504, 0xFF000044, 0) := by decide +kernel

/-- V-A2, V-A3. -/
theorem test_stitchGen :
    seen .stitchGen (withArgs { base with cfg := { base.cfg with geomLpf := 312 } } 5 0 0 0)
      (fun t => (run .stitch 0 6 t, t.cfg.stitchLen)) =
      some ([some 0, some 313, some 1, some 314, some 2, none], 5) ∧
    seen .stitchGen (withArgs (withTable base 1 0 0) 3 0 0 0) (run .stitch 0 3) =
      some [some 0, some 1, some 2] := by decide +kernel

/-- The line of program P2: planes and slot as P2 leaves them. -/
def lineState : State :=
  withGeom ((put (put base .luma 0 [64, 128, 192, 256, 323, 387, 451, 515]) .luma 256 [940, 940, 940, 940]).writeSlot .L 0
    ⟨0, 0, 256, true⟩) 0 1 2 1

/-- P2. -/
theorem test_asmLine :
    seen (.asmLine .luma) lineState (fun t => (run .rasY 0 17 t, t.readReg .fragCount)) =
      some ([some 64, some 128, some 192, some 256, some 64, some 128, some 192, some 256] ++
        [some 323, some 387, some 451, some 515, some 940, some 940, some 940, some 940, none], 3) := by decide +kernel

/-- V-A10 (the map is full: nothing is left), V-A8. -/
theorem test_asmLine_faults :
    seen (.asmLine .luma) { lineState with params := { prm with fragCap := some 2 } }
      (fun t => (flags t, t.readReg .fragCount, t.written .rasY 0)) = some ((0x00210604, 0xFF00005C, 0), 0, false) ∧
    seen (.asmLine .luma) (base.writeSlot .L 0 ⟨0, 4096, 0, false⟩) flags =
      some (0x00210204, 0x18000000, 0) := by decide +kernel

/-- V-A12, V-A13. -/
theorem test_asmBlank :
    seen (.asmBlank .rY) (withArgs (withGeom base 2 1 2 1) 0 1 0 0) (run .rasRY 7 10) =
      some [none, some 128, some 128, some 128, some 128, some 128, some 128, some 128, some 128, none] ∧
    seen (.asmBlank .luma) base flags = some (0x00220204, 0xFF00000C, 0) := by decide +kernel

/-- The state of V-A15 before its ASM_FRAME, with the first stitch entry as given. -/
def frameState (entry : Word) : State :=
  let s := withGeom (put (put (put base .byp 0 [1, 2]) .byp 128 [9, 8]) .stitch 0 [entry, 0]) 2 1 1 1
  { s.writeSlot .C 0 ⟨0, 0, 128, true⟩ with cfg := { s.cfg with stitchLen := 2 } }

/-- V-A15. -/
theorem test_asmFrame :
    seen (.asmFrame .bY) (frameState 0x80000000) (fun t => (t.status.toWord, run .rasBY 0 12 t)) =
      some (0x2, [some 128, some 128, some 128, some 128, some 128, some 128] ++
        [some 1, some 2, some 1, some 2, some 9, some 8]) := by decide +kernel

/-- V-A16. -/
theorem test_asmFrame_fault :
    seen (.asmFrame .bY) (frameState 0x00100000) flags = some (0x00230204, 0x1A000000, 0) := by decide +kernel

/-- V-S1, V-S7: NOP, and a command ignored while ERR = 1. -/
theorem test_nop :
    seen .nop base flags = some (0x2, 0, 0) ∧
    seen .nop { base with status := { base.status with err := true, errcode := 1, errop := 5 } } flags =
      some (0x00050104, 0, 0) := by decide +kernel

/-- V-S2: an illegal word. -/
theorem test_illegal :
    (nextOf (step (base.withFetchWord 32 0x00000005))).map flags = some (0x00050104, 0xFF000050, 0) := by decide +kernel

/-- A map as program P2 leaves it, one entry of it. -/
def fragState : State :=
  { base with frags := [{ key := { comp := .luma, rawAddr := 0, rawLen := 2 }, samples := List.replicate 8 0 }] }

/-- V-S9. -/
theorem test_fragQuery :
    seen (.fragQuery .luma) (withArgs fragState 0 2 0 0) State.result0 = some 1 ∧
    seen (.fragQuery .rY) (withArgs fragState 0 2 0 0) State.result0 = some 0 := by decide +kernel

/-- V-S11. -/
theorem test_fragClear :
    seen .fragClear fragState (fun t => (t.readReg .fragCount, t.result0)) = some (0, 0) := by decide +kernel

/-- V-S12, and a misaligned host access (R54): refused. -/
theorem test_host_refusals :
    (nextOf (step { base with script := [.write 0x18000000 4 0] })).map (fun t => (t.status.toWord, t.mem)) =
      some (0x8, []) ∧
    (nextOf (step { base with script := [.write 0x10000001 2 0] })).map (fun t => (t.status.toWord, t.mem)) =
      some (0x8, []) := by decide +kernel

/-- R52: a 16-bit element is little-endian on the host port. R24: the soft reset. -/
theorem test_host_writes :
    (nextOf (step { base with script := [.write 0x10000002 2 0x0FFF] })).map State.mem =
      some [(0x10000002, 0xFF), (0x10000003, 0x0F)] ∧
    nextOf (step { frameState 0 with script := [wr .ctrl 1] }) = some base := by decide +kernel

/-! ## Witnesses: for every obligation with hypotheses, states and operands that meet them together. Where a hypothesis is
about a range, the witness stands at its edge. -/

/-- A property of every raw address in the operand range, from the property of each offset. -/
theorem forall_inRange {s : State} {P : Nat → Prop} (h : ∀ j, j < s.args.arg1.toNat → P (s.args.arg0.toNat + j)) :
    ∀ i, InRange s i → P i := by
  intro i hi
  obtain ⟨h1, h2⟩ := hi
  have := h (i - s.args.arg0.toNat) (by omega)
  rwa [Nat.add_sub_cancel' h1] at this

/-- The same for the part of the range below an address that is its start. -/
theorem forall_below {s : State} {P : Nat → Prop} :
    ∀ i, InRange s i → i < s.args.arg0.toNat → P i := fun i h hlt => absurd h.1 (by omega)

/-- A property of the numbers from a up to k, when there are none. -/
theorem none_between {a k : Nat} {P : Nat → Prop} (h : k ≤ a) : ∀ j, a ≤ j → j < k → P j :=
  fun j h1 h2 => absurd h2 (by omega)

/-- The same, when there is one. -/
theorem one_between {a k : Nat} {P : Nat → Prop} (h : k = a + 1) (hp : P a) : ∀ j, a ≤ j → j < k → P j := by
  intro j h1 h2
  obtain rfl : j = a := by omega
  exact hp

/-- A property of the numbers from a up to x, from the property of each offset. -/
theorem forall_between {a x : Nat} {P : Nat → Prop} (h : ∀ j, j < x - a → P (a + j)) : ∀ y, a ≤ y → y < x → P y := by
  intro y h1 h2
  have := h (y - a) (by omega)
  rwa [Nat.add_sub_cancel' h1] at this

theorem segReadable_of {s : State} {c : Component} {g : Nat × Nat}
    (h : (g.1 + g.2 ≤ c.plane.size s.params ∧ ∀ j, j < g.2 → (s.read c.plane (g.1 + j)).isSome)) : SegReadable s c g := by
  refine .inr ⟨h.1, fun k h1 h2 => ?_⟩
  have := h.2 (k - g.1) (by omega)
  rwa [Nat.add_sub_cancel' h1] at this

/-- A map of unbounded capacity has room. -/
theorem room_of_unbounded {s : State} (keys : List FragKey) (h : s.params.fragCap = none) : Room s keys := by
  intro cap hc; rw [h] at hc; cases hc

theorem room_of_cap {s : State} {keys : List FragKey} (n : Nat) (h : s.params.fragCap = some n)
    (hn : s.frags.length + newKeys s keys ≤ n) : Room s keys := by
  intro cap hc
  rw [h] at hc
  cases hc
  exact hn

theorem prm_wf : prm.wf := by decide

/-- The host's next access is the write of a command word; a state, and the same with ERR = 1. -/
def sends (s : State) (w : Word) : State := { s with script := [.write 0x00000050 4 w] }
def faulted (s : State) : State := { s with status := { s.status with err := true, errcode := 1, errop := 5 } }

theorem witness_resetLeaves : ∃ s : State, s.status.busy = false ∧ NextIsSoftReset s :=
  ⟨{ faulted lineState with script := [.write 0x00000004 4 0xFFFFFFFF] }, by decide, _, _, rfl, by decide⟩

/-- A reserved opcode, an RSVD bit, and COMP with an opcode that does not use it. -/
theorem witness_illegalWordsFault :
    (∀ w ∈ ([0x00000005, 0x00000400, 0x80000000, 0x00000101] : List Word),
      ∃ s rest, NextIsCmd s w rest ∧ s.status.err = false ∧ IllegalWord w) ∧
    (∃ w i row, decode w = .ok i ∧ row ∈ opcodeRows ∧ row.takes w = true) := by
  refine ⟨fun w hw => ⟨sends base w, [], ⟨rfl, rfl⟩, rfl, ?_⟩, 0x00000321, .asmLine .bY,
    ⟨"ASM_LINE", 0x00000021, 0xFFFFFCFF⟩, by decide, by simp [opcodeRows], by decide⟩
  simp only [List.mem_cons, List.not_mem_nil, or_false] at hw
  rcases hw with rfl | rfl | rfl | rfl <;> simp [IllegalWord, noCompOpcodes, compOpcodes]

theorem witness_stepRunsDecodedCommand :
    ∃ s w rest i, NextIsCmd s w rest ∧ s.status.err = false ∧ decode w = .ok i :=
  ⟨sends base 0x00000311, 0x00000311, [], .venc .bY, ⟨rfl, rfl⟩, rfl, by decide⟩

theorem witness_faultIsStickyUntilReset :
    (∃ s w rest, NextIsCmd s w rest ∧ s.status.err = true) ∧ (∃ s t, s.status.err = true ∧ step s = .next t) :=
  ⟨⟨sends (faulted base) 0x30, 0x30, [], ⟨rfl, rfl⟩, rfl⟩, faulted base, faulted base, rfl, rfl⟩

theorem witness_faultIsPrecise :
    (∃ (body : State → Staged State) (s : State) (f : Raised), body { s with result0 := 0 } = .error f) ∧
    (∃ i s t, s.status.err = false ∧ exec i s = .next t ∧ t.status.err = true) :=
  ⟨⟨fun _ => .error (atReg .range .arg0), base, _, rfl⟩, .asmLine .lumaLsb, base, _, rfl, rfl, rfl⟩

theorem witness_commandsLeave : ∃ i s t, exec i s = .next t ∧ t.status.err = false := ⟨.nop, base, _, rfl, rfl⟩

/-- The least and the greatest reserved value of STD. -/
theorem witness_reservedStandard :
    ∀ std ∈ ([4, 7] : List (BitVec 3)), ∃ s c, s.cfg.std = std ∧ ¬StdOk s ∧ c ≠ Comp.lumaLsb := by
  intro std h
  refine ⟨withTable base std 0 0, .rY, rfl, ?_, by decide⟩
  revert std; unfold StdOk; decide

/-- A fault, a VDEC that commits, a FRAG_QUERY that hits, and another command. -/
theorem witness_resultRegister :
    (∃ i s t, s.status.err = false ∧ exec i s = .next t ∧ t.status.err = true) ∧
    (∃ s t, s.status.err = false ∧ exec .vdec s = .next t ∧ t.status.err = false) ∧
    (∃ s t c k, s.status.err = false ∧ exec (.fragQuery c) s = .next t ∧ t.status.err = false ∧ componentOf c = some k ∧
      s.frags.any (fun f => f.key == { comp := k, rawAddr := s.args.arg0, rawLen := s.args.arg1 }) = true) ∧
    (∃ i s t, s.status.err = false ∧ exec i s = .next t ∧ t.status.err = false ∧ i ≠ .vdec ∧ ∀ c, i ≠ .fragQuery c) :=
  ⟨⟨.asmLine .lumaLsb, base, _, rfl, rfl, rfl⟩, ⟨base, _, rfl, rfl, by decide⟩,
    ⟨withArgs fragState 0 2 0 0, _, .luma, .luma, rfl, rfl, rfl, rfl, by decide⟩,
    .nop, base, _, rfl, rfl, rfl, by decide, fun _ => by simp⟩

theorem witness_nopCompletes : ∃ s rest, NextIsCmd s 0x00000000 rest ∧ s.status.err = true :=
  ⟨sends (faulted base) 0, [], ⟨rfl, rfl⟩, rfl⟩

theorem witness_fragQueryCompletes :
    (∃ c k, componentOf c = some k) ∧
    (∃ s c t, s.fragsOk ∧ s.frags ≠ [] ∧ s.status.err = false ∧ s.args.arg1 = 0 ∧ c ≠ .lumaLsb ∧
      exec (.fragQuery c) s = .next t) :=
  ⟨⟨.bY, .bY, rfl⟩, fragState, .luma, _,
    ⟨by decide, (fun n h => by cases h), by decide⟩,
    by decide, rfl, rfl, by decide, rfl⟩

theorem witness_packUnpack : ∃ p : Nat, p < 4 := ⟨3, by decide⟩

/-- The last raw address of a chip: `i0 + n = L`. -/
def lastByte (s : State) : State := withArgs s 65535 1 0 0

def lastChips : State :=
  lastByte (put (put (put (put (put base .lmsb0 65535 [1]) .lmsb1 65535 [2]) .lmsb2 65535 [3]) .lmsb3 65535 [4]) .llsb 65535 [5])

theorem witness_reconLuma :
    ∃ s : State, s.params.wf ∧ RangeOk s ∧ (∀ i, InRange s i → ∀ S ∈ lumaChips, (s.read S i).isSome) ∧
      ∃ i p m sel, InRange s i ∧ p < 4 ∧ s.read (msbChip p) i = some m ∧ s.read .llsb i = some sel :=
  ⟨lastChips, prm_wf, by unfold RangeOk; decide +kernel, forall_inRange (by decide +kernel),
    65535, 3, 4, 5, by unfold InRange; decide +kernel, by decide, by decide +kernel, by decide +kernel⟩

def lastPair : State := lastByte (put (put base .by0 65535 [1]) .by1 65535 [2])

theorem witness_reconChroma :
    ∃ s c c0 c1 plane, s.params.wf ∧ Chroma c c0 c1 plane ∧ RangeOk s ∧
      (∀ i, InRange s i → (s.read c0 i).isSome ∧ (s.read c1 i).isSome) ∧ ∃ i, InRange s i :=
  ⟨lastPair, .bY, .by0, .by1, .byp, prm_wf, .inr (by decide), by unfold RangeOk; decide +kernel,
    forall_inRange (by decide +kernel), 65535, by unfold InRange; decide +kernel⟩

/-- The last four luma samples, the greatest legal value among them. -/
def lastLuma : State := lastByte (put base .luma 262140 [0, 1, 1022, 1023])

theorem witness_splitLuma :
    ∃ s : State, s.params.wf ∧ RangeOk s ∧
      (∀ i p, InRange s i → p < 4 → ∃ v, s.read .luma (4 * i + p) = some v ∧ v.toNat ≤ 1023) ∧
      ∃ i v0 v1 v2 v3, InRange s i ∧ s.read .luma (4 * i) = some v0 ∧ s.read .luma (4 * i + 1) = some v1 ∧
        s.read .luma (4 * i + 2) = some v2 ∧ s.read .luma (4 * i + 3) = some v3 := by
  refine ⟨lastLuma, prm_wf, by unfold RangeOk; decide +kernel, ?_, 65535, 0, 1, 1022, 1023,
    by unfold InRange; decide +kernel, by decide +kernel, by decide +kernel, by decide +kernel, by decide +kernel⟩
  intro i p hi hp
  have h : ∀ p < 4, (lastLuma.read .luma (4 * 65535 + p)).any (fun v => v.toNat ≤ 1023) = true := by decide +kernel
  have e : i = 65535 := by
    obtain ⟨h1, h2⟩ := hi
    have a0 : lastLuma.args.arg0.toNat = 65535 := rfl
    have a1 : lastLuma.args.arg1.toNat = 1 := rfl
    omega
  subst e
  have := h p hp
  obtain ⟨v, hv⟩ := Option.isSome_iff_exists.mp (Option.isSome_of_any this)
  rw [hv] at this
  exact ⟨v, hv, by simpa using this⟩

def lastChroma : State := lastByte (put base .byp 131070 [7, 8])

theorem witness_splitChroma :
    ∃ s c c0 c1 plane, s.params.wf ∧ Chroma c c0 c1 plane ∧ RangeOk s ∧
      (∀ i, InRange s i → (s.read plane (2 * i)).isSome ∧ (s.read plane (2 * i + 1)).isSome) ∧ ∃ i, InRange s i :=
  ⟨lastChroma, .bY, .by0, .by1, .byp, prm_wf, .inr (by decide), by unfold RangeOk; decide +kernel,
    forall_inRange (by decide +kernel), 65535, by unfold InRange; decide +kernel⟩

/-- One byte past the chip's end. -/
theorem witness_rawRangeFaults :
    ∃ s c, (c = Comp.rY ∨ c = .bY) ∧ ¬RangeOk s ∧ s.args.arg0.toNat + s.args.arg1.toNat = s.params.romBytes + 1 :=
  ⟨withArgs base 65535 2 0 0, .rY, .inl rfl, by unfold RangeOk; decide +kernel, by decide +kernel⟩

/-- The last chip of the order is the first unwritten one; and C1 of a chroma pair. -/
theorem witness_reconFaults :
    (∃ (s : State) (i : Nat) (S : Space) (before after : List Space), s.params.wf ∧ RangeOk s ∧ InRange s i ∧
      lumaChips = before ++ S :: after ∧
      (∀ j, InRange s j → j < i → ∀ T ∈ lumaChips, (s.read T j).isSome) ∧ (∀ T ∈ before, (s.read T i).isSome) ∧
      s.read S i = none) ∧
    (∃ (s : State) (c : Comp) (c0 c1 plane : Space) (i : Nat) (S : Space) (before after : List Space), s.params.wf ∧
      Chroma c c0 c1 plane ∧ RangeOk s ∧ InRange s i ∧ [c0, c1] = before ++ S :: after ∧
      (∀ j, InRange s j → j < i → (s.read c0 j).isSome ∧ (s.read c1 j).isSome) ∧ (∀ T ∈ before, (s.read T i).isSome) ∧
      s.read S i = none) :=
  ⟨⟨lastByte (put (put (put (put base .lmsb0 65535 [1]) .lmsb1 65535 [2]) .lmsb2 65535 [3]) .lmsb3 65535 [4]), 65535, .llsb,
      [.lmsb0, .lmsb1, .lmsb2, .lmsb3], [], prm_wf, by unfold RangeOk; decide +kernel, by unfold InRange; decide +kernel, rfl,
      forall_below, by decide +kernel, by decide +kernel⟩,
    lastByte (put base .ry0 65535 [1]), .rY, .ry0, .ry1, .ryp, 65535, .ry1, [.ry0], [], prm_wf, .inl (by decide),
      by unfold RangeOk; decide +kernel, by unfold InRange; decide +kernel, rfl, forall_below, by decide +kernel,
      by decide +kernel⟩

/-- The first sample unwritten; the second 1024 after 1023; a chroma element unwritten. -/
theorem witness_splitFaults :
    (∃ (s : State) (k : Nat), s.params.wf ∧ RangeOk s ∧ 4 * s.args.arg0.toNat ≤ k ∧
      k < 4 * (s.args.arg0.toNat + s.args.arg1.toNat) ∧
      (∀ j, 4 * s.args.arg0.toNat ≤ j → j < k → ∃ v, s.read .luma j = some v ∧ v.toNat ≤ 1023) ∧ s.read .luma k = none) ∧
    (∃ (s : State) (k : Nat) (v : Word), s.params.wf ∧ RangeOk s ∧ 4 * s.args.arg0.toNat ≤ k ∧
      k < 4 * (s.args.arg0.toNat + s.args.arg1.toNat) ∧
      (∀ j, 4 * s.args.arg0.toNat ≤ j → j < k → ∃ v, s.read .luma j = some v ∧ v.toNat ≤ 1023) ∧
      s.read .luma k = some v ∧ 1023 < v.toNat) ∧
    (∃ (s : State) (c : Comp) (c0 c1 plane : Space) (k : Nat), s.params.wf ∧ Chroma c c0 c1 plane ∧ RangeOk s ∧
      2 * s.args.arg0.toNat ≤ k ∧ k < 2 * (s.args.arg0.toNat + s.args.arg1.toNat) ∧
      (∀ j, 2 * s.args.arg0.toNat ≤ j → j < k → (s.read plane j).isSome) ∧ s.read plane k = none) := by
  refine ⟨⟨lastByte base, 262140, prm_wf, by unfold RangeOk; decide +kernel, by decide +kernel, by decide +kernel,
      none_between (by decide +kernel), by decide +kernel⟩,
    ⟨lastByte (put base .luma 262140 [1023, 1024]), 262141, 1024, prm_wf, by unfold RangeOk; decide +kernel,
      by decide +kernel, by decide +kernel,
      one_between (by decide +kernel) ⟨1023, by decide +kernel, by decide⟩, by decide +kernel, by decide⟩,
    lastByte base, .rY, .ry0, .ry1, .ryp, 131070, prm_wf, .inl (by decide), by unfold RangeOk; decide +kernel,
      by decide +kernel, by decide +kernel, none_between (by decide +kernel), by decide +kernel⟩

theorem witness_reconSplitRoundTrips :
    (∃ s t : State, s.params.wf ∧ exec .splitLuma s = .next t ∧ t.status.err = false) ∧
    (∃ s t : State, s.params.wf ∧ exec .reconLuma s = .next t ∧ t.status.err = false) ∧
    (∃ (s t : State) (c : Comp) (c0 c1 plane : Space), s.params.wf ∧ Chroma c c0 c1 plane ∧
      exec (.splitChroma c) s = .next t ∧ t.status.err = false) ∧
    (∃ (s t : State) (c : Comp) (c0 c1 plane : Space), s.params.wf ∧ Chroma c c0 c1 plane ∧
      exec (.reconChroma c) s = .next t ∧ t.status.err = false) :=
  ⟨⟨lastLuma, _, prm_wf, rfl, by decide +kernel⟩, ⟨lastChips, _, prm_wf, rfl, by decide +kernel⟩,
    ⟨lastChroma, _, .bY, .by0, .by1, .byp, prm_wf, .inr (by decide), rfl, by decide +kernel⟩,
    lastPair, _, .bY, .by0, .by1, .byp, prm_wf, .inr (by decide), rfl, by decide +kernel⟩

/-- A CPU ROM whose last record ends at its last byte, as the only slot of the field (4:3). -/
def lastRecord43 : State := withArgs (withTable (put base .cpurom 509 [0x02, 0x10, 0x20]) 2 509 3) 0 1 0 0

theorem witness_vdecFourThree :
    ∃ s : State, s.params.wf ∧ Is43 s ∧ VdecArgsOk s ∧
      (∀ n, InRange s n → ∀ b, b < 3 → (s.read .cpurom (recAddr s n + b)).isSome) ∧
      ∃ n seq a b, InRange s n ∧ s.read .cpurom (recAddr s n) = some seq ∧ s.read .cpurom (recAddr s n + 1) = some a ∧
        s.read .cpurom (recAddr s n + 2) = some b :=
  ⟨lastRecord43, prm_wf, .inr (.inl rfl), by unfold VdecArgsOk; decide +kernel, forall_inRange (by decide +kernel),
    0, 0x02, 0x10, 0x20, by unfold InRange; decide +kernel, by decide +kernel, by decide +kernel, by decide +kernel⟩

/-- The 16:9 record with the least centre whose back porch is not negative: 1024. -/
def lastRecord169 : State := withArgs (withTable (put base .cpurom 510 [0x04, 0x00]) 1 510 2) 0 1 0 0

theorem lastRecord169_porch : ∀ cls, 0 ≤ porch169 lastRecord169.params cls (centre169 0x04 0x00) := by
  intro cls; cases cls <;> decide +kernel

theorem lastRecord169_record : ∀ n, InRange lastRecord169 n → ∃ high control,
    lastRecord169.read .cpurom (recAddr lastRecord169 n) = some high ∧
    lastRecord169.read .cpurom (recAddr lastRecord169 n + 1) = some control ∧
    ∀ cls, 0 ≤ porch169 lastRecord169.params cls (centre169 high control) := by
  refine forall_inRange fun j hj => ?_
  have h1 : lastRecord169.args.arg1.toNat = 1 := rfl
  obtain rfl : j = 0 := by omega
  exact ⟨0x04, 0x00, by decide +kernel, by decide +kernel, lastRecord169_porch⟩

theorem witness_vdecSixteenNine :
    ∃ s : State, s.params.wf ∧ s.cfg.std = 1 ∧ VdecArgsOk s ∧
      (∀ n, InRange s n → ∃ high control, s.read .cpurom (recAddr s n) = some high ∧
        s.read .cpurom (recAddr s n + 1) = some control ∧
        ∀ cls, 0 ≤ porch169 s.params cls (centre169 high control)) ∧ ∃ n, InRange s n :=
  ⟨lastRecord169, prm_wf, rfl, by unfold VdecArgsOk; decide +kernel,
    lastRecord169_record, 0, by unfold InRange; decide +kernel⟩

/-- One slot past N; one slot past VEC_CAP alone; the record one byte past the CPU ROM. -/
theorem witness_vdecArgumentFaults :
    (∃ s, StdOk s ∧ s.args.arg0.toNat + s.args.arg1.toNat = s.cfg.vtLen.toNat / recLen s + 1) ∧
    (∃ s, StdOk s ∧ s.args.arg0.toNat + s.args.arg1.toNat ≤ s.cfg.vtLen.toNat / recLen s ∧
      s.args.arg0.toNat + s.args.arg1.toNat = s.params.vecCap + 1) ∧
    (∃ s, StdOk s ∧ s.args.arg0.toNat + s.args.arg1.toNat ≤ s.cfg.vtLen.toNat / recLen s ∧
      s.args.arg0.toNat + s.args.arg1.toNat ≤ s.params.vecCap ∧ s.args.arg1 ≠ 0 ∧
      s.params.cpuRomBytes + 1 = recAddr s (s.args.arg0.toNat + s.args.arg1.toNat - 1) + recLen s) :=
  ⟨⟨withArgs (withTable base 0 0 3) 1 1 0 0, by unfold StdOk; decide, by decide +kernel⟩,
    ⟨withArgs (withTable base 3 0 300) 64 1 0 0, by unfold StdOk; decide, by decide +kernel, by decide +kernel⟩,
    withArgs (withTable base 0 510 3) 0 1 0 0, by unfold StdOk; decide, by decide +kernel, by decide +kernel, by decide,
    by decide +kernel⟩

/-- The last record byte unwritten; and the greatest centre whose luma back porch is negative: 768. -/
theorem witness_vdecRecordFaults :
    (∃ (s : State) (n b : Nat), s.params.wf ∧ StdOk s ∧ VdecArgsOk s ∧ InRange s n ∧ (∀ m, InRange s m → ¬m < n) ∧
      b < recLen s ∧ (∀ d, d < b → (s.read .cpurom (recAddr s n + d)).isSome) ∧
      s.read .cpurom (recAddr s n + b) = none) ∧
    (∃ (s : State) (n : Nat) (high control : Word) (cls : ScaleClass), s.params.wf ∧ StdOk s ∧ VdecArgsOk s ∧ InRange s n ∧
      (∀ m, InRange s m → ¬m < n) ∧ s.cfg.std = 1 ∧ s.read .cpurom (recAddr s n) = some high ∧
      s.read .cpurom (recAddr s n + 1) = some control ∧ porch169 s.params cls (centre169 high control) < 0) :=
  ⟨⟨withArgs (withTable (put base .cpurom 509 [0x02, 0x10]) 0 509 3) 0 1 0 0, 0, 2, prm_wf, by unfold StdOk; decide,
      by unfold VdecArgsOk; decide +kernel, by unfold InRange; decide +kernel, fun _ _ => by omega, by decide +kernel,
      by decide +kernel, by decide +kernel⟩,
    withArgs (withTable (put base .cpurom 510 [0x03, 0x00]) 1 510 2) 0 1 0 0, 0, 0x03, 0x00, .L, prm_wf,
      by unfold StdOk; decide, by unfold VdecArgsOk; decide +kernel, by unfold InRange; decide +kernel, fun _ _ => by omega,
      rfl, by decide +kernel, by decide +kernel, by decide +kernel⟩

/-- The last slot of the field, ending at the last byte of the CPU ROM; the greatest raw addresses, pattern 2. -/
def vencLast (std : BitVec 3) (start len : BitVec 24) (slot b c f : Word) : State :=
  withArgs (withTable base std start len) slot b c f

theorem witness_vencFourThree :
    ∃ s c k q, s.params.wf ∧ componentOf c = some k ∧ Is43 s ∧ VencArgsOk s ∧ Raw16 k.cls s.args.arg1 ∧
      Raw16 k.cls s.args.arg2 ∧ FrontOk k.cls s ∧ q < 4 ∧ lows s.params q = wantedLows k.cls s ∧
      (∀ j, j < q → lows s.params j ≠ wantedLows k.cls s) :=
  ⟨vencLast 0 506 6 1 (0xFF00 * 4) (0xFF00 * 4) (0xFF40 * 4), .luma, .luma, 2, prm_wf, rfl, .inl rfl,
    by unfold VencArgsOk; decide +kernel, by unfold Raw16; decide +kernel, by unfold Raw16; decide +kernel,
    by unfold FrontOk Raw16; decide +kernel, by decide, by decide +kernel, by decide +kernel⟩

/-- The greatest centre, 0x7FF00. -/
theorem witness_vencSixteenNine :
    ∃ s c k, s.params.wf ∧ componentOf c = some k ∧ s.cfg.std = 1 ∧ VencArgsOk s ∧ CentreOk k.cls s.args.arg2 ∧
      (s.args.arg1.toNat : Int) = porch169 s.params k.cls (raw k.cls s.args.arg2) ∧ s.args.arg3 = 0 :=
  ⟨vencLast 1 508 4 1 ((0x7FF00 - 512) * 2) (0x7FF00 * 2) 0, .bY, .bY, prm_wf, rfl, rfl,
    by unfold VencArgsOk; decide +kernel, by unfold CentreOk; decide +kernel, by decide +kernel, rfl⟩

/-- Slot N; and the record of slot N - 1 one byte past the CPU ROM. -/
theorem witness_vencArgumentFaults :
    (∃ s c, c ≠ Comp.lumaLsb ∧ StdOk s ∧ s.cfg.vtLen.toNat / recLen s = s.args.arg0.toNat) ∧
    (∃ s c, c ≠ Comp.lumaLsb ∧ StdOk s ∧ s.args.arg0.toNat + 1 = s.cfg.vtLen.toNat / recLen s ∧
      s.params.cpuRomBytes + 1 = recAddr s s.args.arg0.toNat + recLen s) :=
  ⟨⟨vencLast 0 0 6 2 0 0 0, .luma, by decide, by unfold StdOk; decide, by decide +kernel⟩,
    vencLast 0 507 6 1 0 0 0, .luma, by decide, by unfold StdOk; decide, by decide +kernel, by decide +kernel⟩

/-- Each failing condition in turn: not a multiple of RPC, or above 0xFFFF; the front porch in another page; no pattern; a
centre of 2^19; a wrong back porch; a front porch. -/
theorem witness_vencUnrepresentable :
    (∃ s c k, componentOf c = some k ∧ VencArgsOk s ∧ Is43 s ∧ ¬Raw16 k.cls s.args.arg1) ∧
    (∃ s c k, componentOf c = some k ∧ VencArgsOk s ∧ Is43 s ∧ Raw16 k.cls s.args.arg1 ∧ ¬Raw16 k.cls s.args.arg2) ∧
    (∃ s c k, componentOf c = some k ∧ VencArgsOk s ∧ Is43 s ∧ Raw16 k.cls s.args.arg1 ∧ Raw16 k.cls s.args.arg2 ∧
      ¬FrontOk k.cls s) ∧
    (∃ s c k, componentOf c = some k ∧ VencArgsOk s ∧ Is43 s ∧ Raw16 k.cls s.args.arg1 ∧ Raw16 k.cls s.args.arg2 ∧
      FrontOk k.cls s ∧ ∀ q, q < 4 → lows s.params q ≠ wantedLows k.cls s) ∧
    (∃ s c k, componentOf c = some k ∧ VencArgsOk s ∧ s.cfg.std = 1 ∧ ¬CentreOk k.cls s.args.arg2) ∧
    (∃ s c k, componentOf c = some k ∧ VencArgsOk s ∧ s.cfg.std = 1 ∧ CentreOk k.cls s.args.arg2 ∧
      (s.args.arg1.toNat : Int) ≠ porch169 s.params k.cls (raw k.cls s.args.arg2)) ∧
    (∃ s c k, componentOf c = some k ∧ VencArgsOk s ∧ s.cfg.std = 1 ∧ CentreOk k.cls s.args.arg2 ∧
      (s.args.arg1.toNat : Int) = porch169 s.params k.cls (raw k.cls s.args.arg2) ∧ s.args.arg3 ≠ 0) := by
  refine ⟨⟨vencLast 0 0 3 0 (0x10000 * 4) 0 0, .luma, .luma, rfl, ?_, .inl rfl, ?_⟩,
    ⟨vencLast 0 0 3 0 (0xFFFF * 4) 3 0, .luma, .luma, rfl, ?_, .inl rfl, ?_, ?_⟩,
    ⟨vencLast 2 0 3 0 0 0 (0x0140 * 2), .rY, .rY, rfl, ?_, .inr (.inl rfl), ?_, ?_, ?_⟩,
    ⟨vencLast 3 0 3 0 0 0 (0x41 * 2), .bY, .bY, rfl, ?_, .inr (.inr rfl), ?_, ?_, ?_, ?_⟩,
    ⟨vencLast 1 0 2 0 0 (0x80000 * 4) 0, .luma, .luma, rfl, ?_, rfl, ?_⟩,
    ⟨vencLast 1 0 2 0 1 (0x400 * 4) 0, .luma, .luma, rfl, ?_, rfl, ?_, ?_⟩,
    vencLast 1 0 2 0 0 (0x400 * 4) 1, .luma, .luma, rfl, ?_, rfl, ?_, ?_, ?_⟩
  all_goals first | decide +kernel | (unfold VencArgsOk; decide +kernel) | (unfold FrontOk Raw16; decide +kernel) |
    (unfold Raw16; decide +kernel) | (unfold CentreOk; decide +kernel)

theorem witness_codecRoundTrips :
    (∃ p cls b c f x y z, enc43 p b c f cls = .ok [x, y, z]) ∧ (∃ p cls b c f x y, enc169 p b c f cls = .ok [x, y]) ∧
    (∃ p cls x y, 0 ≤ back169 p (rawCentre169 x y) cls) :=
  ⟨⟨prm, .L, 0xFF00 * 4, 0xFF00 * 4, 0xFF40 * 4, 2, 0xFF, 0xFF, by decide⟩,
    ⟨prm, .C, (0x7FF00 - 512) * 2, 0x7FF00 * 2, 0, 0xFF, 0x2C, by decide⟩, prm, .L, 0x04, 0x00, by decide⟩

theorem witness_vencThenVdec :
    ∃ s c k t u, s.params.wf ∧ componentOf c = some k ∧ exec (.venc c) s = .next t ∧ t.status.err = false ∧
      exec .vdec { t with args := { t.args with arg1 := 1 } } = .next u ∧ u.status.err = false :=
  ⟨vencLast 0 506 6 1 (0xFF00 * 4) (0xFF00 * 4) (0xFF40 * 4), .luma, .luma, _, _, prm_wf, rfl, rfl, by decide +kernel, rfl,
    by decide +kernel⟩

/-- As many lines as STITCH_CAP. -/
theorem witness_stitchGen :
    ∃ s : State, s.params.wf ∧ StdOk s ∧ s.args.arg0.toNat = s.params.stitchCap ∧
      (∀ t, t < s.args.arg0.toNat → stitchOf s t ≤ 0xFFFFF) :=
  ⟨withArgs base 64 0 0 0, prm_wf, by unfold StdOk; decide, by decide +kernel, by decide +kernel⟩

/-- One line more than STITCH_CAP; and the first slot index that passes 20 bits, in a table that would hold it. -/
theorem witness_stitchGenFaults :
    (∃ s, StdOk s ∧ s.params.stitchCap + 1 = s.args.arg0.toNat) ∧
    (∃ s, StdOk s ∧ s.args.arg0.toNat ≤ s.params.stitchCap ∧ ∃ t, t < s.args.arg0.toNat ∧ 0xFFFFF < stitchOf s t) :=
  ⟨⟨withArgs base 65 0 0 0, by unfold StdOk; decide, by decide +kernel⟩,
    withArgs (withTable { base with params := { prm with stitchCap := 2 ^ 22 } } 1 0 0) 0x100001 0 0 0,
    by unfold StdOk; decide, by decide +kernel, 0x100000, by decide +kernel, by decide +kernel⟩

/-- A line of three segments in the last slot, its last pixel the last element of the raster space: 16 lines of W = 256 luma
samples fill 4096. The segments are the first, and the last two, windows of the plane that its chips fill. -/
def edgeLine : State :=
  withArgs (withGeom ((put (put base .luma 0 [1, 2, 3, 4]) .luma 262136 [5, 6, 7, 8, 9, 10, 11, 12]).writeSlot .L 63
    ⟨0, 262136, 262140, true⟩) 0 1 1 1) 63 340 0 0

theorem edgeLine_segs : ∀ g ∈ lineSegs edgeLine .luma ⟨0, 262136, 262140, true⟩, SegReadable edgeLine .luma g := by
  have e : lineSegs edgeLine .luma ⟨0, 262136, 262140, true⟩ = [(0, 4), (262136, 4), (262140, 4)] := by decide +kernel
  rw [e]
  intro g hg
  refine segReadable_of ?_
  revert g
  decide +kernel

theorem witness_asmLine :
    ∃ s c k e, s.params.wf ∧ componentOf c = some k ∧ StdOk s ∧ s.args.arg0.toNat < s.params.vecCap ∧
      s.readSlot k.cls s.args.arg0.toNat = some e ∧ Agrees s e ∧
      (s.args.arg1.toNat + 1) * width s k ≤ capOf s k ∧ (∀ g ∈ lineSegs s k e, SegReadable s k g) ∧
      Room s (keysOf k (lineSegs s k e)) ∧ ∃ x, x < width s k :=
  ⟨edgeLine, .luma, .luma, ⟨0, 262136, 262140, true⟩, prm_wf, rfl, by unfold StdOk; decide, by decide +kernel,
    by decide +kernel, by unfold Agrees; decide, by decide +kernel, edgeLine_segs, room_of_unbounded _ rfl, 11,
    by decide +kernel⟩

/-- Slot VEC_CAP; slot VEC_CAP - 1 unwritten; an entry of the other format; one line past the raster space. -/
theorem witness_asmLineFaults :
    (∃ s c k, componentOf c = some k ∧ StdOk s ∧ s.params.vecCap = s.args.arg0.toNat) ∧
    (∃ s c k, componentOf c = some k ∧ StdOk s ∧ s.args.arg0.toNat + 1 = s.params.vecCap ∧
      s.readSlot k.cls s.args.arg0.toNat = none) ∧
    (∃ s c k e, componentOf c = some k ∧ StdOk s ∧ s.args.arg0.toNat < s.params.vecCap ∧
      s.readSlot k.cls s.args.arg0.toNat = some e ∧ ¬Agrees s e) ∧
    (∃ s c k e, componentOf c = some k ∧ StdOk s ∧ s.args.arg0.toNat < s.params.vecCap ∧
      s.readSlot k.cls s.args.arg0.toNat = some e ∧ Agrees s e ∧
      s.args.arg1.toNat * width s k ≤ capOf s k ∧ capOf s k < (s.args.arg1.toNat + 1) * width s k) :=
  ⟨⟨withArgs base 64 0 0 0, .rY, .rY, rfl, by unfold StdOk; decide, by decide +kernel⟩,
    ⟨withArgs base 63 0 0 0, .bY, .bY, rfl, by unfold StdOk; decide, by decide +kernel, by decide +kernel⟩,
    ⟨withGeom edgeLine 1 1 1 1, .luma, .luma, ⟨0, 262136, 262140, true⟩, rfl, by unfold StdOk; decide, by decide +kernel,
      by decide +kernel, by unfold Agrees; decide⟩,
    withArgs edgeLine 63 341 0 0, .luma, .luma, ⟨0, 262136, 262140, true⟩, rfl, by unfold StdOk; decide, by decide +kernel,
    by decide +kernel, by unfold Agrees; decide, by decide +kernel, by decide +kernel⟩

/-- A front segment that passes the plane's end by one window, its back and centre windows readable. -/
def pastEnd : State := edgeLine.writeSlot .L 63 ⟨0, 262136, 262144, true⟩

/-- A front segment whose last sample is unwritten. -/
def gapLine : State := (put edgeLine .luma 8 [1, 2, 3]).writeSlot .L 63 ⟨0, 262136, 8, true⟩

/-- A map with room for two windows. -/
def tightLine : State := { edgeLine with params := { prm with fragCap := some 2 } }

theorem edgeLine_before : ∀ b ∈ [((0 : Nat), (4 : Nat)), (262136, 4)],
    SegReadable pastEnd .luma b ∧ SegReadable gapLine .luma b ∧ SegReadable tightLine .luma b := by
  intro g hg
  refine ⟨segReadable_of ?_, segReadable_of ?_, segReadable_of ?_⟩ <;> (revert g; decide +kernel)

/-- The three ways in which a third segment fails: past the plane, unwritten at its last element, its new key one too many. -/
theorem witness_asmLineSegmentFaults :
    (∃ s c k e before g after, componentOf c = some k ∧ StdOk s ∧ s.args.arg0.toNat < s.params.vecCap ∧
      s.readSlot k.cls s.args.arg0.toNat = some e ∧ Agrees s e ∧ (s.args.arg1.toNat + 1) * width s k ≤ capOf s k ∧
      lineSegs s k e = before ++ g :: after ∧ g.2 ≠ 0 ∧ (∀ b ∈ before, SegReadable s k b) ∧ Room s (keysOf k before) ∧
      k.plane.size s.params < g.1 + g.2) ∧
    (∃ s c k e before g after x, componentOf c = some k ∧ StdOk s ∧ s.args.arg0.toNat < s.params.vecCap ∧
      s.readSlot k.cls s.args.arg0.toNat = some e ∧ Agrees s e ∧ (s.args.arg1.toNat + 1) * width s k ≤ capOf s k ∧
      lineSegs s k e = before ++ g :: after ∧ g.2 ≠ 0 ∧ (∀ b ∈ before, SegReadable s k b) ∧ Room s (keysOf k before) ∧
      g.1 + g.2 ≤ k.plane.size s.params ∧ g.1 ≤ x ∧ x < g.1 + g.2 ∧
      (∀ y, g.1 ≤ y → y < x → (s.read k.plane y).isSome) ∧ s.read k.plane x = none) ∧
    (∃ s c k e before g after, componentOf c = some k ∧ StdOk s ∧ s.args.arg0.toNat < s.params.vecCap ∧
      s.readSlot k.cls s.args.arg0.toNat = some e ∧ Agrees s e ∧ (s.args.arg1.toNat + 1) * width s k ≤ capOf s k ∧
      lineSegs s k e = before ++ g :: after ∧ g.2 ≠ 0 ∧ (∀ b ∈ before, SegReadable s k b) ∧ Room s (keysOf k before) ∧
      SegReadable s k g ∧ (∀ f ∈ s.frags, f.key ≠ keyOf k g) ∧ keyOf k g ∉ keysOf k before ∧
      s.params.fragCap = some (s.frags.length + newKeys s (keysOf k before))) := by
  refine ⟨⟨pastEnd, .luma, .luma, ⟨0, 262136, 262144, true⟩, [(0, 4), (262136, 4)], (262144, 4), [], rfl, ?_, ?_, ?_, ?_, ?_,
      ?_, ?_, fun b h => (edgeLine_before b h).1, room_of_unbounded _ rfl, ?_⟩,
    ⟨gapLine, .luma, .luma, ⟨0, 262136, 8, true⟩, [(0, 4), (262136, 4)], (8, 4), [], 11, rfl, ?_, ?_, ?_, ?_, ?_, ?_, ?_,
      fun b h => (edgeLine_before b h).2.1, room_of_unbounded _ rfl, ?_, ?_, ?_, forall_between (by decide +kernel), ?_⟩,
    tightLine, .luma, .luma, ⟨0, 262136, 262140, true⟩, [(0, 4), (262136, 4)], (262140, 4), [], rfl, ?_, ?_, ?_, ?_, ?_, ?_,
      ?_, fun b h => (edgeLine_before b h).2.2, room_of_cap 2 rfl (by decide +kernel), segReadable_of (by decide +kernel), ?_,
      ?_, ?_⟩
  all_goals first | decide +kernel | (unfold StdOk; decide +kernel) | (unfold Agrees; decide +kernel)

/-- The last line of a chroma raster. -/
theorem witness_asmBlank :
    ∃ s c k, s.params.wf ∧ componentOf c = some k ∧ s.cfg.std = 2 ∧ (s.args.arg1.toNat + 1) * width s k = capOf s k ∧
      ∃ x, x < width s k :=
  ⟨withArgs (withGeom base 2 1 2 1) 0 511 0 0, .rY, .rY, prm_wf, rfl, rfl, by decide +kernel, 7, by decide +kernel⟩

theorem witness_asmBlankFaults :
    (∃ s c k, componentOf c = some k ∧ s.cfg.std ≠ 2 ∧ StdOk s) ∧
    (∃ s c k, componentOf c = some k ∧ s.cfg.std = 2 ∧ s.args.arg1.toNat * width s k = capOf s k ∧
      capOf s k < (s.args.arg1.toNat + 1) * width s k) :=
  ⟨⟨withGeom base 3 1 2 1, .luma, .luma, rfl, by decide, by unfold StdOk; decide⟩,
    withArgs (withGeom base 2 1 2 1) 0 512 0 0, .bY, .bY, rfl, rfl, by decide +kernel, by decide +kernel⟩

/-- V-A15's frame, a blank line and the line of slot 0, filling its raster space: two lines of 6 elements in a space of 12. -/
def fullFrame : State := { frameState 0x80000000 with params := { prm with rasterCapC := 12 } }

theorem fullFrame_lines : ∀ t, t < 2 → FrameLineOk fullFrame .bY t := by
  have e : lineSegs fullFrame .bY ⟨0, 0, 128, true⟩ = [(0, 2), (0, 2), (128, 2)] := by decide +kernel
  intro t ht
  match t, ht with
  | 0, _ => exact ⟨0x80000000, by decide +kernel, by decide, .inl ⟨by unfold isBlank; decide, by decide⟩⟩
  | 1, _ =>
    refine ⟨0, by decide +kernel, by decide, .inr ⟨by unfold isBlank; decide, by decide +kernel, ⟨0, 0, 128, true⟩,
      by decide +kernel, by unfold Agrees; decide, ?_⟩⟩
    rw [e]
    intro g hg
    refine segReadable_of ?_
    revert g
    decide +kernel

theorem witness_asmFrame :
    ∃ s c k, s.params.wf ∧ componentOf c = some k ∧ StdOk s ∧ s.cfg.stitchLen.toNat ≤ s.params.stitchCap ∧
      s.cfg.stitchLen.toNat * width s k = capOf s k ∧ (∀ t, t < s.cfg.stitchLen.toNat → FrameLineOk s k t) ∧
      Room s (keysOf k (framesUpTo s k s.cfg.stitchLen.toNat)) ∧
      (∃ t w x, t < s.cfg.stitchLen.toNat ∧ s.read .stitch t = some w ∧ x < width s k ∧ isBlank w) ∧
      (∃ t w x e, t < s.cfg.stitchLen.toNat ∧ s.read .stitch t = some w ∧ x < width s k ∧ ¬isBlank w ∧
        s.readSlot k.cls (vindexOf w) = some e) :=
  ⟨fullFrame, .bY, .bY, by decide, rfl, by unfold StdOk; decide, by decide +kernel, by decide +kernel, fullFrame_lines,
    room_of_unbounded _ rfl,
    ⟨0, 0x80000000, 5, by decide, by decide +kernel, by decide +kernel, by unfold isBlank; decide⟩,
    1, 0, 5, ⟨0, 0, 128, true⟩, by decide, by decide +kernel, by decide +kernel, by unfold isBlank; decide, by decide +kernel⟩

/-- The first entry's faults, in the order they are checked; and, after a good first line, the second entry's. -/
def frameWith (std : BitVec 3) (entries : List Word) : State :=
  let s := frameState 0x80000000
  put { s with mem := (put base .byp 0 [1, 2]).mem, cfg := { s.cfg with std := std } } .stitch 0 entries

theorem frameWith_first : ∀ j, j < 1 → FrameLineOk (frameWith 2 [0x80000000]) .bY j := by
  intro j hj
  obtain rfl : j = 0 := by omega
  exact ⟨0x80000000, by decide +kernel, by decide, .inl ⟨by unfold isBlank; decide, rfl⟩⟩

theorem frameWith_rsvd : ∀ w ∈ ([0x00100000, 0x40000000, 0x80100000] : List Word),
    ∃ (s : State) (c : Comp) (k : Component), componentOf c = some k ∧ StdOk s ∧ s.params.wf ∧
      s.cfg.stitchLen.toNat ≤ s.params.stitchCap ∧ s.cfg.stitchLen.toNat * width s k ≤ capOf s k ∧
      0 < s.cfg.stitchLen.toNat ∧ s.read .stitch 0 = some w ∧ rsvdOf w ≠ 0 := by
  intro w hw
  refine ⟨frameWith 2 [w], .bY, .bY, rfl, by unfold StdOk; exact (by decide : 2 ≤ 3), prm_wf, (by decide : 2 ≤ 64), ?_,
    (by decide : 0 < 2), ?_, ?_⟩
  all_goals
    simp only [List.mem_cons, List.not_mem_nil, or_false] at hw
    rcases hw with rfl | rfl | rfl <;> decide +kernel

theorem witness_asmFrameFaults :
    (∃ s c k, componentOf c = some k ∧ StdOk s ∧ s.params.stitchCap + 1 = s.cfg.stitchLen.toNat ∧ k ≠ .luma) ∧
    (∃ s c k, componentOf c = some k ∧ StdOk s ∧ s.cfg.stitchLen.toNat ≤ s.params.stitchCap ∧
      capOf s k + 1 = s.cfg.stitchLen.toNat * width s k) ∧
    (∃ (s : State) (c : Comp) (k : Component) (t : Nat), componentOf c = some k ∧ StdOk s ∧ s.params.wf ∧
      s.cfg.stitchLen.toNat ≤ s.params.stitchCap ∧ s.cfg.stitchLen.toNat * width s k ≤ capOf s k ∧
      t < s.cfg.stitchLen.toNat ∧ (∀ j, j < t → FrameLineOk s k j) ∧ Room s (keysOf k (framesUpTo s k t)) ∧ t = 1 ∧
      s.read .stitch t = none) ∧
    (∀ w ∈ ([0x00100000, 0x40000000, 0x80100000] : List Word), ∃ (s : State) (c : Comp) (k : Component),
      componentOf c = some k ∧ StdOk s ∧ s.params.wf ∧ s.cfg.stitchLen.toNat ≤ s.params.stitchCap ∧
      s.cfg.stitchLen.toNat * width s k ≤ capOf s k ∧ 0 < s.cfg.stitchLen.toNat ∧ s.read .stitch 0 = some w ∧
      rsvdOf w ≠ 0) ∧
    (∃ (s : State) (c : Comp) (k : Component) (w : Word), componentOf c = some k ∧ StdOk s ∧ s.params.wf ∧
      s.cfg.stitchLen.toNat ≤ s.params.stitchCap ∧ s.cfg.stitchLen.toNat * width s k ≤ capOf s k ∧
      0 < s.cfg.stitchLen.toNat ∧ s.read .stitch 0 = some w ∧ rsvdOf w = 0 ∧ isBlank w ∧ s.cfg.std ≠ 2) ∧
    (∃ (s : State) (c : Comp) (k : Component) (w : Word), componentOf c = some k ∧ StdOk s ∧ s.params.wf ∧
      s.cfg.stitchLen.toNat ≤ s.params.stitchCap ∧ s.cfg.stitchLen.toNat * width s k ≤ capOf s k ∧
      0 < s.cfg.stitchLen.toNat ∧ s.read .stitch 0 = some w ∧ rsvdOf w = 0 ∧ ¬isBlank w ∧
      s.params.vecCap = vindexOf w) ∧
    (∃ (s : State) (c : Comp) (k : Component) (w : Word), componentOf c = some k ∧ StdOk s ∧ s.params.wf ∧
      s.cfg.stitchLen.toNat ≤ s.params.stitchCap ∧ s.cfg.stitchLen.toNat * width s k ≤ capOf s k ∧
      0 < s.cfg.stitchLen.toNat ∧ s.read .stitch 0 = some w ∧ rsvdOf w = 0 ∧ ¬isBlank w ∧
      vindexOf w + 1 = s.params.vecCap ∧ s.readSlot k.cls (vindexOf w) = none) ∧
    (∃ (s : State) (c : Comp) (k : Component) (w : Word) (e : VectorEntry), componentOf c = some k ∧ StdOk s ∧ s.params.wf ∧
      s.cfg.stitchLen.toNat ≤ s.params.stitchCap ∧ s.cfg.stitchLen.toNat * width s k ≤ capOf s k ∧
      0 < s.cfg.stitchLen.toNat ∧ s.read .stitch 0 = some w ∧ rsvdOf w = 0 ∧ ¬isBlank w ∧
      vindexOf w < s.params.vecCap ∧ s.readSlot k.cls (vindexOf w) = some e ∧ ¬Agrees s e) := by
  refine ⟨⟨{ base with cfg := { base.cfg with stitchLen := 65 } }, .rY, .rY, ?_⟩,
    ⟨{ frameWith 2 [] with params := { prm with rasterCapC := 11 } }, .bY, .bY, ?_⟩,
    ⟨frameWith 2 [0x80000000], .bY, .bY, 1, rfl, ?_, by decide, ?_, ?_, ?_, frameWith_first, room_of_unbounded _ rfl, rfl, ?_⟩,
    frameWith_rsvd,
    ⟨frameWith 0 [0x80000000], .bY, .bY, 0x80000000, ?_⟩,
    ⟨frameWith 2 [64], .bY, .bY, 64, ?_⟩,
    ⟨frameWith 2 [63], .bY, .bY, 63, ?_⟩,
    (frameWith 2 [5]).writeSlot .C 5 ⟨0, 0, 0, false⟩, .bY, .bY, 5, ⟨0, 0, 0, false⟩, ?_⟩
  all_goals first | decide +kernel | (unfold StdOk; decide +kernel) |
    (unfold StdOk Agrees isBlank; decide +kernel) | (unfold StdOk isBlank; decide +kernel)

/-- After a blank first line, the second line's back segment: past the plane, unwritten, its key one too many. -/
def secondLine (e : VectorEntry) (cap : Option Nat) : State :=
  let s := (frameWith 2 [0x80000000, 63]).writeSlot .C 63 e
  { s with params := { prm with fragCap := cap } }

theorem secondLine_first (e : VectorEntry) (cap : Option Nat)
    (h : (secondLine e cap).read .stitch 0 = some 0x80000000) : ∀ j, j < 1 → FrameLineOk (secondLine e cap) .bY j := by
  intro j hj
  obtain rfl : j = 0 := by omega
  exact ⟨0x80000000, h, by decide, .inl ⟨by unfold isBlank; decide, rfl⟩⟩

theorem witness_asmFrameSegmentFaults :
    (∃ (s : State) (c : Comp) (k : Component) (t : Nat) (w : Word) (e : VectorEntry) (before : List (Nat × Nat))
      (g : Nat × Nat) (after : List (Nat × Nat)), s.params.wf ∧ componentOf c = some k ∧ StdOk s ∧
      s.cfg.stitchLen.toNat ≤ s.params.stitchCap ∧ s.cfg.stitchLen.toNat * width s k ≤ capOf s k ∧
      t < s.cfg.stitchLen.toNat ∧ (∀ j, j < t → FrameLineOk s k j) ∧ s.read .stitch t = some w ∧ rsvdOf w = 0 ∧
      ¬isBlank w ∧ vindexOf w < s.params.vecCap ∧ s.readSlot k.cls (vindexOf w) = some e ∧ Agrees s e ∧
      lineSegs s k e = before ++ g :: after ∧ g.2 ≠ 0 ∧ (∀ b ∈ before, SegReadable s k b) ∧
      Room s (keysOf k (framesUpTo s k t ++ before)) ∧ k.plane.size s.params < g.1 + g.2) ∧
    (∃ (s : State) (c : Comp) (k : Component) (t : Nat) (w : Word) (e : VectorEntry) (before : List (Nat × Nat))
      (g : Nat × Nat) (after : List (Nat × Nat)) (x : Nat), s.params.wf ∧ componentOf c = some k ∧ StdOk s ∧
      s.cfg.stitchLen.toNat ≤ s.params.stitchCap ∧ s.cfg.stitchLen.toNat * width s k ≤ capOf s k ∧
      t < s.cfg.stitchLen.toNat ∧ (∀ j, j < t → FrameLineOk s k j) ∧ s.read .stitch t = some w ∧ rsvdOf w = 0 ∧
      ¬isBlank w ∧ vindexOf w < s.params.vecCap ∧ s.readSlot k.cls (vindexOf w) = some e ∧ Agrees s e ∧
      lineSegs s k e = before ++ g :: after ∧ g.2 ≠ 0 ∧ (∀ b ∈ before, SegReadable s k b) ∧
      Room s (keysOf k (framesUpTo s k t ++ before)) ∧ g.1 + g.2 ≤ k.plane.size s.params ∧ g.1 ≤ x ∧ x < g.1 + g.2 ∧
      (∀ y, g.1 ≤ y → y < x → (s.read k.plane y).isSome) ∧ s.read k.plane x = none) ∧
    (∃ (s : State) (c : Comp) (k : Component) (t : Nat) (w : Word) (e : VectorEntry) (before : List (Nat × Nat))
      (g : Nat × Nat) (after : List (Nat × Nat)), s.params.wf ∧ componentOf c = some k ∧ StdOk s ∧
      s.cfg.stitchLen.toNat ≤ s.params.stitchCap ∧ s.cfg.stitchLen.toNat * width s k ≤ capOf s k ∧
      t < s.cfg.stitchLen.toNat ∧ (∀ j, j < t → FrameLineOk s k j) ∧ s.read .stitch t = some w ∧ rsvdOf w = 0 ∧
      ¬isBlank w ∧ vindexOf w < s.params.vecCap ∧ s.readSlot k.cls (vindexOf w) = some e ∧ Agrees s e ∧
      lineSegs s k e = before ++ g :: after ∧ g.2 ≠ 0 ∧ (∀ b ∈ before, SegReadable s k b) ∧
      Room s (keysOf k (framesUpTo s k t ++ before)) ∧ SegReadable s k g ∧ (∀ f ∈ s.frags, f.key ≠ keyOf k g) ∧
      keyOf k g ∉ keysOf k (framesUpTo s k t ++ before) ∧
      s.params.fragCap = some (s.frags.length + newKeys s (keysOf k (framesUpTo s k t ++ before)))) := by
  refine ⟨⟨secondLine ⟨131072, 0, 0, true⟩ none, .bY, .bY, 1, 63, ⟨131072, 0, 0, true⟩, [], (131072, 2), [(0, 2), (0, 2)],
      by decide, rfl, ?_, ?_, ?_, ?_, secondLine_first _ _ (by decide +kernel), ?_, ?_, ?_, ?_, ?_, ?_, ?_, ?_,
      fun b h => absurd h (by simp), room_of_unbounded _ rfl, ?_⟩,
    ⟨secondLine ⟨2, 0, 0, true⟩ none, .bY, .bY, 1, 63, ⟨2, 0, 0, true⟩, [], (2, 2), [(0, 2), (0, 2)], 2,
      by decide, rfl, ?_, ?_, ?_, ?_, secondLine_first _ _ (by decide +kernel), ?_, ?_, ?_, ?_, ?_, ?_, ?_, ?_,
      fun b h => absurd h (by simp), room_of_unbounded _ rfl, ?_, ?_, ?_, none_between (by decide), ?_⟩,
    secondLine ⟨0, 0, 0, true⟩ (some 0), .bY, .bY, 1, 63, ⟨0, 0, 0, true⟩, [], (0, 2), [(0, 2), (0, 2)],
      by decide, rfl, ?_, ?_, ?_, ?_, secondLine_first _ _ (by decide +kernel), ?_, ?_, ?_, ?_, ?_, ?_, ?_, ?_,
      fun b h => absurd h (by simp), room_of_cap 0 rfl (by decide +kernel), segReadable_of (by decide +kernel), ?_, ?_, ?_⟩
  all_goals first | decide +kernel | (unfold StdOk; decide +kernel) | (unfold Agrees; decide +kernel) |
    (unfold isBlank; decide +kernel)

theorem witness_fragmentsAreKept :
    ∃ i s t, exec i s = .next t ∧ i ≠ .fragClear ∧ s.frags ≠ [] ∧ (∀ c, i ≠ .asmLine c) ∧ (∀ c, i ≠ .asmFrame c) :=
  ⟨.nop, fragState, _, rfl, by decide, by decide, fun _ => by simp, fun _ => by simp⟩

/-- The last element of a space. -/
theorem witness_hostWrite :
    ∃ (s : State) (S : Space) (k : Nat) (v : Word) (rest : List HostAccess), s.params.wf ∧ s.status.busy = false ∧
      k + 1 = S.size s.params ∧ s.script = .write (hostAddr S.id.toNat (k * S.bytes)) S.bytes v :: rest :=
  ⟨{ base with script := [.write (hostAddr 0x10 (262143 * 2)) 2 0xFFFFFFFF] }, .luma, 262143, 0xFFFFFFFF, [], prm_wf, rfl,
    by decide +kernel, rfl⟩

def reads (s : State) (id off bytes : Nat) : State := { s with script := [.read (hostAddr id off) bytes] }

/-- A memory with a luma sample and the last vector slot written. -/
def held : State :=
  (base.write .luma 0 1023).writeSlot .L 63 ⟨0, 4, 256, true⟩

theorem two_steps (s : State) {S : Space} {k : Nat} (v : Word) {cls : ScaleClass} {n : Nat} {e : VectorEntry}
    (hk : k < S.size s.params) (hn : n < s.params.vecCap) (he : e.ok cls) :
    MemSteps s.params s.mem ((s.write S k v).writeSlot cls n e).mem := by
  rw [State.writeSlot_mem, State.write_mem]
  exact .slot cls n e (.elem S k v .refl hk) hn he

theorem held_steps : MemSteps prm [] held.mem :=
  two_steps base 1023 (by decide +kernel) (by decide +kernel) (by unfold VectorEntry.ok; decide)

theorem held_memOk : held.memOk :=
  ⟨held_steps.wf List.Pairwise.nil, held_steps.mapped (fun _ h => absurd h (by simp)),
    held_steps.whole prm_wf ⟨fun _ _ _ _ _ _ _ => rfl, fun _ _ _ _ _ _ _ => rfl⟩⟩

theorem held_slotsOk : held.slotsOk :=
  held_steps.slots prm_wf fun _ _ _ _ h => absurd h (by simp [Memory.readSlot, Memory.readLE, Memory.read])

theorem reads_slotsOk {s : State} {id off bytes : Nat} (h : s.slotsOk) : (reads s id off bytes).slotsOk := h

/-- An element that is written and one that is not; a slot that is and one that is not, its last word; a register. -/
theorem witness_hostRead :
    (∃ (s : State) (S : Space) (k : Nat) (rest : List HostAccess) (v : Word), s.params.wf ∧ s.status.busy = false ∧
      k < S.size s.params ∧ s.script = .read (hostAddr S.id.toNat (k * S.bytes)) S.bytes :: rest ∧ s.read S k = some v) ∧
    (∃ (s : State) (S : Space) (k : Nat) (rest : List HostAccess), s.params.wf ∧ s.status.busy = false ∧
      k + 1 = S.size s.params ∧ s.script = .read (hostAddr S.id.toNat (k * S.bytes)) S.bytes :: rest ∧
      s.read S k = none) ∧
    (∃ (s : State) (cls : ScaleClass) (n j : Nat) (rest : List HostAccess) (e : VectorEntry), s.params.wf ∧
      s.status.busy = false ∧ n < s.params.vecCap ∧ j < 4 ∧
      s.script = .read (hostAddr cls.vecId.toNat (16 * n + 4 * j)) 4 :: rest ∧ s.readSlot cls n = some e ∧ s.slotsOk) ∧
    (∃ (s : State) (cls : ScaleClass) (n j : Nat) (rest : List HostAccess), s.params.wf ∧
      s.status.busy = false ∧ n + 1 = s.params.vecCap ∧ j = 3 ∧
      s.script = .read (hostAddr cls.vecId.toNat (16 * n + 4 * j)) 4 :: rest ∧ s.readSlot cls n = none) ∧
    (∃ (s : State) (r : Reg) (rest : List HostAccess), s.status.busy = false ∧
      s.script = .read (hostAddr 0 r.offset) 4 :: rest) :=
  ⟨⟨reads lastLuma 0x10 (262143 * 2) 2, .luma, 262143, [], 1023, prm_wf, rfl, by decide +kernel, rfl, by decide +kernel⟩,
    ⟨reads base 0x10 (262143 * 2) 2, .luma, 262143, [], prm_wf, rfl, by decide +kernel, rfl, by decide +kernel⟩,
    ⟨reads held 0x18 (16 * 63 + 4 * 3) 4, .L, 63, 3, [], ⟨0, 4, 256, true⟩, prm_wf, rfl, by decide +kernel,
      by decide, rfl, by decide +kernel, reads_slotsOk held_slotsOk⟩,
    ⟨reads base 0x19 (16 * 63 + 4 * 3) 4, .C, 63, 3, [], prm_wf, rfl, by decide +kernel, rfl, rfl, by decide +kernel⟩,
    reads base 0 0x0B0 4, .pVecCap, [], rfl, rfl⟩

def writes (s : State) (id off bytes : Nat) (v : Word) : State := { s with script := [.write (hostAddr id off) bytes v] }

theorem writes_not_reset (s : State) (id off bytes : Nat) (v : Word) (h : v.getLsbD 0 = false) :
    ¬NextIsSoftReset (writes s id off bytes v) := by
  rintro ⟨u, rest, hs, hu⟩
  simp only [writes, List.cons.injEq, HostAccess.write.injEq] at hs
  rw [← hs.1.2.2, h] at hu
  cases hu

/-- Refused: an unmapped space, an offset at a space's size, another width, misaligned, a vector file; and the last element of
the same space, and a reserved register offset, admitted. -/
theorem witness_hostPortRefuses :
    (∀ a ∈ [((0x30 : Nat), (0 : Nat), (1 : Nat)), (0x1A, 256, 4), (0x1A, 252, 2), (0x1A, 250, 4), (0x18, 0, 4)],
      ∃ (s : State) (v : Word) (rest : List HostAccess), s.params.wf ∧ s.status.busy = false ∧ a.1 < 256 ∧
        a.2.1 < 2 ^ 24 ∧ s.script = .write (hostAddr a.1 a.2.1) a.2.2 v :: rest ∧
        Refused s.params a.1 a.2.1 a.2.2 true) ∧
    (∀ a ∈ [((0x1A : Nat), (252 : Nat), (4 : Nat)), (0, 252, 4)],
      ∃ (s : State) (v : Word) (rest : List HostAccess), s.params.wf ∧ s.status.busy = false ∧ a.1 < 256 ∧
        a.2.1 < 2 ^ 24 ∧ s.script = .write (hostAddr a.1 a.2.1) a.2.2 v :: rest ∧
        ¬Refused s.params a.1 a.2.1 a.2.2 true ∧ ¬NextIsSoftReset s) ∧
    (∀ a ∈ [((0x30 : Nat), (0 : Nat), (1 : Nat)), (0x22, 4096, 1), (0x22, 0, 2)],
      ∃ (s : State) (rest : List HostAccess), s.params.wf ∧ s.status.busy = false ∧ a.1 < 256 ∧
        a.2.1 < 2 ^ 24 ∧ s.script = .read (hostAddr a.1 a.2.1) a.2.2 :: rest ∧
        Refused s.params a.1 a.2.1 a.2.2 false) ∧
    (∃ (s : State) (rest : List HostAccess), s.params.wf ∧ s.status.busy = false ∧
      s.script = .read (hostAddr 0x18 1020) 4 :: rest ∧ ¬Refused s.params 0x18 1020 4 false) := by
  refine ⟨?_, ?_, ?_, reads base 0x18 1020 4, [], prm_wf, rfl, rfl, by simp [Refused, window, reads, base, State.powerOn, prm]⟩
  · simp only [List.mem_cons, List.not_mem_nil, or_false]
    rintro a (rfl | rfl | rfl | rfl | rfl) <;>
      exact ⟨writes base _ _ _ 0, 0, [], prm_wf, rfl, by decide, by decide, rfl, by
        simp [Refused, window, writes, base, State.powerOn, prm]⟩
  · simp only [List.mem_cons, List.not_mem_nil, or_false]
    rintro a (rfl | rfl) <;>
      exact ⟨writes base _ _ _ 0, 0, [], prm_wf, rfl, by decide, by decide, rfl, by
        simp [Refused, window, writes, base, State.powerOn, prm], writes_not_reset _ _ _ _ _ (by decide)⟩
  · simp only [List.mem_cons, List.not_mem_nil, or_false]
    rintro a (rfl | rfl | rfl) <;>
      exact ⟨reads base _ _ _, [], prm_wf, rfl, by decide, by decide, rfl, by
        simp [Refused, window, reads, base, State.powerOn, prm]⟩

theorem witness_hostRegisterWrites :
    (∃ (s : State) (r : Reg) (w : Nat) (v : Word) (rest : List HostAccess), s.status.busy = false ∧ (r, w) ∈ storeRegs ∧
      s.script = .write (hostAddr 0 r.offset) 4 v :: rest) ∧
    (∃ (s : State) (r : Reg) (v : Word) (rest : List HostAccess), s.status.busy = false ∧ r ∈ readOnlyRegs ∧
      s.script = .write (hostAddr 0 r.offset) 4 v :: rest) :=
  ⟨⟨writes base 0 0x00C 4 0xFFFFFFFF, .std, 3, 0xFFFFFFFF, [], rfl, by decide, rfl⟩,
    writes base 0 0x008 4 0, .status, 0, [], rfl, by decide, rfl⟩

/-- The last offset of the register space. -/
theorem witness_reservedOffsets :
    (∃ (s : State) (off : Nat) (v : Word) (rest : List HostAccess), s.status.busy = false ∧ off % 4 = 0 ∧ off < 256 ∧
      (∀ r : Reg, r.offset ≠ off) ∧ s.script = .write (hostAddr 0 off) 4 v :: rest) ∧
    (∃ (s : State) (off : Nat) (rest : List HostAccess), s.status.busy = false ∧ off % 4 = 0 ∧ off < 256 ∧
      (∀ r : Reg, r.offset ≠ off) ∧ s.script = .read (hostAddr 0 off) 4 :: rest) :=
  ⟨⟨writes base 0 252 4 1, 252, 1, [], rfl, by decide, by decide, fun r => by cases r <;> decide, rfl⟩,
    reads base 0 252 4, 252, [], rfl, by decide, by decide, fun r => by cases r <;> decide, rfl⟩

theorem witness_softReset :
    (∃ (s : State) (v : Word) (rest : List HostAccess), s.status.busy = false ∧
      s.script = .write 0x00000004 4 v :: rest ∧ v.getLsbD 0 = true) ∧
    (∃ (s : State) (v : Word) (rest : List HostAccess), s.status.busy = false ∧
      s.script = .write 0x00000004 4 v :: rest ∧ v.getLsbD 0 = false) :=
  ⟨⟨{ faulted lineState with script := [.write 0x00000004 4 0xFFFFFFFF] }, _, _, rfl, rfl, by decide⟩,
    { lineState with script := [.write 0x00000004 4 0xFFFFFFFE] }, _, _, rfl, rfl, by decide⟩

def busy (s : State) : State := { s with status := { s.status with busy := true } }

theorem witness_stepAnswers :
    (∃ s : State, s.status.busy = false ∧ s.script ≠ []) ∧ (∃ s : State, s.script = [] ∧ s.mem ≠ []) ∧
    (∃ (s : State) (a : Word) (n : Nat) (rest : List HostAccess), s.status.busy = true ∧ s.script = .read a n :: rest ∧
      ¬(a = 0x00000008 ∧ n = 4)) ∧
    (∃ (s : State) (a : Word) (n : Nat) (v : Word) (rest : List HostAccess), s.status.busy = true ∧
      s.script = .write a n v :: rest) :=
  ⟨⟨sends base 0, rfl, by simp [sends]⟩, ⟨lineState, rfl, by decide +kernel⟩,
    ⟨busy (reads base 0 4 4), _, _, _, rfl, rfl, by decide⟩, busy (sends base 0), _, _, _, _, rfl, rfl⟩

/-- About to issue ASM_LINE, before a fault and after one. -/
theorem witness_stepKeepsStatus :
    (∃ s t : State, s.statusOk ∧ s.status.err = false ∧ step s = .next t) ∧
    (∃ s t : State, s.statusOk ∧ s.status.err = true ∧ step s = .next t) :=
  ⟨⟨sends base 0x21, _, ⟨rfl, fun _ => ⟨rfl, rfl, rfl⟩, fun h => absurd h (by decide)⟩, rfl, rfl⟩,
    sends (faulted base) 0x21, _, ⟨rfl, fun h => absurd h (by decide), fun _ => ⟨rfl, .illegal, rfl⟩⟩, rfl, rfl⟩

theorem sends_memOk {s : State} {w : Word} (h : s.memOk) : (sends s w).memOk := h

theorem sends_slotsOk {s : State} {w : Word} (h : s.slotsOk) : (sends s w).slotsOk := h

theorem witness_stepKeepsMemory : ∃ s t : State, s.params.wf ∧ s.memOk ∧ s.mem ≠ [] ∧ step s = .next t :=
  ⟨sends held 0x21, _, prm_wf, sends_memOk held_memOk, by decide +kernel, rfl⟩

theorem witness_stepKeepsVectorSlots :
    ∃ (s t : State) (e : VectorEntry), s.params.wf ∧ s.slotsOk ∧ s.readSlot .L 63 = some e ∧ step s = .next t :=
  ⟨sends held 0x21, _, ⟨0, 4, 256, true⟩, prm_wf, sends_slotsOk held_slotsOk, by decide +kernel, rfl⟩

theorem witness_stepKeepsFragmentMap : ∃ s t : State, s.fragsOk ∧ s.frags ≠ [] ∧ step s = .next t :=
  ⟨sends fragState 0x21, _, ⟨by decide, (fun n h => by cases h), by decide⟩, by decide, rfl⟩

theorem witness_writtenStaysWritten :
    (∃ s t a, step s = .next t ∧ (s.mem.read a).isSome) ∧ (∃ s t a, step s = .next t ∧ (s.mem.read a).isSome ∧ NextIsSoftReset s) :=
  ⟨⟨sends lineState 0x21, _, 0x10000000, rfl, by decide +kernel⟩,
    { lineState with script := [.write 0x00000004 4 1] }, _, 0x10000000, rfl, by decide +kernel, _, _, rfl, by decide⟩

theorem witness_parametersNeverChange : ∃ s t, step s = .next t ∧ s.script ≠ [] :=
  ⟨sends lineState 0x21, _, rfl, by decide⟩

end Sys2Proof.Tests
end

section
/-! Proofs of the statements of 00_scope.md: O53, O59 and O60. Two layers serve the first two: every operation from a host
access to a command's end answers a next state, and `step_cases` and `exec_cases` say what it does to BUSY and to the parameters. -/

namespace Sys2Proof.Machine

/-! ## Every operation of the host port answers a next state -/

/-- Every command ends in a next state (60_exceptions.md R133). -/
theorem exec_next (i : Instr) (s : State) : ∃ t, exec i s = .next t := by
  rw [exec_eq]
  exact runCommand_next _ _

theorem issueCommand_next (w : Word) (s : State) : ∃ t, issueCommand w s = .next t := by
  unfold issueCommand runWord
  split
  · exact ⟨_, rfl⟩
  · split
    · exact exec_next _ _
    · exact ⟨_, rfl⟩

theorem State.writeReg_next (s : State) (r : Reg) (v : Word) : ∃ t, s.writeReg r v = .next t := by
  cases r
  case cmd => exact issueCommand_next v s
  all_goals exact ⟨_, rfl⟩

theorem hostWrite_next (a : Word) (n : Nat) (v : Word) (s : State) : ∃ t, hostWrite a n v s = .next t := by
  unfold hostWrite
  split
  case h_2 r _ => exact s.writeReg_next r v
  all_goals exact ⟨_, rfl⟩

/-- A step with no access to come changes nothing (60_exceptions.md R146). -/
theorem step_idle {s : State} (hs : s.script = []) : step s = .next s := by
  unfold step hostStep
  rw [hs]

/-- Between two commands every step answers a next state (00_scope.md R18). -/
theorem step_next_of_not_busy {s : State} (hb : s.status.busy = false) : ∃ t, step s = .next t := by
  match hs : s.script with
  | [] => exact ⟨s, step_idle hs⟩
  | .read a n :: rest => exact ⟨_, step_read hs hb⟩
  | .write a n v :: rest =>
    rw [step_write hs hb]
    exact hostWrite_next _ _ _ _

/-! ## The one refusal -/

/-- While BUSY = 1 the port refuses every access but a read of STATUS (20_memory.md R60, 93_implementation_defined.md I9). -/
theorem step_refused_of_busy {s : State} {acc : HostAccess} {rest : List HostAccess} (hs : s.script = acc :: rest)
    (hb : s.status.busy = true) (hacc : acc.isStatusRead = false) : step s = .refused .hostAccessWhileBusy := by
  unfold step hostStep hostAccess
  rw [hs]
  simp [hb, hacc]

theorem HostAccess.isStatusRead_read {a : Word} {n : Nat} (h : ¬(a = 0x00000008 ∧ n = 4)) :
    (HostAccess.read a n).isStatusRead = false := by
  have haddr : Reg.status.addr = 0x00000008 := rfl
  simpa [HostAccess.isStatusRead, haddr] using h

/-! ## BUSY is 0 again when an operation ends -/

/-- A command that commits clears BUSY, and so does one that faults. -/
theorem exec_not_busy {i : Instr} {s t : State} (h : exec i s = .next t) : t.status.busy = false := by
  rcases exec_cases h with ⟨u, _, rfl⟩ | ⟨f, rfl⟩
  · rw [State.commit_status, Status.committed_busy]
  · rw [State.takeFault_status, Status.faulted_busy]

theorem issueCommand_not_busy {w : Word} {s t : State} (h : issueCommand w s = .next t) (hb : s.status.busy = false) :
    t.status.busy = false := by
  rcases issueCommand_cases h with ⟨_, rfl⟩ | ⟨_, ⟨_, _, rfl⟩ | ⟨i, _, hi⟩⟩
  · exact hb
  · rw [State.takeFault_status, Status.faulted_busy]
  · exact exec_not_busy hi

theorem State.writeReg_not_busy {s t : State} {r : Reg} {v : Word} (h : s.writeReg r v = .next t)
    (hb : s.status.busy = false) : t.status.busy = false := by
  rcases writeReg_cases h with ⟨_, hi⟩ | ⟨_, _, rfl⟩ | ⟨_, rfl⟩ | ⟨_, rfl⟩ | rfl
  · exact issueCommand_not_busy hi hb
  · rfl
  · exact hb
  · exact hb
  · exact hb

/-- A step from a state that is not busy leads to one that is not busy: BUSY is 1 within a step only. -/
theorem step_not_busy {s t : State} (h : step s = .next t) (hb : s.status.busy = false) : t.status.busy = false := by
  rcases step_cases h with ⟨_, rfl⟩ | ⟨_, rest, _, ⟨v, rfl⟩ | ⟨n, rfl⟩ | ⟨n, rfl⟩ | rfl | ⟨S, k, v, _, rfl⟩ |
    ⟨_, _, _, _, _, _, hw⟩ | rfl⟩
  · exact hb
  · exact hb
  · exact hb
  · exact hb
  · exact hb
  · exact hb
  · exact State.writeReg_not_busy hw hb
  · exact hb

/-! ## The parameters -/

theorem exec_params {i : Instr} {s t : State} (h : exec i s = .next t) : t.params = s.params := by
  rcases exec_cases h with ⟨u, hu, rfl⟩ | ⟨f, rfl⟩
  · exact hu.effect.params
  · exact State.takeFault_params s f

theorem issueCommand_params {w : Word} {s t : State} (h : issueCommand w s = .next t) : t.params = s.params := by
  rcases issueCommand_cases h with ⟨_, rfl⟩ | ⟨_, ⟨_, _, rfl⟩ | ⟨i, _, hi⟩⟩
  · exact State.setCmd_params s w
  · simp
  · simpa using exec_params hi

theorem State.writeReg_params {s t : State} {r : Reg} {v : Word} (h : s.writeReg r v = .next t) :
    t.params = s.params := by
  rcases writeReg_cases h with ⟨_, hi⟩ | ⟨_, _, rfl⟩ | ⟨c, rfl⟩ | ⟨a, rfl⟩ | rfl
  · exact issueCommand_params hi
  · exact State.softReset_params s
  · exact State.setCfg_params s c
  · exact State.setArgs_params s a
  · rfl

/-- No step changes the parameters (70_reset_and_hazards.md R149): a write of a register is the one case that is more than an
update of another field. -/
theorem step_params {s t : State} (h : step s = .next t) : t.params = s.params := by
  rcases step_cases h with ⟨_, rfl⟩ | ⟨_, rest, _, ⟨v, rfl⟩ | ⟨n, rfl⟩ | ⟨n, rfl⟩ | rfl | ⟨S, k, v, _, rfl⟩ |
    ⟨_, _, _, _, _, _, hw⟩ | rfl⟩
  · rfl
  · exact State.reply_params _ v
  · exact State.replyFree_params _ n
  · rw [State.replyFree_params, State.refuseAccess_params]
  · exact State.refuseAccess_params _
  · exact State.write_params _ S k v
  · exact (State.writeReg_params hw).trans rfl
  · rfl

/-! ## The address map -/

theorem Reg.mem_all (r : Reg) : r ∈ Reg.all := by cases r <;> decide

theorem Space.mem_all (S : Space) : S ∈ Space.all := by cases S <;> decide

/-- R23's table lists each register once, with the offset that the machine uses. -/
theorem registerTable_eq_map : Claims.registerTable = Reg.all.map fun r => (r, r.offset) := rfl

/-- R49's table lists each space of plain elements once, with the id, width and size that the machine uses. -/
theorem spaceTable_eq_map (p : Params) :
    Claims.spaceTable p = Space.all.map fun S => (S, S.id.toNat, S.bytes, S.size p) := rfl

theorem Space.addr_eq (S : Space) (k : Nat) : S.addr k = S.id.toNat * 2 ^ 24 + k * S.bytes := rfl

theorem ScaleClass.slotAddr_eq (cls : ScaleClass) (n : Nat) : cls.slotAddr n = cls.vecId.toNat * 2 ^ 24 + 16 * n := by
  rw [Nat.mul_comm 16 n]
  rfl

/-! ## The statements -/

/-- Settles O53: progress by the kind of the next access, BUSY by the ways a step can end, and the refusal by the port's gate. -/
theorem stepAnswersWhenNotBusy : Obligations.StepAnswersWhenNotBusy := by
  refine ⟨fun s hb => ?_, fun s hs => step_idle hs, fun s a n rest hb hs hne => ?_, fun s a n v rest hb hs => ?_⟩
  · obtain ⟨t, ht⟩ := step_next_of_not_busy hb
    exact ⟨t, ht, step_not_busy ht hb⟩
  · exact step_refused_of_busy hs hb (HostAccess.isStatusRead_read hne)
  · exact step_refused_of_busy hs hb rfl

/-- Settles O59, by the ways a step can end. -/
theorem parametersNeverChange : Obligations.ParametersNeverChange := fun _ _ => step_params

/-- Settles O60: both tables are the machine's own functions, listed over all registers and all spaces. -/
theorem addressMapIsTheTables : Obligations.AddressMapIsTheTables := by
  refine ⟨?_, ?_, fun p => ⟨?_, ?_, rfl⟩, ⟨rfl, rfl⟩, Space.addr_eq, ScaleClass.slotAddr_eq, ⟨rfl, rfl, rfl⟩, ⟨rfl, rfl, rfl⟩,
    rfl, rfl, rfl⟩
  · simp [registerTable_eq_map]
  · simp [registerTable_eq_map, Reg.mem_all]
  · simp [spaceTable_eq_map]
  · simp [spaceTable_eq_map, Space.mem_all]

end Sys2Proof.Machine
end

section
/-! Proofs of the statements of 10_state.md, part 1: O54 to O58, what every step keeps. They follow from what one step can do to
memory, to the fragment map and to the flags. -/

namespace Sys2Proof.Machine

open Sys2Proof.Claims

/-! ## What one step does to memory and to the fragment map -/

/-- Memory comes out of an operation by writes of whole elements, and the fragment map is emptied or has new keys inserted. -/
structure StoreEffect (s t : State) : Prop where
  mem : MemSteps s.params s.mem t.mem
  frags : t.frags = [] ∨ FragSteps s.params.fragCap s.frags t.frags

/-- An operation that touches neither. -/
theorem StoreEffect.of_eq {s t : State} (hm : t.mem = s.mem) (hf : t.frags = s.frags) : StoreEffect s t :=
  ⟨hm ▸ .refl, .inr (hf ▸ .refl)⟩

theorem exec_storeEffect {i : Instr} {s t : State} (h : exec i s = .next t) : StoreEffect s t := by
  rcases exec_cases h with ⟨u, hu, rfl⟩ | ⟨f, rfl⟩
  · exact ⟨hu.effect.mem, hu.effect.frags⟩
  · exact .of_eq rfl rfl

theorem issueCommand_storeEffect {w : Word} {s t : State} (h : issueCommand w s = .next t) : StoreEffect s t := by
  rcases issueCommand_cases h with ⟨_, rfl⟩ | ⟨_, ⟨_, _, rfl⟩ | ⟨i, _, hi⟩⟩
  · exact .of_eq rfl rfl
  · exact .of_eq rfl rfl
  · obtain ⟨hm, hf⟩ := exec_storeEffect hi
    exact ⟨hm, hf⟩

/-- A write of a register is a soft reset, or changes memory and the fragment map as a command does. -/
theorem State.writeReg_storeEffect {s t : State} {r : Reg} {v : Word} (h : s.writeReg r v = .next t) :
    (r = .ctrl ∧ v.getLsbD 0 = true ∧ t = s.softReset) ∨ StoreEffect s t := by
  rcases writeReg_cases h with ⟨_, hi⟩ | hr | ⟨_, rfl⟩ | ⟨_, rfl⟩ | rfl
  · exact .inr (issueCommand_storeEffect hi)
  · exact .inl hr
  · exact .inr (.of_eq rfl rfl)
  · exact .inr (.of_eq rfl rfl)
  · exact .inr (.of_eq rfl rfl)

/-- A step is a soft reset, or changes memory by whole elements and the fragment map by insertions or by emptying it. -/
theorem step_storeEffect {s t : State} (h : step s = .next t) :
    (NextIsSoftReset s ∧ t.mem = [] ∧ t.frags = []) ∨ StoreEffect s t := by
  rcases step_cases h with ⟨_, rfl⟩ | ⟨_, rest, hs, ⟨v, rfl⟩ | ⟨n, rfl⟩ | ⟨n, rfl⟩ | rfl | ⟨S, k, v, hk, rfl⟩ |
    ⟨a, n, v, r, rfl, hr, hw⟩ | rfl⟩
  · exact .inr (.of_eq rfl rfl)
  · exact .inr (.of_eq rfl rfl)
  · exact .inr (.of_eq rfl rfl)
  · exact .inr (.of_eq rfl rfl)
  · exact .inr (.of_eq rfl rfl)
  · exact .inr ⟨.elem S k v .refl hk, .inr .refl⟩
  · rcases State.writeReg_storeEffect hw with ⟨rfl, hv, rfl⟩ | ⟨hm, hf⟩
    · obtain ⟨rfl, rfl⟩ := target_reg hr
      exact .inl ⟨⟨v, rest, hs, hv⟩, rfl, rfl⟩
    · exact .inr ⟨hm, hf⟩
  · exact .inr (.of_eq rfl rfl)

/-! ## The invariants, of a memory and of a fragment map -/

/-- The invariant of memory, for given parameters. -/
def memIn (p : Params) (m : Memory) : Prop := m.wf ∧ (∀ c ∈ m, mapped p c.1) ∧ wholeIn p m

theorem memIn_iff (s : State) : s.memOk ↔ memIn s.params s.mem := Iff.rfl

theorem memIn_nil (p : Params) : memIn p [] :=
  ⟨List.Pairwise.nil, fun _ h => absurd h (by simp), fun _ _ _ _ _ _ _ => rfl, fun _ _ _ _ _ _ _ => rfl⟩

theorem MemSteps.memIn {p : Params} (hp : p.wf) {m m' : Memory} (h : MemSteps p m m') (hm : memIn p m) : memIn p m' := by
  obtain ⟨hwf, hmapped, hwhole⟩ := hm
  exact ⟨h.wf hwf, h.mapped hmapped, h.whole hp hwhole⟩

/-- No slot of an empty memory is written. -/
theorem Memory.readSlot_nil (a : Nat) : Memory.readSlot [] a = none := rfl

theorem slotsIn_nil (p : Params) : slotsIn p [] := fun _ _ e _ he => by
  rw [Memory.readSlot_nil] at he
  exact absurd he (by simp)

/-- A property of memory that its element writes keep, and that an empty memory has, is kept by every step. -/
theorem step_keeps_mem {P : Memory → Prop} {s t : State} (h : step s = .next t) (hnil : P [])
    (hsteps : MemSteps s.params s.mem t.mem → P t.mem) : P t.mem := by
  rcases step_storeEffect h with ⟨_, hm, _⟩ | ⟨hm, _⟩
  · exact hm ▸ hnil
  · exact hsteps hm

/-! ## What one step does to the flags -/

/-- A fault leaves the flags consistent, whatever they were (60_exceptions.md R132). -/
theorem State.takeFault_statusOk (s : State) (f : Raised) : (s.takeFault f).statusOk :=
  ⟨rfl, fun h => absurd h (by simp), fun _ => ⟨rfl, f.cause, rfl⟩⟩

/-- Without a fault ERRCODE, ERROP and FAULT_INFO are 0 (10_state.md R25, R35). -/
def State.NoFault (s : State) : Prop :=
  s.status.err = false ∧ s.status.errcode = 0 ∧ s.status.errop = 0 ∧ s.faultInfo = { space := 0, index := 0 }

theorem State.statusOk.noFault {s : State} (h : s.statusOk) (he : s.status.err = false) : s.NoFault := by
  obtain ⟨_, hclear, _⟩ := h
  exact ⟨he, hclear he⟩

theorem State.NoFault.commit_statusOk {s : State} (h : s.NoFault) : s.commit.statusOk := by
  obtain ⟨he, hclear⟩ := h
  exact ⟨rfl, fun _ => hclear, fun h => absurd (he.symm.trans h) (by simp)⟩

/-- A command that starts without a fault ends with consistent flags. -/
theorem exec_statusOk {i : Instr} {s t : State} (h : exec i s = .next t) (hs : s.NoFault) : t.statusOk := by
  rcases exec_cases h with ⟨u, hu, rfl⟩ | ⟨f, rfl⟩
  · refine State.NoFault.commit_statusOk ?_
    unfold State.NoFault
    rw [hu.effect.status, hu.effect.faultInfo]
    exact hs
  · exact s.takeFault_statusOk f

theorem issueCommand_statusOk {w : Word} {s t : State} (h : issueCommand w s = .next t) (hs : s.statusOk) :
    t.statusOk := by
  rcases issueCommand_cases h with ⟨_, rfl⟩ | ⟨he, ⟨_, _, rfl⟩ | ⟨i, _, hi⟩⟩
  · exact hs
  · exact State.takeFault_statusOk _ _
  · exact exec_statusOk hi (hs.noFault he)

theorem State.softReset_statusOk (s : State) : s.softReset.statusOk :=
  ⟨rfl, fun _ => ⟨rfl, rfl, rfl⟩, fun h => absurd h (by simp [Status.reset])⟩

theorem State.writeReg_statusOk {s t : State} {r : Reg} {v : Word} (h : s.writeReg r v = .next t) (hs : s.statusOk) :
    t.statusOk := by
  rcases writeReg_cases h with ⟨_, hi⟩ | ⟨_, _, rfl⟩ | ⟨_, rfl⟩ | ⟨_, rfl⟩ | rfl
  · exact issueCommand_statusOk hi hs
  · exact s.softReset_statusOk
  · exact hs
  · exact hs
  · exact hs

theorem step_statusOk {s t : State} (h : step s = .next t) (hs : s.statusOk) : t.statusOk := by
  rcases step_cases h with ⟨_, rfl⟩ | ⟨_, rest, _, ⟨v, rfl⟩ | ⟨n, rfl⟩ | ⟨n, rfl⟩ | rfl | ⟨S, k, v, _, rfl⟩ |
    ⟨_, _, _, _, _, _, hw⟩ | rfl⟩
  · exact hs
  · exact hs
  · exact hs
  · exact hs
  · exact hs
  · exact hs
  · exact State.writeReg_statusOk hw hs
  · exact hs

/-! ## The invariants that every step keeps -/

/-- Settles O54, by the ways a step can end: a command starts without a fault, and a fault sets every field it names. -/
theorem stepKeepsStatusConsistent : Obligations.StepKeepsStatusConsistent := fun _ _ hs h => step_statusOk h hs

/-- Settles O55: a step writes whole elements that exist, or empties memory. -/
theorem stepKeepsMemoryCanonical : Obligations.StepKeepsMemoryCanonical := by
  intro s t hp hs h
  rw [memIn_iff, step_params h]
  exact step_keeps_mem h (memIn_nil _) fun hm => hm.memIn hp hs

/-- Settles O56: a step inserts new keys for which there is room, or empties the map. -/
theorem stepKeepsFragmentMap : Obligations.StepKeepsFragmentMap := by
  intro s t hs h
  rw [fragsIn_iff, step_params h]
  rcases step_storeEffect h with ⟨_, _, hf⟩ | ⟨_, hf | hf⟩
  · exact hf ▸ fragsIn_nil _
  · exact hf ▸ fragsIn_nil _
  · exact hf.frags hs

/-- Settles O57: a step writes slots with decoded entries only, and no element shares a byte with a slot. -/
theorem stepKeepsVectorSlotsDecoded : Obligations.StepKeepsVectorSlotsDecoded := by
  intro s t hp hs h
  rw [slotsIn_iff, step_params h]
  exact step_keeps_mem h (slotsIn_nil _) fun hm => hm.slots hp hs

/-- Settles O58: only the soft reset empties memory, and no other step makes a byte unwritten. -/
theorem writtenStaysWritten : Obligations.WrittenStaysWritten := by
  intro s t a h ha
  rcases step_storeEffect h with ⟨hr, hm, _⟩ | ⟨hm, _⟩
  · exact .inr ⟨hr, hm⟩
  · exact .inl (hm.isSome ha)

end Sys2Proof.Machine
end

section
/-! Proofs of the statements of 10_state.md, part 2: O9, O13, O46 and O12, what every command leaves alone and where it looks at
the Standard. Beside `exec_cases` they need which pseudocode writes memory and nothing else. -/

namespace Sys2Proof.Machine

open Sys2Proof.Claims

/-! ## Commands that write memory and nothing else -/

/-- Memory is the only field that differs. -/
def MemOnly (s t : State) : Prop := t = { s with mem := t.mem }

theorem MemOnly.refl (s : State) : MemOnly s s := rfl

theorem MemOnly.trans {s t u : State} (h : MemOnly s t) (h' : MemOnly t u) : MemOnly s u := by
  unfold MemOnly at h h' ⊢
  rw [h] at h'
  exact h'

theorem MemOnly.result0 {s t : State} (h : MemOnly s t) : t.result0 = s.result0 := by rw [h]

theorem MemOnly.frags {s t : State} (h : MemOnly s t) : t.frags = s.frags := by rw [h]

/-- A loop whose iterations write memory only writes memory only. -/
theorem forRange_memOnly {body : Nat → State → Staged State} {i n : Nat} {s t : State}
    (hbody : ∀ j u v, body j u = .ok v → MemOnly u v) (h : forRange body i n s = .ok t) : MemOnly s t :=
  forRange_ok (fun _ u => MemOnly s u) h (.refl s) fun j u v _ _ hu hv => hu.trans (hbody j u v hv)

theorem reconLumaAt_memOnly {i : Nat} {s t : State} (h : reconLumaAt i s = .ok t) : MemOnly s t := by
  simp only [reconLumaAt, staged_bind_ok, Except.ok.injEq] at h
  obtain ⟨_, _, _, _, _, _, _, _, _, _, rfl⟩ := h
  rfl

theorem reconChromaAt_memOnly {k : ChromaSpaces} {i : Nat} {s t : State} (h : reconChromaAt k i s = .ok t) :
    MemOnly s t := by
  simp only [reconChromaAt, staged_bind_ok, Except.ok.injEq] at h
  obtain ⟨_, _, _, _, rfl⟩ := h
  rfl

theorem splitLumaAt_memOnly {i : Nat} {s t : State} (h : splitLumaAt i s = .ok t) : MemOnly s t := by
  simp only [splitLumaAt, staged_bind_ok, Except.ok.injEq] at h
  obtain ⟨_, _, _, _, _, _, _, _, rfl⟩ := h
  rfl

theorem splitChromaAt_memOnly {k : ChromaSpaces} {i : Nat} {s t : State} (h : splitChromaAt k i s = .ok t) :
    MemOnly s t := by
  simp only [splitChromaAt, staged_bind_ok, Except.ok.injEq] at h
  obtain ⟨_, _, _, _, rfl⟩ := h
  rfl

theorem MemOnly.writeSlot (s : State) (cls : ScaleClass) (n : Nat) (e : VectorEntry) :
    MemOnly s (s.writeSlot cls n e) := rfl

theorem vdecAt_memOnly {f : Format} {n : Nat} {s t : State} (h : vdecAt f n s = .ok t) : MemOnly s t := by
  cases f with
  | f43 =>
    simp only [vdecAt, staged_bind_ok, Except.ok.injEq] at h
    obtain ⟨_, _, _, _, _, _, h⟩ := h
    exact h ▸ (MemOnly.writeSlot s .L n _).trans (MemOnly.writeSlot _ .C n _)
  | f169 =>
    simp only [vdecAt, staged_bind_ok, Except.ok.injEq] at h
    obtain ⟨_, _, _, _, _, _, h⟩ := h
    exact h ▸ (MemOnly.writeSlot s .L n _).trans (MemOnly.writeSlot _ .C n _)

theorem stitchGenAt_memOnly {f : Format} {n : Nat} {s t : State} (h : stitchGenAt f n s = .ok t) : MemOnly s t := by
  simp only [stitchGenAt, staged_bind_ok, Except.ok.injEq] at h
  obtain ⟨_, _, rfl⟩ := h
  rfl

theorem reconLumaBody_memOnly {s t : State} (h : reconLumaBody s = .ok t) : MemOnly s t := by
  simp only [reconLumaBody, staged_bind_ok] at h
  obtain ⟨_, _, h⟩ := h
  exact forRange_memOnly (fun _ _ _ => reconLumaAt_memOnly) h

theorem reconChromaBody_memOnly {c : Comp} {s t : State} (h : reconChromaBody c s = .ok t) : MemOnly s t := by
  simp only [reconChromaBody, staged_bind_ok] at h
  obtain ⟨_, _, _, _, h⟩ := h
  exact forRange_memOnly (fun _ _ _ => reconChromaAt_memOnly) h

theorem splitLumaBody_memOnly {s t : State} (h : splitLumaBody s = .ok t) : MemOnly s t := by
  simp only [splitLumaBody, staged_bind_ok] at h
  obtain ⟨_, _, h⟩ := h
  exact forRange_memOnly (fun _ _ _ => splitLumaAt_memOnly) h

theorem splitChromaBody_memOnly {c : Comp} {s t : State} (h : splitChromaBody c s = .ok t) : MemOnly s t := by
  simp only [splitChromaBody, staged_bind_ok] at h
  obtain ⟨_, _, _, _, h⟩ := h
  exact forRange_memOnly (fun _ _ _ => splitChromaAt_memOnly) h

theorem vencBody_memOnly {c : Comp} {s t : State} (h : vencBody c s = .ok t) : MemOnly s t := by
  simp only [vencBody, staged_bind_ok, Except.ok.injEq] at h
  obtain ⟨_, _, _, _, _, _, _, _, _, _, rfl⟩ := h
  exact State.writeRun_eq _ _ _ _

theorem asmBlankBody_memOnly {c : Comp} {s t : State} (h : asmBlankBody c s = .ok t) : MemOnly s t := by
  simp only [asmBlankBody, staged_bind_ok, Except.ok.injEq] at h
  obtain ⟨_, _, _, _, _, _, _, _, rfl⟩ := h
  exact State.writeRun_eq _ _ _ _

/-- VDEC writes memory, and RESULT0 with the number of slots decoded (10_state.md R34). -/
theorem vdecBody_ok {s t : State} (h : vdecBody s = .ok t) :
    ∃ u, MemOnly s u ∧ t = { u with result0 := s.args.arg1 } := by
  simp only [vdecBody, staged_bind_ok, Except.ok.injEq] at h
  obtain ⟨_, _, _, _, _, _, u, hu, rfl⟩ := h
  exact ⟨u, forRange_memOnly (fun _ _ _ => vdecAt_memOnly) hu, rfl⟩

/-- STITCH_GEN writes memory, and STITCH_LEN (42_raster_assembler.md R119). -/
theorem stitchGenBody_ok {s t : State} (h : stitchGenBody s = .ok t) :
    ∃ u c, MemOnly s u ∧ t = { u with cfg := c } := by
  simp only [stitchGenBody, staged_bind_ok, Except.ok.injEq] at h
  obtain ⟨_, _, _, _, u, hu, rfl⟩ := h
  exact ⟨u, _, forRange_memOnly (fun _ _ _ => stitchGenAt_memOnly) hu, rfl⟩

/-- FRAG_QUERY writes RESULT0 only: a hit or a miss (43_session.md R128). -/
theorem fragQueryBody_ok {c : Comp} {s t : State} (h : fragQueryBody c s = .ok t) :
    ∃ k, componentOf c = some k ∧ 
      t = { s with result0 := if s.hasFrag ⟨k, s.args.arg0, s.args.arg1⟩ then 1 else 0 } := by
  simp only [fragQueryBody, staged_bind_ok, selectComponent_ok, Except.ok.injEq] at h
  obtain ⟨k, hk, rfl⟩ := h
  exact ⟨k, hk, rfl⟩

theorem asmLineBody_effect {c : Comp} {s t : State} (h : asmLineBody c s = .ok t) : LoopEffect s t := by
  simp only [asmLineBody, staged_bind_ok, require_ok] at h
  obtain ⟨_, _, _, _, _, _, _, _, _, hcap, h⟩ := h
  exact State.assembleLine_effect hcap h

theorem asmFrameBody_effect {c : Comp} {s t : State} (h : asmFrameBody c s = .ok t) : LoopEffect s t := by
  simp only [asmFrameBody, staged_bind_ok, require_ok] at h
  obtain ⟨_, _, _, _, _, _, _, hcap, h⟩ := h
  refine LoopEffect.forRange h fun j u v _ hj hu hv => asmFrameAt_effect ?_ hv
  rw [hu.lineWidth, hu.params]
  exact Nat.le_trans (Nat.mul_le_mul_right _ (by omega)) hcap

/-- Only VDEC and FRAG_QUERY write RESULT0 in their pseudocode. -/
theorem bodyOf_result0 {i : Instr} {s t : State} (h : bodyOf i s = .ok t) (hv : i ≠ .vdec) (hq : ∀ c, i ≠ .fragQuery c) :
    t.result0 = s.result0 := by
  cases i with
  | nop => exact (Except.ok.inj h) ▸ rfl
  | reconLuma => exact (reconLumaBody_memOnly h).result0
  | reconChroma c => exact (reconChromaBody_memOnly h).result0
  | splitLuma => exact (splitLumaBody_memOnly h).result0
  | splitChroma c => exact (splitChromaBody_memOnly h).result0
  | vdec => exact absurd rfl hv
  | venc c => exact (vencBody_memOnly h).result0
  | stitchGen =>
    obtain ⟨u, _, hu, rfl⟩ := stitchGenBody_ok h
    exact hu.result0
  | asmLine c => exact (asmLineBody_effect h).result0
  | asmBlank c => exact (asmBlankBody_memOnly h).result0
  | asmFrame c => exact (asmFrameBody_effect h).result0
  | fragClear => exact (Except.ok.inj h) ▸ rfl
  | fragQuery c => exact absurd rfl (hq c)

/-- Only FRAG_CLEAR, ASM_LINE and ASM_FRAME touch the fragment map. -/
theorem bodyOf_frags {i : Instr} {s t : State} (h : bodyOf i s = .ok t) (hc : i ≠ .fragClear)
    (hl : ∀ c, i ≠ .asmLine c) (hf : ∀ c, i ≠ .asmFrame c) : t.frags = s.frags := by
  cases i with
  | nop => exact (Except.ok.inj h) ▸ rfl
  | reconLuma => exact (reconLumaBody_memOnly h).frags
  | reconChroma c => exact (reconChromaBody_memOnly h).frags
  | splitLuma => exact (splitLumaBody_memOnly h).frags
  | splitChroma c => exact (splitChromaBody_memOnly h).frags
  | vdec =>
    obtain ⟨u, hu, rfl⟩ := vdecBody_ok h
    exact hu.frags
  | venc c => exact (vencBody_memOnly h).frags
  | stitchGen =>
    obtain ⟨u, _, hu, rfl⟩ := stitchGenBody_ok h
    exact hu.frags
  | asmLine c => exact absurd rfl (hl c)
  | asmBlank c => exact (asmBlankBody_memOnly h).frags
  | asmFrame c => exact absurd rfl (hf c)
  | fragClear => exact absurd rfl hc
  | fragQuery c =>
    obtain ⟨_, _, rfl⟩ := fragQueryBody_ok h
    rfl

/-- The two ways a command ends, with its pseudocode. -/
theorem exec_body_cases {i : Instr} {s t : State} (h : exec i s = .next t) :
    (∃ u, bodyOf i s.staging = .ok u ∧ t = u.commit) ∨ (∃ f, bodyOf i s.staging = .error f ∧ t = s.takeFault f) := by
  rw [exec_eq] at h
  exact runCommand_cases h

/-! ## What every command leaves alone -/

/-- Settles O9: the effect of a command that commits, and the fields of a fault. -/
theorem commandsLeaveOperandsAndConfiguration : Obligations.CommandsLeaveOperandsAndConfiguration := by
  intro i s t h
  rcases exec_cases h with ⟨u, hu, rfl⟩ | ⟨f, rfl⟩
  · have he := hu.effect
    refine ⟨he.args, he.cmd, he.params, he.script, he.replies, he.draws, ?_, he.cfg, hu.cfg, fun _ => ⟨he.faultInfo, ?_, ?_⟩⟩
      <;> simp [he.status]
  · exact ⟨rfl, rfl, rfl, rfl, rfl, rfl, rfl, rfl, fun _ => rfl, fun hne => absurd hne (by simp)⟩

/-- A command that started with ERR = 0 ends with ERR = 1 only by a fault. -/
theorem exec_result0_of_err {i : Instr} {s t : State} (h : exec i s = .next t) (hs : s.status.err = false)
    (ht : t.status.err = true) : t.result0 = s.result0 := by
  rcases exec_cases h with ⟨u, hu, rfl⟩ | ⟨f, rfl⟩
  · exact absurd ht (by simp [hu.effect.status, hs])
  · exact s.takeFault_result0 f

/-- A command that ends with ERR = 0 has committed what its pseudocode answers. -/
theorem exec_body_of_not_err {i : Instr} {s t : State} (h : exec i s = .next t) (ht : t.status.err = false) :
    ∃ u, bodyOf i s.staging = .ok u ∧ t = u.commit := by
  rcases exec_body_cases h with hu | ⟨f, _, rfl⟩
  · exact hu
  · exact absurd ht (by simp)

/-- Settles O13: RESULT0 starts at 0, and only the pseudocode of VDEC and of FRAG_QUERY writes it. -/
theorem resultRegisterIsWrittenOnCommit : Obligations.ResultRegisterIsWrittenOnCommit := by
  intro i s t hs h
  refine ⟨exec_result0_of_err h hs, fun ht => ?_⟩
  obtain ⟨u, hu, rfl⟩ := exec_body_of_not_err h ht
  refine ⟨?_, ?_, fun hv hq => ?_⟩
  · rintro rfl
    obtain ⟨_, _, rfl⟩ := vdecBody_ok hu
    rfl
  · rintro c k rfl hk
    obtain ⟨k', hk', rfl⟩ := fragQueryBody_ok hu
    obtain rfl := Option.some.inj (hk.symm.trans hk')
    rfl
  · rw [State.commit_result0, bodyOf_result0 hu hv hq]
    rfl

/-- Settles O46: the map has insertions only, and none but ASM_LINE and ASM_FRAME touches it. -/
theorem fragmentsAreKept : Obligations.FragmentsAreKept := by
  intro i s t h hc
  constructor
  · intro f hf
    rcases exec_cases h with ⟨u, hu, rfl⟩ | ⟨_, rfl⟩
    · exact (hu.frags hc).mem hf
    · exact hf
  · intro hl hf
    rcases exec_body_cases h with ⟨u, hu, rfl⟩ | ⟨_, _, rfl⟩
    · rw [State.commit_frags, bodyOf_frags hu hc hl hf]
      rfl
    · rfl

/-! ## A reserved Standard -/

theorem State.format_reserved {s : State} (h : ¬StdOk s) : s.format = .error (atReg .config .std) := by
  have hone : s.cfg.std ≠ 1 := fun e => h (by rw [StdOk, e]; decide)
  have hnone : formatOf s.cfg.std = none := (if_neg hone).trans (if_neg h)
  rw [State.format, hnone]

theorem selectComponent_named {c : Comp} (h : c ≠ .lumaLsb) : ∃ k, selectComponent c = .ok k := by
  cases c with
  | lumaLsb => exact absurd rfl h
  | luma => exact ⟨_, rfl⟩
  | rY => exact ⟨_, rfl⟩
  | bY => exact ⟨_, rfl⟩

/-- The commands that depend on the Standard look at it before every other check but that of COMP. -/
theorem bodyOf_reserved {s : State} {c : Comp} {i : Instr} (h : ¬StdOk s) (hc : c ≠ .lumaLsb)
    (hi : i ∈ [Instr.vdec, .stitchGen, .venc c, .asmLine c, .asmBlank c, .asmFrame c]) :
    bodyOf i s = .error (atReg .config .std) := by
  have hf := State.format_reserved h
  obtain ⟨k, hk⟩ := selectComponent_named hc
  simp only [List.mem_cons, List.not_mem_nil, or_false] at hi
  rcases hi with rfl | rfl | rfl | rfl | rfl | rfl
  · rw [bodyOf, vdecBody, hf, staged_error_bind]
  · rw [bodyOf, stitchGenBody, hf, staged_error_bind]
  · rw [bodyOf, vencBody, hk, staged_ok_bind, hf, staged_error_bind]
  · rw [bodyOf, asmLineBody, hk, staged_ok_bind, hf, staged_error_bind]
  · rw [bodyOf, asmBlankBody, hk, staged_ok_bind, hf, staged_error_bind]
  · rw [bodyOf, asmFrameBody, hk, staged_ok_bind, hf, staged_error_bind]

/-- Settles O12: the Standard is looked at after the component and before any other argument. -/
theorem reservedStandardFaultsConfig : Obligations.ReservedStandardFaultsConfig :=
  fun _ _ h hc _ hi => exec_error (bodyOf_reserved h hc hi)

end Sys2Proof.Machine
end

section
/-! Proofs of the statements of 10_state.md, part 3: O50, O51, O52, O6, and the reset state, O1 and O2. They follow from what a host
access to the register space does. -/

namespace Sys2Proof.Machine

open Sys2Proof.Claims

/-! ## A host access to the register space -/

/-- The address of a register as the host writes it (20_memory.md R49). -/
theorem hostAddr_reg (r : Reg) : hostAddr 0 r.offset = r.addr := by simp [hostAddr, Reg.addr]

/-- A step that meets a write of a register between two commands performs it. -/
theorem step_writeReg {s : State} {r : Reg} {v : Word} {rest : List HostAccess} (hb : s.status.busy = false)
    (hs : s.script = .write r.addr 4 v :: rest) : step s = State.writeReg { s with script := rest } r v := by
  rw [step_write hs hb, hostWrite, target_of_reg]

/-! ### Registers that only store -/

/-- A write of a register that only stores changes its own field. -/
theorem State.writeReg_stored (s : State) (v : Word) {r : Reg} {w : Nat} (h : (r, w) ∈ storeRegs) :
    s.writeReg r v = .next (stored s v r) := by
  fun_cases stored s v r <;> simp_all [storeRegs, State.writeReg, State.setCfg, State.setArgs, BitVec.ofNat_toNat]

/-- The register reads back as the low bits written, those of its width. -/
theorem State.readReg_stored_same (s : State) (v : Word) {r : Reg} {w : Nat} (h : (r, w) ∈ storeRegs) :
    ((stored s v r).readReg r).toNat = v.toNat % 2 ^ w := by
  fun_cases stored s v r
  case case16 => simp_all [storeRegs]
  all_goals
    simp [storeRegs] at h
    subst h
    simp [State.readReg]
    omega

/-- Every other register reads as before. -/
theorem State.readReg_stored_other (s : State) (v : Word) {r r' : Reg} (h : r' ≠ r) :
    (stored s v r).readReg r' = s.readReg r' := by
  fun_cases stored s v r
  case case16 => rfl
  all_goals cases r' <;> first | contradiction | rfl

/-- The host's script is no part of what a register stores. -/
theorem stored_script (s : State) (v : Word) (r : Reg) (rest : List HostAccess) :
    stored { s with script := rest } v r = { stored s v r with script := rest } := by cases r <;> rfl

/-- A write of a read-only register is ignored (10_state.md R25, R36). -/
theorem State.writeReg_readOnly (s : State) (v : Word) {r : Reg} (h : r ∈ readOnlyRegs) : s.writeReg r v = .next s := by
  cases r <;> simp_all [readOnlyRegs, State.writeReg]

/-! ### Reserved offsets -/

theorem Reg.ofOffset_none {off : Nat} (h : ∀ r : Reg, r.offset ≠ off) : Reg.ofOffset off = none := by
  unfold Reg.ofOffset
  rw [List.find?_eq_none]
  intro r _
  simpa using h r

/-- A 4-byte access at a word offset that R23 does not list names a reserved offset (10_state.md R46). -/
theorem target_reserved (p : Params) {off : Nat} (hoff : off % 4 = 0) (hlt : off < 256) (h : ∀ r : Reg, r.offset ≠ off) :
    target p (hostAddr 0 off) 4 = some (.reg none) := by
  obtain ⟨hid, haddr⟩ := addr_fields (i := 0) (off := off) (by decide) (by omega)
  have hspace : addrSpace (hostAddr 0 off) = 0 := BitVec.eq_of_toNat_eq hid
  have hword : elementAt off 4 4 64 = some (off / 4) := if_pos ⟨rfl, hoff, by omega⟩
  have hmul : 4 * (off / 4) = off := by omega
  unfold target
  rw [if_pos hspace, hostAddr, haddr, hword, Option.map_some, hmul, Reg.ofOffset_none h]

/-! ### Reset -/

/-- A step that meets a write of CTRL with SRST = 1 is a soft reset (10_state.md R24). -/
theorem step_softReset {s : State} {v : Word} {rest : List HostAccess} (hb : s.status.busy = false)
    (hs : s.script = .write 0x00000004 4 v :: rest) (hv : v.getLsbD 0 = true) :
    step s = .next (State.softReset { s with script := rest }) := by
  rw [step_writeReg (r := .ctrl) hb hs, State.writeReg, if_pos hv]

/-- A step that meets a write of CTRL with SRST = 0 changes nothing (10_state.md R24). -/
theorem step_ctrl_of_not_srst {s : State} {v : Word} {rest : List HostAccess} (hb : s.status.busy = false)
    (hs : s.script = .write 0x00000004 4 v :: rest) (hv : v.getLsbD 0 = false) :
    step s = .next { s with script := rest } := by
  rw [step_writeReg (r := .ctrl) hb hs, State.writeReg, hv]
  rfl

/-- Two fields side by side, as a sum. -/
theorem toNat_append_eq_add {m n : Nat} (x : BitVec m) (y : BitVec n) : (x ++ y).toNat = x.toNat * 2 ^ n + y.toNat := by
  rw [BitVec.toNat_append, ← Nat.shiftLeft_add_eq_or_of_lt y.isLt, Nat.shiftLeft_eq]

/-- A pattern register's word in plain arithmetic (10_state.md R36). -/
theorem patternWord_eq (p : Pattern) : patternWord p = patWord p := by
  have hb := p.back.isLt
  have hc := p.centre.isLt
  have hf := p.front.isLt
  refine BitVec.eq_of_toNat_eq ?_
  simp only [patternWord, patWord, toNat_append_eq_add, BitVec.toNat_ofNat, show (0 : BitVec 8).toNat = 0 from rfl]
  omega

/-- P_OPTS in plain arithmetic (10_state.md R23). -/
theorem optsWord_eq (p : Params) : optsWord p =
    BitVec.ofNat 32 ((if p.lsbOrder = .swapped then 1 else 0) + (if p.bp169Mode = .scaled then 2 else 0)) := by
  unfold optsWord
  cases p.lsbOrder <;> cases p.bp169Mode <;> rfl

/-- After a reset every register reads as R23's table says. -/
theorem State.softReset_readReg (s : State) (r : Reg) : s.softReset.readReg r = resetValue s.params r := by
  cases r
  case pRomBytes =>
    simp only [State.readReg, State.softReset_params, resetValue, Params.romBytes]
    cases s.params.romSize <;> rfl
  case status => exact (by decide : Status.reset.toWord = 0)
  case faultInfo => exact (by decide : FaultInfo.toWord { space := 0, index := 0 } = 0)
  case pPat2 => exact (by decide : patternWord pat2 = 0x00400000)
  case pPat0 => exact patternWord_eq _
  case pPat1 => exact patternWord_eq _
  case pPat3 => exact patternWord_eq _
  case pOpts => exact optsWord_eq _
  all_goals rfl

/-- The soft reset leaves the reset state (10_state.md R47). -/
theorem State.softReset_isReset (s : State) : IsReset s.softReset :=
  ⟨s.softReset_readReg, fun S k => by cases S <;> rfl, fun _ _ => rfl, fun _ => rfl, rfl, rfl⟩

/-- Power-on is the soft reset of a block that has just been powered on (70_reset_and_hazards.md R147). -/
theorem State.reset_eq_softReset : State.reset = State.reset.softReset := rfl

/-- The parameters of this hardware are within R7's bounds. -/
theorem Config.params_wf : Config.params.wf := by
  have hrom := Config.cpuRomBytes.isLt
  have hstitch := Config.stitchCapLessOne.isLt
  have hy := Config.rasterCapY.isLt
  have hc := Config.rasterCapC.isLt
  have hvec := Config.vecCapLessOne.isLt
  have hfrag : Config.params.fragCapOk := by
    intro n hn
    obtain ⟨m, _, rfl⟩ := Option.map_eq_some_iff.1 hn
    exact m.isLt
  refine ⟨?_, ⟨?_, ?_⟩, ?_, ?_, ⟨?_, ?_⟩, hfrag⟩ <;> simp only [Config.params] <;> omega

/-! ## The statements -/

/-- Settles O50: such a register stores in its own field, which no other register shows. -/
theorem hostRegisterWrites : Obligations.HostRegisterWrites := by
  constructor
  · intro s r w v rest hb hr hs
    rw [hostAddr_reg] at hs
    refine ⟨_, (step_writeReg hb hs).trans (State.writeReg_stored _ v hr), stored_script s v r rest,
      State.readReg_stored_same _ v hr, fun r' hne => State.readReg_stored_other _ v hne⟩
  · intro s r v rest hb hr hs
    rw [hostAddr_reg] at hs
    rw [step_writeReg hb hs, State.writeReg_readOnly _ v hr]

/-- Settles O51: a reserved offset names no register, so a read of it returns 0 and a write of it is ignored. -/
theorem reservedOffsetsReadZero : Obligations.ReservedOffsetsReadZero := by
  intro s off rest hb hoff hlt h
  refine ⟨fun v hs => ?_, fun hs => ?_⟩
  · rw [step_write hs hb, hostWrite, target_reserved _ hoff hlt h]
  · rw [step_read hs hb, hostRead, target_reserved _ hoff hlt h]
    rfl

/-- Settles O52, by what a write of CTRL does. -/
theorem softResetIsPowerOn : Obligations.SoftResetIsPowerOn :=
  ⟨fun _ _ _ hb hs => ⟨step_softReset hb hs, step_ctrl_of_not_srst hb hs⟩, fun _ => rfl, fun _ => ⟨rfl, rfl, rfl⟩⟩

/-- Settles O1: power-on and the soft reset leave the same block. -/
theorem resetLeavesRegistersAndMemory : Obligations.ResetLeavesRegistersAndMemory := by
  refine ⟨State.reset_eq_softReset ▸ State.softReset_isReset _, rfl, optsWord_eq _, ?_⟩
  rintro s hb ⟨v, rest, hs, hv⟩
  exact ⟨_, step_softReset hb hs hv, rfl, State.softReset_isReset _⟩

/-- Settles O2: each part of the invariant holds of a block with nothing written. -/
theorem resetMeetsInvariant : Obligations.ResetMeetsInvariant :=
  ⟨Config.params_wf, State.softReset_statusOk State.reset, memIn_nil _, fragsIn_nil _, slotsIn_nil _⟩

/-- Settles O6, by what a write of CMD does while ERR = 0. -/
theorem stepRunsDecodedCommand : Obligations.StepRunsDecodedCommand := by
  constructor
  · rintro s w rest i ⟨hs, hb⟩ he hi
    rw [step_cmd hs hb, issueCommand, if_neg (by simp [he]), runWord, hi]
    rfl
  · intro s w
    have hw : BitVec.ofNat 32 (w.toNat % 2 ^ 32) = w := by
      rw [Nat.mod_eq_of_lt w.isLt, BitVec.ofNat_toNat, BitVec.setWidth_eq]
    rw [State.withFetchWord, hw]
    rfl

end Sys2Proof.Machine
end

section
/-! Proofs of the statements of 20_memory.md: O47, O48 and O49. The first layer says which element an access to a host byte address
names, one lemma for each kind of space; from it follow the access of an element, of a slot's word and of a register, and the
accesses that the port refuses. -/

namespace Sys2Proof.Machine

open Sys2Proof.Claims

/-! ## The kinds of space ids (20_memory.md R49) -/

theorem Space.ofId_id (S : Space) : Space.ofId S.id = some S := by cases S <;> decide

theorem Space.id_ne_zero (S : Space) : S.id ≠ 0 := by cases S <;> decide

theorem ScaleClass.vecId_ne_zero (cls : ScaleClass) : cls.vecId ≠ 0 := by cases cls <;> decide

theorem Space.ofId_eq_none {i : BitVec 8} (h : ∀ S : Space, S.id ≠ i) : Space.ofId i = none := by
  unfold Space.ofId
  rw [List.find?_eq_none]
  intro S _
  simpa using h S

theorem ScaleClass.ofVecId_vecId (cls : ScaleClass) : ScaleClass.ofVecId cls.vecId = some cls := by cases cls <;> decide

theorem ScaleClass.ofVecId_eq_none {i : BitVec 8} (h : ∀ cls : ScaleClass, cls.vecId ≠ i) : ScaleClass.ofVecId i = none := by
  unfold ScaleClass.ofVecId
  exact (if_neg (Ne.symm (h .L))).trans (if_neg (Ne.symm (h .C)))

/-- The ids of the two vector files. -/
theorem exists_vecId_iff {id : Nat} : (∃ cls : ScaleClass, id = cls.vecId.toNat) ↔ id = 0x18 ∨ id = 0x19 := by
  constructor
  · rintro ⟨cls, rfl⟩
    cases cls <;> decide
  · rintro (rfl | rfl)
    · exact ⟨.L, rfl⟩
    · exact ⟨.C, rfl⟩

/-- The id is that of no space at all. -/
def Unmapped (id : Nat) : Prop :=
  id ≠ 0 ∧ (∀ S : Space, id ≠ S.id.toNat) ∧ (∀ cls : ScaleClass, id ≠ cls.vecId.toNat)

/-- An id is that of the register space, of a space of plain elements, of a vector file, or of no space. -/
theorem id_kinds (id : Nat) :
    id = 0 ∨ (∃ S : Space, id = S.id.toNat) ∨ (∃ cls : ScaleClass, id = cls.vecId.toNat) ∨ Unmapped id := by
  by_cases h0 : id = 0
  · exact .inl h0
  by_cases hS : ∃ S : Space, id = S.id.toNat
  · exact .inr (.inl hS)
  by_cases hV : ∃ cls : ScaleClass, id = cls.vecId.toNat
  · exact .inr (.inr (.inl hV))
  exact .inr (.inr (.inr ⟨h0, not_exists.1 hS, not_exists.1 hV⟩))

theorem window_space (p : Params) (S : Space) : window p S.id.toNat = some (S.bytes, S.size p) := by cases S <;> rfl

theorem window_vec (p : Params) (cls : ScaleClass) : window p cls.vecId.toNat = some (4, 4 * p.vecCap) := by cases cls <;> rfl

theorem window_unmapped (p : Params) {id : Nat} (h : Unmapped id) : window p id = none := by
  obtain ⟨h0, hS, hV⟩ := h
  have hid : ∀ S ∈ Space.all, id ≠ S.id.toNat := fun S _ => hS S
  have hvec : id ≠ 0x18 ∧ id ≠ 0x19 := ⟨hV .L, hV .C⟩
  simp only [Space.all, List.cons_append, List.nil_append, List.forall_mem_cons, Space.id, BitVec.reduceToNat] at hid
  unfold window
  repeat rw [if_neg (by omega)]

/-! ## The element that an access names -/

/-- The fields of a host byte address, as the decoder of addresses reads them. -/
theorem hostAddr_fields {i : BitVec 8} {off : Nat} (hoff : off < 2 ^ 24) :
    addrSpace (hostAddr i.toNat off) = i ∧ addrOffset (hostAddr i.toNat off) = off := by
  obtain ⟨hid, ho⟩ := addr_fields i.isLt hoff
  exact ⟨BitVec.eq_of_toNat_eq hid, ho⟩

theorem target_regSpace (p : Params) {off : Nat} (bytes : Nat) (hoff : off < 2 ^ 24) :
    target p (hostAddr 0 off) bytes = (elementAt off bytes 4 64).map fun k => .reg (Reg.ofOffset (4 * k)) := by
  obtain ⟨hid, ho⟩ : addrSpace (hostAddr 0 off) = 0 ∧ addrOffset (hostAddr 0 off) = off := hostAddr_fields (i := 0) hoff
  unfold target
  rw [if_pos hid, ho]

theorem target_space (p : Params) (S : Space) {off : Nat} (bytes : Nat) (hoff : off < 2 ^ 24) :
    target p (hostAddr S.id.toNat off) bytes = (elementAt off bytes S.bytes (S.size p)).map (.elem S) := by
  obtain ⟨hid, ho⟩ := hostAddr_fields (i := S.id) hoff
  unfold target
  rw [hid, ho, if_neg S.id_ne_zero, Space.ofId_id]

theorem target_vec (p : Params) (cls : ScaleClass) {off : Nat} (bytes : Nat) (hoff : off < 2 ^ 24) :
    target p (hostAddr cls.vecId.toNat off) bytes =
      (elementAt off bytes 4 (4 * p.vecCap)).map fun k => .slotWord cls (k / 4) (k % 4) := by
  obtain ⟨hid, ho⟩ := hostAddr_fields (i := cls.vecId) hoff
  unfold target
  rw [hid, ho, if_neg cls.vecId_ne_zero, Space.ofId_eq_none fun S => S.id_ne_vecId cls, ScaleClass.ofVecId_vecId]

theorem target_unmapped (p : Params) {id off : Nat} (bytes : Nat) (hid : id < 256) (hoff : off < 2 ^ 24) (h : Unmapped id) :
    target p (hostAddr id off) bytes = none := by
  obtain ⟨h0, hS, hV⟩ := h
  obtain ⟨hi, -⟩ := addr_fields hid hoff
  change (addrSpace (hostAddr id off)).toNat = id at hi
  unfold target
  generalize addrSpace (hostAddr id off) = i at hi
  subst hi
  rw [if_neg fun e => h0 (by rw [e]; rfl), Space.ofId_eq_none fun S e => hS S (by rw [e]),
    ScaleClass.ofVecId_eq_none fun cls e => hV cls (by rw [e])]

/-- Element k of a space is at offset `k × w` (20_memory.md R49). -/
theorem target_elem {p : Params} (hp : p.wf) {S : Space} {k : Nat} (hk : k < S.size p) :
    target p (hostAddr S.id.toNat (k * S.bytes)) S.bytes = some (.elem S k) := by
  have hpos := S.bytes_pos
  have hoff : k * S.bytes < 2 ^ 24 :=
    Nat.lt_of_lt_of_le (Nat.mul_lt_mul_of_pos_right hk hpos) (Space.size_mul_bytes_le hp S)
  have hdiv : k * S.bytes / S.bytes = k := Nat.mul_div_cancel k hpos
  rw [target_space p S S.bytes hoff, elementAt, hdiv, if_pos ⟨rfl, Nat.mul_mod_left k S.bytes, hk⟩, Option.map_some]

/-- Word j of slot n of a vector file is at offset `16n + 4j` (30_encoding.md R82). -/
theorem target_slotWord {p : Params} (hp : p.wf) (cls : ScaleClass) {n j : Nat} (hn : n < p.vecCap) (hj : j < 4) :
    target p (hostAddr cls.vecId.toNat (16 * n + 4 * j)) 4 = some (.slotWord cls n j) := by
  obtain ⟨_, _, _, _, ⟨_, hcap⟩, _⟩ := hp
  have hword : (16 * n + 4 * j) / 4 = 4 * n + j := by omega
  have hslot : (4 * n + j) / 4 = n := by omega
  have hrest : (4 * n + j) % 4 = j := by omega
  rw [target_vec p cls 4 (by omega), elementAt, hword, if_pos ⟨rfl, by omega, by omega⟩, Option.map_some, hslot, hrest]

/-- Only an access of a vector file names a slot's word. -/
theorem vecId_of_target_slotWord {p : Params} {id off bytes : Nat} (hid : id < 256) (hoff : off < 2 ^ 24) {cls : ScaleClass}
    {n j : Nat} (h : target p (hostAddr id off) bytes = some (.slotWord cls n j)) : id = 0x18 ∨ id = 0x19 := by
  rcases id_kinds id with rfl | ⟨S, rfl⟩ | hV | hu
  · simp [target_regSpace p bytes hoff] at h
  · simp [target_space p S bytes hoff] at h
  · exact exists_vecId_iff.1 hV
  · simp [target_unmapped p bytes hid hoff hu] at h

theorem elementAt_eq_none_iff {off bytes w n : Nat} :
    elementAt off bytes w n = none ↔ bytes ≠ w ∨ off % w ≠ 0 ∨ n ≤ off / w := by
  unfold elementAt
  split
  · next h => simp only [reduceCtorEq, false_iff]; omega
  · next h => simp only [true_iff]; omega

/-- An access names nothing exactly when it fails the width, the alignment or the bound of its window, or has none
(20_memory.md R58, R59). -/
theorem target_eq_none_iff (p : Params) {id off : Nat} (bytes : Nat) (hid : id < 256) (hoff : off < 2 ^ 24) :
    target p (hostAddr id off) bytes = none ↔ Refused p id off bytes false := by
  unfold Refused
  rcases id_kinds id with rfl | ⟨S, rfl⟩ | ⟨cls, rfl⟩ | hu
  · have hw : window p 0 = some (4, 64) := rfl
    simp [target_regSpace p bytes hoff, hw, elementAt_eq_none_iff]
  · simp [target_space p S bytes hoff, window_space, elementAt_eq_none_iff]
  · simp [target_vec p cls bytes hoff, window_vec, elementAt_eq_none_iff]
  · simp [target_unmapped p bytes hid hoff hu, window_unmapped p hu]

/-- A write that the port does not perform: it names nothing, or a word of a vector file (20_memory.md R58). -/
def WriteRefused (p : Params) (a : Word) (bytes : Nat) : Prop :=
  target p a bytes = none ∨ ∃ cls n j, target p a bytes = some (.slotWord cls n j)

theorem writeRefused_iff (p : Params) {id off : Nat} (bytes : Nat) (hid : id < 256) (hoff : off < 2 ^ 24) :
    WriteRefused p (hostAddr id off) bytes ↔ Refused p id off bytes true := by
  have hread : Refused p id off bytes true ↔ Refused p id off bytes false ∨ id = 0x18 ∨ id = 0x19 := by simp [Refused]
  rw [hread, ← target_eq_none_iff p bytes hid hoff]
  constructor
  · rintro (h | ⟨cls, n, j, h⟩)
    · exact .inl h
    · exact .inr (vecId_of_target_slotWord hid hoff h)
  · rintro (h | h)
    · exact .inl h
    · obtain ⟨cls, rfl⟩ := exists_vecId_iff.2 h
      rw [WriteRefused, target_vec p cls bytes hoff]
      cases elementAt off bytes 4 (4 * p.vecCap) with
      | none => exact .inl rfl
      | some k => exact .inr ⟨cls, k / 4, k % 4, rfl⟩

/-! ## A write of an element -/

theorem hostWrite_elem {s : State} {S : Space} {k : Nat} (v : Word) (hp : s.params.wf) (hk : k < S.size s.params) :
    hostWrite (hostAddr S.id.toNat (k * S.bytes)) S.bytes v s = .next (s.write S k v) := by
  rw [hostWrite, target_elem hp hk]

/-- An element holds the value's low bits, those of its width. -/
theorem State.read_write_mod (s : State) (S : Space) (k : Nat) (v : Word) :
    (s.write S k v).read S k = some (BitVec.ofNat 32 (v.toNat % 2 ^ (8 * S.bytes))) := by
  rw [State.read_write_same]
  congr 1
  exact BitVec.eq_of_toNat_eq (by simp)

/-- Byte b of an element holds bits [8b+7:8b] of the value (20_memory.md R52). -/
theorem State.byte_write_inside (s : State) (S : Space) (k : Nat) (v : Word) {b : Nat} (hb : b < S.bytes) :
    (s.write S k v).mem.read (S.addr k + b) = some (BitVec.ofNat 8 (v.toNat / 2 ^ (8 * b))) := by
  rw [State.write_mem, Memory.read_writeLE, if_pos (by omega), Nat.add_sub_cancel_left]
  congr 1
  exact BitVec.eq_of_toNat_eq (by simp [Nat.shiftRight_eq_div_pow])

/-! ## An admitted read -/

/-- The free value of an n-byte read has the element's width. -/
theorem freeRead_lt (d n : Nat) : (Config.freeRead d &&& BitVec.ofNat 32 (2 ^ (8 * n) - 1)).toNat < 2 ^ (8 * n) := by
  have hpos : 0 < 2 ^ (8 * n) := Nat.two_pow_pos _
  rw [BitVec.toNat_and, BitVec.toNat_ofNat]
  have := Nat.and_le_right (n := (Config.freeRead d).toNat) (m := (2 ^ (8 * n) - 1) % 2 ^ 32)
  have := Nat.mod_le (2 ^ (8 * n) - 1) (2 ^ 32)
  omega

theorem hostRead_value {s : State} {a : Word} {n : Nat} {T : Target} {v : Word} (ht : target s.params a n = some T)
    (hv : s.readTarget T = some v) : hostRead a n s = s.reply v := by
  simp only [hostRead, ht, hv]

theorem hostRead_unwritten {s : State} {a : Word} {n : Nat} {T : Target} (ht : target s.params a n = some T)
    (hv : s.readTarget T = none) : hostRead a n s = s.replyFree n := by
  simp only [hostRead, ht, hv]

/-- A step that meets a read of a written element returns its value and changes nothing else. -/
theorem step_read_value {s : State} {a : Word} {n : Nat} {rest : List HostAccess} {T : Target} {v : Word}
    (hb : s.status.busy = false) (hs : s.script = .read a n :: rest) (ht : target s.params a n = some T)
    (hv : s.readTarget T = some v) : step s = .next { s with script := rest, replies := v :: s.replies } := by
  rw [step_read hs hb, hostRead_value (s := { s with script := rest }) ht hv]
  rfl

/-- A step that meets a read of an unwritten element returns the next draw and changes nothing else. -/
theorem step_read_unwritten {s : State} {a : Word} {n : Nat} {rest : List HostAccess} {T : Target}
    (hb : s.status.busy = false) (hs : s.script = .read a n :: rest) (ht : target s.params a n = some T)
    (hv : s.readTarget T = none) : ∃ v : Word, v.toNat < 2 ^ (8 * n) ∧
      step s = .next { s with script := rest, replies := v :: s.replies, draws := s.draws + 1 } := by
  refine ⟨_, freeRead_lt s.draws n, ?_⟩
  rw [step_read hs hb, hostRead_unwritten (s := { s with script := rest }) ht hv]
  rfl

/-- The four words of a written slot (30_encoding.md R82). -/
theorem State.readSlot_words {s : State} {cls : ScaleClass} {n : Nat} {e : VectorEntry} (h : s.readSlot cls n = some e) :
    s.mem.readLE (cls.slotAddr n) 4 = some e.back ∧ s.mem.readLE (cls.slotAddr n + 4) 4 = some e.centre ∧
    s.mem.readLE (cls.slotAddr n + 8) 4 = some e.front ∧
    ∃ g, s.mem.readLE (cls.slotAddr n + 12) 4 = some g ∧ g.getLsbD 0 = e.hasFront := by
  unfold State.readSlot Memory.readSlot at h
  split at h
  · next b c f g hb hc hf hg =>
    cases h
    exact ⟨hb, hc, hf, g, hg, rfl⟩
  · cases h

/-- Word j of a written slot. -/
theorem State.readTarget_slotWord {s : State} {cls : ScaleClass} {n j : Nat} {e : VectorEntry} (hn : n < s.params.vecCap)
    (hj : j < 4) (h : s.readSlot cls n = some e) :
    ∃ v, s.readTarget (.slotWord cls n j) = some v ∧ (j = 0 → v = e.back) ∧ (j = 1 → v = e.centre) ∧
      (j = 2 → v = e.front) ∧ (j = 3 → v.getLsbD 0 = e.hasFront ∧ (s.slotsOk → v = if e.hasFront then 1 else 0)) := by
  obtain ⟨hb, hc, hf, g, hg, hflag⟩ := State.readSlot_words h
  have hword : s.slotsOk → g = if e.hasFront then 1 else 0 := fun hok => by
    simpa [hg] using hok.flags hn h
  have hread : s.readTarget (.slotWord cls n j) = s.mem.readLE (cls.slotAddr n + 4 * j) 4 :=
    if_pos (Option.isSome_iff_exists.2 ⟨e, h⟩)
  rw [hread]
  generalize cls.slotAddr n = a at hb hc hf hg
  obtain rfl | rfl | rfl | rfl : j = 0 ∨ j = 1 ∨ j = 2 ∨ j = 3 := by omega
  · exact ⟨_, hb, by simp⟩
  · exact ⟨_, hc, by simp⟩
  · exact ⟨_, hf, by simp⟩
  · exact ⟨g, hg, by simp, by simp, by simp, fun _ => ⟨hflag, hword⟩⟩

/-! ### The word of a register -/

/-- The word of a register in plain arithmetic (10_state.md R23): the layouts of STATUS and FAULT_INFO, a field, or, where only
the parameters fix the value, what it is after a reset. -/
theorem State.toNat_readReg (s : State) (r : Reg) : (s.readReg r).toNat = regWord s r := by
  have hreset := congrArg BitVec.toNat (s.softReset_readReg r)
  cases r
  case status => exact s.status.toNat_toWord
  case faultInfo => exact s.faultInfo.toNat_toWord
  case fragCount => exact BitVec.toNat_ofNat ..
  case std | vtStart | vtLen | vtField | geomBpl | geomCl | geomFpl | geomLpf | stitchLen | blankY | blankC =>
    exact BitVec.toNat_setWidth_of_le (by decide)
  case ctrl | arg0 | arg1 | arg2 | arg3 | cmd | result0 => rfl
  all_goals exact hreset

theorem State.readReg_eq_regWord (s : State) (r : Reg) : s.readReg r = BitVec.ofNat 32 (regWord s r) := by
  rw [← s.toNat_readReg r, BitVec.ofNat_toNat, BitVec.setWidth_eq]

/-! ## Refused accesses, and HOSTERR -/

theorem hostRead_refused {s : State} {a : Word} {n : Nat} (h : target s.params a n = none) :
    hostRead a n s = s.refuseAccess.replyFree n := by
  simp only [hostRead, h]

/-- A read that the port admits keeps STATUS, whether or not it finds a value. -/
theorem hostRead_status {s : State} {a : Word} {n : Nat} {T : Target} (h : target s.params a n = some T) :
    (hostRead a n s).status = s.status := by
  match hv : s.readTarget T with
  | some v => rw [hostRead_value h hv, State.reply_status]
  | none => rw [hostRead_unwritten h hv, State.replyFree_status]

theorem hostWrite_refused {s : State} {a : Word} {n : Nat} (v : Word) (h : WriteRefused s.params a n) :
    hostWrite a n v s = .next s.refuseAccess := by
  rcases h with h | ⟨cls, m, j, h⟩
  · simp only [hostWrite, h]
  · simp only [hostWrite, h]

theorem issueCommand_hosterr {w : Word} {s t : State} (h : issueCommand w s = .next t) :
    t.status.hosterr = s.status.hosterr := by
  rcases issueCommand_cases h with ⟨_, rfl⟩ | ⟨_, ⟨_, _, rfl⟩ | ⟨i, _, hi⟩⟩
  · rfl
  · rfl
  · obtain ⟨-, -, -, -, -, -, hkeep, -⟩ := commandsLeaveOperandsAndConfiguration _ _ _ hi
    exact hkeep

/-- A write of a register keeps HOSTERR, the soft reset apart. -/
theorem State.writeReg_hosterr {s t : State} {r : Reg} {v : Word} (h : s.writeReg r v = .next t)
    (hr : ¬(r = .ctrl ∧ v.getLsbD 0 = true)) : t.status.hosterr = s.status.hosterr := by
  rcases writeReg_cases h with ⟨_, hi⟩ | ⟨hc, hv, _⟩ | ⟨_, rfl⟩ | ⟨_, rfl⟩ | rfl
  · exact issueCommand_hosterr hi
  · exact absurd ⟨hc, hv⟩ hr
  · rfl
  · rfl
  · rfl

/-- A write that the port admits keeps HOSTERR, the soft reset apart. -/
theorem hostWrite_hosterr {s t : State} {a : Word} {n : Nat} {v : Word} (h : ¬WriteRefused s.params a n)
    (hr : ¬(a = Reg.ctrl.addr ∧ n = 4 ∧ v.getLsbD 0 = true)) (hw : hostWrite a n v s = .next t) :
    t.status.hosterr = s.status.hosterr := by
  unfold hostWrite at hw
  split at hw
  · next hn => exact absurd (.inl hn) h
  · next r ht =>
    obtain ⟨ha, hn⟩ := target_reg ht
    exact State.writeReg_hosterr hw fun ⟨hc, hv⟩ => hr ⟨hc ▸ ha, hn, hv⟩
  · cases hw
    rfl
  · cases hw
    rfl
  · next ht => exact absurd (.inr ⟨_, _, _, ht⟩) h

/-! ## The statements -/

/-- Settles O47: the address names the element, and a write of an element stores its bytes. -/
theorem hostWriteStoresElement : Obligations.HostWriteStoresElement := by
  intro s S k v rest hp hb hk hs
  refine ⟨_, (step_write hs hb).trans (hostWrite_elem v hp hk), rfl, State.read_write_mod _ S k v,
    fun b => State.byte_write_inside _ S k v, State.write_frame _ S k v⟩

/-- Settles O48: the address names the element, the slot's word or the register, and the read finds what it holds. -/
theorem hostReadReturnsElement : Obligations.HostReadReturnsElement := by
  refine ⟨fun s S k rest hp hb hk hs => ?_, fun s cls n j rest hp hb hn hj hs => ?_, fun s r rest hb hs => ?_⟩
  · have ht := target_elem hp hk
    exact ⟨fun v hv => step_read_value hb hs ht hv, fun hv => step_read_unwritten hb hs ht hv⟩
  · have ht := target_slotWord hp cls hn hj
    refine ⟨fun e he => ?_, fun he => ?_⟩
    · obtain ⟨v, hv, hword⟩ := State.readTarget_slotWord hn hj he
      exact ⟨v, step_read_value hb hs ht hv, hword⟩
    · obtain ⟨v, -, hv⟩ := step_read_unwritten hb hs ht (by simp [State.readTarget, he])
      exact ⟨v, hv⟩
  · rw [hostAddr_reg] at hs
    exact step_read_value hb hs (target_of_reg _ r) (congrArg some (s.readReg_eq_regWord r))

/-- Settles O49: an access is refused when its address names nothing, or is a write of a vector file; what an admitted one does
to STATUS follows from what it names. -/
theorem hostPortRefuses : Obligations.HostPortRefuses := by
  intro s id off bytes rest _ hb hid hoff
  refine ⟨fun v hs => ⟨fun h => ?_, fun h hsr => ?_⟩, fun hs => ⟨fun h => ?_, fun h => ?_⟩⟩
  · rw [← writeRefused_iff _ bytes hid hoff] at h
    exact (step_write hs hb).trans (hostWrite_refused (s := { s with script := rest }) v h)
  · rw [← writeRefused_iff _ bytes hid hoff] at h
    obtain ⟨t, ht⟩ := step_next_of_not_busy hb
    have hr : ¬(hostAddr id off = Reg.ctrl.addr ∧ bytes = 4 ∧ v.getLsbD 0 = true) := by
      rintro ⟨ha, rfl, hv⟩
      exact hsr ⟨v, rest, hs.trans (by rw [ha]; rfl), hv⟩
    exact ⟨t, ht, hostWrite_hosterr (s := { s with script := rest }) h hr ((step_write hs hb).symm.trans ht)⟩
  · rw [← target_eq_none_iff _ bytes hid hoff] at h
    exact ⟨_, (step_read hs hb).trans (congrArg _ (hostRead_refused (s := { s with script := rest }) h))⟩
  · rw [← target_eq_none_iff _ bytes hid hoff, ← ne_eq, Option.ne_none_iff_exists'] at h
    obtain ⟨T, hT⟩ := h
    exact ⟨_, step_read hs hb, hostRead_status (s := { s with script := rest }) hT⟩

end Sys2Proof.Machine
end

section
/-! Proofs of the statements of 30_encoding.md: O4, O5, O3 and O11. The first layer reads a command word as its three fields and
says once, in `decodeOpc_cases`, what the decoder answers for each kind of opcode; the round trip and the illegal words follow. -/

namespace Sys2Proof.Machine

open Sys2Proof.Claims

/-! ## The fields of a command word (30_encoding.md R68) -/

theorem opcField_toNat (w : Word) : (opcField w).toNat = w.toNat % 256 := by
  rw [opcField, BitVec.extractLsb'_toNat, Nat.shiftRight_zero]

theorem compField_toNat (w : Word) : (compField w).toNat = w.toNat / 256 % 4 := by
  rw [compField, BitVec.extractLsb'_toNat, Nat.shiftRight_eq_div_pow]

theorem rsvdField_toNat (w : Word) : (rsvdField w).toNat = w.toNat / 1024 := by
  have := w.isLt
  rw [rsvdField, BitVec.extractLsb'_toNat, Nat.shiftRight_eq_div_pow]
  omega

/-- A word is its three fields side by side. -/
theorem fields_append (w : Word) : rsvdField w ++ compField w ++ opcField w = w := by
  refine BitVec.eq_of_toNat_eq ?_
  rw [toNat_append_eq_add, toNat_append_eq_add, rsvdField_toNat, compField_toNat, opcField_toNat]
  omega

theorem noCompOpcodes_disjoint : ∀ n ∈ noCompOpcodes, n ∉ compOpcodes := by decide

/-- The words that R73 leaves, by their fields. -/
theorem legalWord_iff (w : Word) :
    ¬IllegalWord w ↔ rsvdField w = 0 ∧
      (((opcField w).toNat ∈ noCompOpcodes ∧ compField w = 0) ∨ (opcField w).toNat ∈ compOpcodes) := by
  have hdisj := noCompOpcodes_disjoint (opcField w).toNat
  have hzero : ∀ {n : Nat} (b : BitVec n), b = 0 ↔ b.toNat = 0 := fun b => by simp [BitVec.toNat_eq]
  rw [IllegalWord, hzero, hzero, ← opcField_toNat, ← compField_toNat, ← rsvdField_toNat]
  tauto

/-! ## The decoder (30_encoding.md R69 to R73) -/

theorem compBits_compOfBits (b : BitVec 2) : compBits (compOfBits b) = b := by revert b; decide

/-- What the decoder answers for an opcode that does not use COMP, for one that does, and for a reserved one. -/
theorem decodeOpc_cases (w : Word) :
    (∃ i, opcField w = opcOf i ∧ compOf i = 0 ∧ (opcField w).toNat ∈ noCompOpcodes ∧ decodeOpc w = noComp w i) ∨
    (∃ i, opcField w = opcOf i ∧ compOf i = compField w ∧ (opcField w).toNat ∈ compOpcodes ∧ decodeOpc w = .ok i) ∨
    ((opcField w).toNat ∉ noCompOpcodes ∧ (opcField w).toNat ∉ compOpcodes ∧
      decodeOpc w = .error .reservedOpcode) := by
  -- The cases are numbered as the arms of `decodeOpc`: first those that do not use COMP, then those that do.
  fun_cases decodeOpc w
  case case1 h | case2 h | case4 h | case6 h | case8 h | case12 h =>
    refine .inl ⟨_, ?_, ?_, ?_, rfl⟩
    · exact BitVec.eq_of_toNat_eq h
    · rfl
    · simp [h, noCompOpcodes]
  case case3 c h | case5 c h | case7 c h | case9 c h | case10 c h | case11 c h | case13 c h =>
    refine .inr (.inl ⟨_, ?_, ?_, ?_, rfl⟩)
    · exact BitVec.eq_of_toNat_eq h
    · exact compBits_compOfBits _
    · simp [h, compOpcodes]
  case case14 => exact .inr (.inr ⟨by simp_all [noCompOpcodes], by simp_all [compOpcodes], rfl⟩)

/-- An opcode that does not use COMP takes COMP = 0 only (R72). -/
theorem noComp_ok {w : Word} {i j : Instr} : noComp w i = .ok j ↔ compField w = 0 ∧ i = j := by
  unfold noComp; split <;> simp_all

/-- The decoder accepts a word with RSVD = 0 whose opcode it accepts. -/
theorem decode_ok {w : Word} {i : Instr} : decode w = .ok i ↔ rsvdField w = 0 ∧ decodeOpc w = .ok i := by
  unfold decode; split <;> simp_all

/-- An accepted word holds the opcode and the COMP value of its command. -/
theorem decodeOpc_fields {w : Word} {i : Instr} (h : decodeOpc w = .ok i) : opcField w = opcOf i ∧ compField w = compOf i := by
  rcases decodeOpc_cases w with ⟨j, hopc, hcomp, -, hd⟩ | ⟨j, hopc, hcomp, -, hd⟩ | ⟨-, -, hd⟩
  · obtain ⟨hw, rfl⟩ := noComp_ok.1 (hd.symm.trans h)
    exact ⟨hopc, hw.trans hcomp.symm⟩
  · obtain rfl := Except.ok.inj (hd.symm.trans h)
    exact ⟨hopc, hcomp.symm⟩
  · exact absurd (hd.symm.trans h) nofun

theorem eq_encode_of_decode {w : Word} {i : Instr} (h : decode w = .ok i) : w = encode i := by
  obtain ⟨hrsvd, hd⟩ := decode_ok.1 h
  obtain ⟨hopc, hcomp⟩ := decodeOpc_fields hd
  rw [encode, ← hrsvd, ← hopc, ← hcomp, fields_append]

/-- The round trip of PerInstr.lean, for all commands. -/
theorem roundTrip (i : Instr) : Laws.RoundTrip.Statement i := by
  cases i with
  | nop => exact Laws.RoundTrip.nop
  | reconLuma => exact Laws.RoundTrip.reconLuma
  | reconChroma c => exact Laws.RoundTrip.reconChroma c
  | splitLuma => exact Laws.RoundTrip.splitLuma
  | splitChroma c => exact Laws.RoundTrip.splitChroma c
  | vdec => exact Laws.RoundTrip.vdec
  | venc c => exact Laws.RoundTrip.venc c
  | stitchGen => exact Laws.RoundTrip.stitchGen
  | asmLine c => exact Laws.RoundTrip.asmLine c
  | asmBlank c => exact Laws.RoundTrip.asmBlank c
  | asmFrame c => exact Laws.RoundTrip.asmFrame c
  | fragClear => exact Laws.RoundTrip.fragClear
  | fragQuery c => exact Laws.RoundTrip.fragQuery c

theorem decode_encode (i : Instr) : decode (encode i) = .ok i := (roundTrip i).1

/-! ## Illegal words (30_encoding.md R73) -/

theorem legalWord_iff_decode (w : Word) : ¬IllegalWord w ↔ ∃ i, decode w = .ok i := by
  simp only [legalWord_iff, decode_ok, exists_and_left]
  refine and_congr_right fun _ => ?_
  rcases decodeOpc_cases w with ⟨i, -, -, hmem, hd⟩ | ⟨i, -, -, hmem, hd⟩ | ⟨hno, hcomp, hd⟩
  · simp [hd, noComp_ok, hmem, noCompOpcodes_disjoint _ hmem]
  · simp [hd, hmem]
  · simp [hd, hno, hcomp]

theorem decode_error_iff (w : Word) : (∃ r, decode w = .error r) ↔ IllegalWord w := by
  rw [← not_iff_not, legalWord_iff_decode]
  cases decode w <;> simp

/-! ### The opcode table's rows -/

/-- The rows of a command's word bear the command's mnemonic. -/
theorem mnemonic_of_takes_encode {i : Instr} {row : OpcodeRow} (hmem : row ∈ opcodeRows)
    (ht : row.takes (encode i) = true) : row.mnemonic = mnemonicOf i := by
  obtain ⟨-, -, hrows⟩ := roundTrip i
  rw [← List.mem_singleton, ← hrows]
  exact List.mem_map_of_mem (List.mem_filter.2 ⟨hmem, ht⟩)

/-- Every command's word belongs to a row. -/
theorem exists_row_takes_encode (i : Instr) : ∃ row ∈ opcodeRows, row.takes (encode i) = true := by
  obtain ⟨-, -, hrows⟩ := roundTrip i
  have hmem : mnemonicOf i ∈ (opcodeRows.filter fun r => r.takes (encode i)).map OpcodeRow.mnemonic :=
    hrows ▸ List.mem_singleton_self _
  obtain ⟨row, hrow, -⟩ := List.mem_map.1 hmem
  exact ⟨row, List.mem_filter.1 hrow⟩

/-- Every row fixes RSVD and OPC, and COMP too where its opcode does not use it. -/
theorem opcodeRows_fields : ∀ row ∈ opcodeRows,
    rsvdField row.mask = BitVec.allOnes 22 ∧ opcField row.mask = BitVec.allOnes 8 ∧ rsvdField row.pattern = 0 ∧
    (((opcField row.pattern).toNat ∈ noCompOpcodes ∧ compField row.mask = BitVec.allOnes 2 ∧ compField row.pattern = 0) ∨
      (opcField row.pattern).toNat ∈ compOpcodes) := by
  decide

/-- A field that a row's mask fixes is the pattern's in every word of the row. -/
theorem field_of_takes {w : Word} {row : OpcodeRow} {start n : Nat} (ht : row.takes w = true)
    (hm : row.mask.extractLsb' start n = BitVec.allOnes n) : w.extractLsb' start n = row.pattern.extractLsb' start n := by
  rw [← beq_iff_eq.1 ht, BitVec.extractLsb'_and, hm, BitVec.and_allOnes]

theorem legalWord_of_takes {w : Word} {row : OpcodeRow} (hmem : row ∈ opcodeRows) (ht : row.takes w = true) :
    ¬IllegalWord w := by
  obtain ⟨hrsvd, hopc, hzero, hkind⟩ := opcodeRows_fields row hmem
  have hopc : opcField w = opcField row.pattern := field_of_takes ht hopc
  have hrsvd : rsvdField w = rsvdField row.pattern := field_of_takes ht hrsvd
  rw [legalWord_iff, hrsvd, hopc]
  refine ⟨hzero, hkind.imp_left fun ⟨hno, hcomp, hpat⟩ => ⟨hno, ?_⟩⟩
  exact (field_of_takes ht hcomp).trans hpat

/-! ## A component that a command cannot act on (30_encoding.md R70) -/

theorem selectComponent_not_named {c : Comp} (h : c.named = false) : selectComponent c = .error (atReg .config .cmd) := by
  cases c with
  | lumaLsb => rfl
  | luma | rY | bY => cases h

theorem selectChroma_not_chroma {c : Comp} (h : c.isChroma = false) : selectChroma c = .error (atReg .config .cmd) := by
  cases c with
  | luma | lumaLsb => rfl
  | rY | bY => cases h

/-- The commands that use COMP look at it before every other check. -/
theorem bodyOf_not_wf {i : Instr} (s : State) (h : i.wf = false) : bodyOf i s = .error (atReg .config .cmd) := by
  cases i with
  | reconChroma c => rw [bodyOf, reconChromaBody, selectChroma_not_chroma h, staged_error_bind]
  | splitChroma c => rw [bodyOf, splitChromaBody, selectChroma_not_chroma h, staged_error_bind]
  | venc c => rw [bodyOf, vencBody, selectComponent_not_named h, staged_error_bind]
  | asmLine c => rw [bodyOf, asmLineBody, selectComponent_not_named h, staged_error_bind]
  | asmBlank c => rw [bodyOf, asmBlankBody, selectComponent_not_named h, staged_error_bind]
  | asmFrame c => rw [bodyOf, asmFrameBody, selectComponent_not_named h, staged_error_bind]
  | fragQuery c => rw [bodyOf, fragQueryBody, selectComponent_not_named h, staged_error_bind]
  | nop | reconLuma | splitLuma | vdec | stitchGen | fragClear => cases h

/-! ## The statements -/

/-- Settles O4: an accepted word is put together again from its fields, and each command's word decodes to the command. -/
theorem decodeEncodeAgree : Obligations.DecodeEncodeAgree :=
  fun _ i => ⟨eq_encode_of_decode, fun h => h ▸ decode_encode i⟩

/-- Settles O5: the decoder rejects a word for its fields, and the table's rows fix the same fields. -/
theorem illegalWordsFault : Obligations.IllegalWordsFault := by
  refine ⟨decode_error_iff, fun w => ⟨fun ⟨_, hmem, ht⟩ => legalWord_of_takes hmem ht, fun h => ?_⟩, ?_, ?_⟩
  · obtain ⟨i, hi⟩ := (legalWord_iff_decode w).1 h
    exact eq_encode_of_decode hi ▸ exists_row_takes_encode i
  · intro w i row hi hmem ht
    exact mnemonic_of_takes_encode hmem (eq_encode_of_decode hi ▸ ht)
  · rintro s w rest ⟨hs, hb⟩ he hw
    obtain ⟨r, hr⟩ := (decode_error_iff w).2 hw
    rw [step_cmd hs hb, issueCommand, if_neg (by simp [he]), runWord, hr]
    rfl

/-- Settles O3, by evaluation of the decoder at each word. -/
theorem commandWordsDecode : Obligations.CommandWordsDecode := by
  unfold Obligations.CommandWordsDecode
  decide

/-- Settles O11: the commands listed are not well-formed, and so raise CONFIG for their COMP value. -/
theorem unusableComponentFaultsConfig : Obligations.UnusableComponentFaultsConfig := by
  refine ⟨by decide, fun s i hi => exec_error (bodyOf_not_wf _ ?_)⟩
  revert i
  decide

end Sys2Proof.Machine
end

section
/-! Proofs of the statements of 40_reconstructor.md, part 1: what the four commands have in common. At each raw address of its
range a command reads some elements, checks them, and writes others. `State.stores` carries out a list of writes; a `gather`
answers the writes that a raw address calls for, or the fault. No command writes a space that it reads, so the state that the
loop starts in settles everything (`forRange_transfer`). -/

namespace Sys2Proof.Machine

open Sys2Proof.Claims

/-! ## Lists of steps -/

/-- Steps that all answer a value answer the list of their values. -/
theorem mapM_ok {α β : Type} {g : α → Staged β} {l : List α} {v : α → β} (h : ∀ a ∈ l, g a = .ok (v a)) :
    l.mapM g = .ok (l.map v) := by
  induction l with
  | nil => rfl
  | cons a l ih =>
    obtain ⟨ha, hl⟩ := List.forall_mem_cons.1 h
    rw [List.mapM_cons, ha, staged_ok_bind, ih hl, staged_ok_bind]
    rfl

/-- A list of steps raises what its first raising step raises. -/
theorem mapM_error {α β : Type} {g : α → Staged β} {before after : List α} {a : α} {e : Raised}
    (hb : ∀ b ∈ before, ∃ v, g b = .ok v) (ha : g a = .error e) : (before ++ a :: after).mapM g = .error e := by
  induction before with
  | nil => rw [List.nil_append, List.mapM_cons, ha, staged_error_bind]
  | cons b before ih =>
    obtain ⟨⟨v, hv⟩, hl⟩ := List.forall_mem_cons.1 hb
    rw [List.cons_append, List.mapM_cons, hv, staged_ok_bind, ih hl, staged_error_bind]

/-- A list of steps answers exactly when each step does. -/
theorem exists_mapM_ok_iff {α β : Type} {g : α → Staged β} {l : List α} :
    (∃ vs, l.mapM g = .ok vs) ↔ ∀ a ∈ l, ∃ v, g a = .ok v := by
  induction l with
  | nil => simpa using ⟨[], rfl⟩
  | cons a l ih =>
    rw [List.forall_mem_cons, ← ih]
    simp only [List.mapM_cons, staged_bind_ok]
    constructor
    · rintro ⟨_, v, hv, vs, hvs, -⟩
      exact ⟨⟨v, hv⟩, vs, hvs⟩
    · rintro ⟨⟨v, hv⟩, vs, hvs⟩
      exact ⟨v :: vs, v, hv, vs, hvs, rfl⟩

theorem mapM_congr {α β : Type} {g g' : α → Staged β} {l : List α} (h : ∀ a ∈ l, g a = g' a) : l.mapM g = l.mapM g' := by
  induction l with
  | nil => rfl
  | cons a l ih =>
    obtain ⟨ha, hl⟩ := List.forall_mem_cons.1 h
    rw [List.mapM_cons, List.mapM_cons, ha, ih hl]

/-- A range is what comes before one of its members, the member, and what comes after. -/
theorem range'_eq_append_cons {i n j : Nat} (h1 : i ≤ j) (h2 : j < i + n) :
    List.range' i n = List.range' i (j - i) ++ j :: List.range' (j + 1) (i + n - j - 1) := by
  have hcons : j :: List.range' (j + 1) (i + n - j - 1) = List.range' (i + (j - i)) (i + n - j - 1 + 1) := by
    rw [List.range'_succ, Nat.add_sub_cancel' h1]
  rw [hcons, List.range'_append_1]
  congr 1
  omega

/-! ## Lists of writes -/

/-- An element and the value written to it. -/
structure Store where
  space : Space
  index : Nat
  value : Word

/-- Writes elements in the order of a list. -/
def State.stores (s : State) : List Store → State
  | [] => s
  | e :: es => (s.write e.space e.index e.value).stores es

/-- The elements exist. -/
def InBounds (p : Params) (es : List Store) : Prop := ∀ e ∈ es, e.index < e.space.size p

theorem State.stores_append (s : State) (es fs : List Store) : s.stores (es ++ fs) = (s.stores es).stores fs := by
  induction es generalizing s with
  | nil => rfl
  | cons e es ih => exact ih _

theorem State.stores_memOnly (s : State) (es : List Store) : MemOnly s (s.stores es) := by
  induction es generalizing s with
  | nil => exact .refl s
  | cons e es ih => exact MemOnly.trans (t := s.write e.space e.index e.value) rfl (ih _)

@[simp] theorem State.stores_params (s : State) (es : List Store) : (s.stores es).params = s.params := by
  rw [s.stores_memOnly es]

theorem State.byte_stores_outside (s : State) {es : List Store} {a : Nat} (h : ∀ e ∈ es, ¬e.space.range e.index 1 a) :
    (s.stores es).mem.read a = s.mem.read a := by
  induction es generalizing s with
  | nil => rfl
  | cons e es ih =>
    obtain ⟨he, hes⟩ := List.forall_mem_cons.1 h
    exact (ih _ hes).trans (State.write_frame s e.space e.index e.value a he)

/-- An element that no write of the list names reads as before. -/
theorem State.read_stores_other (s : State) {es : List Store} {S : Space} {k : Nat} (hp : s.params.wf)
    (hes : InBounds s.params es) (hk : k < S.size s.params) (h : ∀ e ∈ es, e.space ≠ S ∨ e.index ≠ k) :
    (s.stores es).read S k = s.read S k := by
  induction es generalizing s with
  | nil => rfl
  | cons e es ih =>
    obtain ⟨he, hl⟩ := List.forall_mem_cons.1 h
    obtain ⟨hb, hbl⟩ := List.forall_mem_cons.1 hes
    exact (ih (s.write e.space e.index e.value) hp hbl hk hl).trans (State.read_write_other s e.value hp hb hk he)

/-- An element that a write of the list names reads as the value, where all writes that name it agree on one. -/
theorem State.read_stores_mem (s : State) {es : List Store} {e : Store} (hp : s.params.wf) (hes : InBounds s.params es)
    (he : e ∈ es) (hfit : e.value.toNat < 2 ^ (8 * e.space.bytes))
    (huniq : ∀ d ∈ es, d.space = e.space → d.index = e.index → d.value = e.value) :
    (s.stores es).read e.space e.index = some e.value := by
  induction es generalizing s with
  | nil => cases he
  | cons d es ih =>
    obtain ⟨hd, hl⟩ := List.forall_mem_cons.1 huniq
    obtain ⟨hb, hbl⟩ := List.forall_mem_cons.1 hes
    by_cases hmem : e ∈ es
    · exact ih (s.write d.space d.index d.value) hp hbl hmem hl
    by_cases hlater : ∃ c ∈ es, c.space = e.space ∧ c.index = e.index
    · obtain ⟨c, hc, hS, hk⟩ := hlater
      have hval := hl c hc hS hk
      obtain ⟨S, k, v⟩ := c
      obtain ⟨T, j, w⟩ := e
      obtain ⟨rfl, rfl, rfl⟩ : S = T ∧ k = j ∧ v = w := ⟨hS, hk, hval⟩
      exact absurd hc hmem
    · obtain rfl : e = d := (List.mem_cons.1 he).resolve_right hmem
      refine (State.read_stores_other (s.write e.space e.index e.value) hp hbl hb fun c hc => ?_).trans
        (State.read_write_fits s e.index hfit)
      by_contra hne
      exact hlater ⟨c, hc, by tauto⟩

/-! ## Loops that gather and store -/

/-- The loop body of a command of this family: the writes that raw address j calls for, carried out. -/
def transfer (gather : State → Nat → Staged (List Store)) (j : Nat) (s : State) : Staged State := do
  let es ← gather s j
  .ok (s.stores es)

/-- What `gather` answers for a raw address depends on the parameters and on the spaces `src`, and it names elements of other
spaces, which exist. -/
structure Gathers (gather : State → Nat → Staged (List Store)) (src : List Space) : Prop where
  reads : ∀ {s u : State} {j : Nat}, u.params = s.params → j < s.params.romBytes →
    (∀ S ∈ src, ∀ k, k < S.size s.params → u.read S k = s.read S k) → gather u j = gather s j
  targets : ∀ {s : State} {j : Nat} {es : List Store}, j < s.params.romBytes → gather s j = .ok es →
    InBounds s.params es ∧ ∀ e ∈ es, e.space ∉ src

/-- The writes of one raw address do not change what another one calls for. -/
theorem Gathers.stores {gather : State → Nat → Staged (List Store)} {src : List Space} (h : Gathers gather src) {s : State}
    {j k : Nat} {es : List Store} (hp : s.params.wf) (hj : j < s.params.romBytes) (hk : k < s.params.romBytes)
    (hes : gather s j = .ok es) : gather (s.stores es) k = gather s k := by
  obtain ⟨hbounds, happart⟩ := h.targets hj hes
  refine h.reads (s.stores_params es) hk fun S hS i hi => s.read_stores_other hp hbounds hi fun e he => .inl ?_
  rintro rfl
  exact happart e he hS

/-- The loop gathers from the state it starts in, and stores what it gathered. -/
theorem forRange_transfer {gather : State → Nat → Staged (List Store)} {src : List Space} (h : Gathers gather src)
    {s : State} {i n : Nat} (hp : s.params.wf) (hn : i + n ≤ s.params.romBytes) :
    forRange (transfer gather) i n s = (do
      let ess ← (List.range' i n).mapM (gather s)
      .ok (s.stores ess.flatten)) := by
  induction n generalizing i s with
  | zero => rfl
  | succ n ih =>
    rw [forRange, transfer, List.range'_succ, List.mapM_cons]
    cases hg : gather s i with
    | error e => rfl
    | ok es =>
      have hcongr : (List.range' (i + 1) n).mapM (gather (s.stores es)) = (List.range' (i + 1) n).mapM (gather s) :=
        mapM_congr fun k hk => h.stores hp (by omega) (by have := List.mem_range'_1.1 hk; omega) hg
      simp only [staged_ok_bind]
      rw [ih (s := s.stores es) (by simpa using hp) (by simp; omega), hcongr]
      cases (List.range' (i + 1) n).mapM (gather s) with
      | error e => rfl
      | ok ess => simp [bind, Except.bind, pure, Except.pure, State.stores_append]

/-- A command of this family: the range check, then the loop. -/
structure PlaneCommand (i : Instr) (gather : State → Nat → Staged (List Store)) (src : List Space) : Prop where
  gathers : Gathers gather src
  body : ∀ s, bodyOf i s = (do s.requireRawRange; forRange (transfer gather) s.x0 s.x1 s)

section
variable {i : Instr} {gather : State → Nat → Staged (List Store)} {src : List Space} {s : State}

/-- The range check (R89, R92, R95, R97) passes when `i0 + n ≤ L`. -/
theorem requireRawRange_of_rangeOk (h : RangeOk s) : s.requireRawRange = .ok () :=
  require_pos (p := s.x0 + s.x1 ≤ s.params.romBytes) h

theorem requireRawRange_of_not_rangeOk (h : ¬RangeOk s) : s.requireRawRange = .error (atReg .range .arg1) :=
  require_neg (p := s.x0 + s.x1 ≤ s.params.romBytes) h

theorem inRange_iff {j : Nat} : InRange s j ↔ j ∈ List.range' s.x0 s.x1 := List.mem_range'_1.symm

/-- The range check comes first of all (R89, R92, R95, R97). -/
theorem PlaneCommand.faults_range (h : PlaneCommand i gather src) (hr : ¬RangeOk s) :
    exec i s = .next (faultState s 0x03 0xFF 0x044) := by
  refine exec_error (f := atReg .range .arg1) ?_
  rw [h.body, requireRawRange_of_not_rangeOk (s := s.staging) hr, staged_error_bind]

/-- What the loop answers, by what it gathers from the command's own state. -/
theorem PlaneCommand.body_staging (h : PlaneCommand i gather src) (hp : s.params.wf) (hr : RangeOk s) :
    bodyOf i s.staging = (do
      let ess ← (List.range' s.x0 s.x1).mapM (gather s)
      .ok (s.staging.stores ess.flatten)) := by
  have hcongr : (List.range' s.x0 s.x1).mapM (gather s.staging) = (List.range' s.x0 s.x1).mapM (gather s) :=
    mapM_congr fun k hk => h.gathers.reads rfl (Nat.lt_of_lt_of_le (List.mem_range'_1.1 hk).2 hr) fun _ _ _ _ => rfl
  rw [h.body, requireRawRange_of_rangeOk (s := s.staging) hr, staged_ok_bind,
    forRange_transfer (s := s.staging) (i := s.staging.x0) (n := s.staging.x1) h.gathers hp hr]
  exact congrArg (· >>= _) hcongr

/-- A fault at the first raw address that cannot be gathered. -/
theorem PlaneCommand.faults_at (h : PlaneCommand i gather src) (hp : s.params.wf) (hr : RangeOk s) {j : Nat} {e : Raised}
    (hj : InRange s j) (hbefore : ∀ k, InRange s k → k < j → ∃ es, gather s k = .ok es) (he : gather s j = .error e) :
    exec i s = .next (s.takeFault e) := by
  obtain ⟨h1, h2⟩ : s.x0 ≤ j ∧ j < s.x0 + s.x1 := hj
  have hfirst : ∀ k ∈ List.range' s.x0 (j - s.x0), ∃ es, gather s k = .ok es := fun k hk => by
    obtain ⟨h3, h4⟩ := List.mem_range'_1.1 hk
    exact hbefore k (inRange_iff.2 (List.mem_range'_1.2 ⟨h3, by omega⟩)) (by omega)
  refine exec_error ?_
  rw [h.body_staging hp hr, range'_eq_append_cons h1 h2, mapM_error hfirst he, staged_error_bind]

/-- A command that commits has passed the range check and gathered at every raw address. -/
theorem PlaneCommand.gathered (h : PlaneCommand i gather src) (hp : s.params.wf) {t : State} (ht : exec i s = .next t)
    (herr : t.status.err = false) : RangeOk s ∧ ∀ j, InRange s j → ∃ es, gather s j = .ok es := by
  have hr : RangeOk s := by
    by_contra hr
    rw [h.faults_range hr] at ht
    cases ht
    exact absurd herr (by simp [faultState])
  obtain ⟨u, hu, -⟩ := exec_body_of_not_err ht herr
  rw [h.body_staging hp hr, staged_bind_ok] at hu
  obtain ⟨ess, hess, -⟩ := hu
  exact ⟨hr, fun j hj => exists_mapM_ok_iff.1 ⟨ess, hess⟩ j (inRange_iff.1 hj)⟩

/-- A committed command of this family changed memory only. -/
theorem stores_committed (s : State) (es : List Store) :
    Committed s (s.staging.stores es).commit 0 ∧ (s.staging.stores es).commit.cfg = s.cfg ∧
      (s.staging.stores es).commit.frags = s.frags := by
  rw [s.staging.stores_memOnly es]
  exact ⟨⟨rfl, rfl, rfl, rfl, rfl, rfl, rfl, rfl, rfl⟩, rfl, rfl⟩

/-- The writes of all raw addresses of the command's range. -/
def rangeStores (s : State) (out : Nat → List Store) : List Store := (List.range' s.x0 s.x1).flatMap out

theorem mem_rangeStores {out : Nat → List Store} {e : Store} :
    e ∈ rangeStores s out ↔ ∃ j, InRange s j ∧ e ∈ out j := by simp [rangeStores, inRange_iff]

/-- A command that gathers at every raw address of its range commits. An element that it writes holds the value, where all
writes of the element agree on one; a byte of no such element is as before. -/
theorem PlaneCommand.commits (h : PlaneCommand i gather src) (hp : s.params.wf) (hr : RangeOk s) {out : Nat → List Store}
    (hout : ∀ j, InRange s j → gather s j = .ok (out j)) :
    ∃ t, exec i s = .next t ∧ Committed s t 0 ∧ t.cfg = s.cfg ∧ t.frags = s.frags ∧
      (∀ e ∈ rangeStores s out, e.value.toNat < 2 ^ (8 * e.space.bytes) →
        (∀ d ∈ rangeStores s out, d.space = e.space → d.index = e.index → d.value = e.value) →
        t.read e.space e.index = some e.value) ∧
      ∀ a, (∀ e ∈ rangeStores s out, ¬e.space.range e.index 1 a) → t.mem.read a = s.mem.read a := by
  have hrun : exec i s = .next (s.staging.stores (rangeStores s out)).commit := by
    refine exec_ok ?_
    rw [h.body_staging hp hr, mapM_ok fun j hj => hout j (inRange_iff.2 hj), staged_ok_bind, rangeStores, List.flatMap_def]
  have hbounds : InBounds s.params (rangeStores s out) := fun e he => by
    obtain ⟨j, hj, he⟩ := mem_rangeStores.1 he
    exact (h.gathers.targets (Nat.lt_of_lt_of_le hj.2 hr) (hout j hj)).1 e he
  obtain ⟨hcommitted, hcfg, hfrags⟩ := stores_committed s (rangeStores s out)
  exact ⟨_, hrun, hcommitted, hcfg, hfrags, fun e he => State.read_stores_mem s.staging hp hbounds he,
    fun a => State.byte_stores_outside s.staging⟩

end

end Sys2Proof.Machine
end

section
/-! Proofs of the statements of 40_reconstructor.md, part 2: RECON, which reads the chips at a raw address and writes the m
plane elements of it, and SPLIT, which goes the other way. Both are proved once, for any codec between chip bytes and samples:
luma has m = 4 samples of 10 bits, a chroma component m = 2 of 8 bits. -/

namespace Sys2Proof.Machine

open Sys2Proof.Claims

/-! ## Codecs -/

/-- Chips and their plane, m samples for each raw address; `α` is a sample as SPLIT reads it. -/
structure PlaneCodec (α : Type) where
  chips : List Space
  plane : Space
  m : Nat
  /-- A plane element read by SPLIT: the unwritten check, and the range check where there is one. -/
  read : State → Nat → Staged α
  /-- A sample as its plane element holds it. -/
  toWord : α → Word
  /-- The sample at a place, from the bytes of the chips in their order. -/
  sample : Params → List Word → Nat → α
  /-- The byte of a chip, from the samples in their order. -/
  byte : Params → List α → Space → Word

/-- What the commands need of a codec: where its spaces lie (20_memory.md R49), what SPLIT can read, that the values fit their
elements, and that samples and bytes determine each other. -/
structure PlaneCodec.Lawful {α : Type} (C : PlaneCodec α) : Prop where
  chip_size : ∀ S ∈ C.chips, ∀ p, S.size p = p.romBytes
  chip_bytes : ∀ S ∈ C.chips, S.bytes = 1
  plane_size : ∀ p, C.plane.size p = C.m * p.romBytes
  apart : C.plane ∉ C.chips
  read_ok : ∀ {s : State} {k : Nat} {v : α}, C.read s k = .ok v ↔ s.read C.plane k = some (C.toWord v)
  read_congr : ∀ {s u : State} {k : Nat}, u.read C.plane k = s.read C.plane k → C.read u k = C.read s k
  sample_fits : ∀ p {w : Space → Word} {q}, (∀ S ∈ C.chips, (w S).toNat < 2 ^ 8) → q < C.m →
    (C.toWord (C.sample p (C.chips.map w) q)).toNat < 2 ^ (8 * C.plane.bytes)
  byte_fits : ∀ p {v : Nat → α} {S}, (∀ q < C.m, (C.toWord (v q)).toNat < 2 ^ (8 * C.plane.bytes)) → S ∈ C.chips →
    (C.byte p ((List.range C.m).map v) S).toNat < 2 ^ 8
  sample_byte : ∀ p {v : Nat → α} {q}, q < C.m → C.sample p (C.chips.map (C.byte p ((List.range C.m).map v))) q = v q
  byte_sample : ∀ p {w : Space → Word} {S}, (∀ T ∈ C.chips, (w T).toNat < 2 ^ 8) → S ∈ C.chips →
    C.byte p ((List.range C.m).map (C.sample p (C.chips.map w))) S = w S

/-- The writes to the m plane elements of raw address j. -/
def planeStores (P : Space) (m j : Nat) (v : Nat → Word) : List Store := (List.range m).map fun q => ⟨P, m * j + q, v q⟩

/-- The writes to the chips at raw address j. -/
def chipStores (chips : List Space) (j : Nat) (v : Space → Word) : List Store := chips.map fun S => ⟨S, j, v S⟩

theorem mem_planeStores {P : Space} {m j : Nat} {v : Nat → Word} {e : Store} :
    e ∈ planeStores P m j v ↔ ∃ q, q < m ∧ ⟨P, m * j + q, v q⟩ = e := by simp [planeStores]

theorem mem_chipStores {chips : List Space} {j : Nat} {v : Space → Word} {e : Store} :
    e ∈ chipStores chips j v ↔ ∃ S, S ∈ chips ∧ ⟨S, j, v S⟩ = e := by simp [chipStores]

/-- RECON at raw address j: the chips are read in their order, and the plane elements of j take the samples. -/
def PlaneCodec.recon {α : Type} (C : PlaneCodec α) (s : State) (j : Nat) : Staged (List Store) := do
  let ws ← C.chips.mapM fun S => s.fetch S j
  .ok (planeStores C.plane C.m j fun q => C.toWord (C.sample s.params ws q))

/-- SPLIT at raw address j: its plane elements are read in ascending order, and the chips take the bytes. -/
def PlaneCodec.split {α : Type} (C : PlaneCodec α) (s : State) (j : Nat) : Staged (List Store) := do
  let vs ← (List.range C.m).mapM fun q => C.read s (C.m * j + q)
  .ok (chipStores C.chips j (C.byte s.params vs))

/-! ## Raw addresses and plane elements -/

/-- The plane element of a raw address and a place is that of no other. -/
theorem plane_index_injective {m j j' q q' : Nat} (hq : q < m) (hq' : q' < m) (h : m * j + q = m * j' + q') :
    j = j' ∧ q = q' := by
  rw [Nat.mul_comm m j, Nat.mul_comm m j'] at h
  exact digits_injective hq hq' h

/-- The plane elements of the raw addresses below L are those below m × L. -/
theorem plane_index_lt {m j L q : Nat} (hq : q < m) (hj : j < L) : m * j + q < m * L := by
  have : m * (j + 1) ≤ m * L := Nat.mul_le_mul_left m hj
  rw [Nat.mul_add] at this
  omega

/-- The command's plane elements, `m × i0` to `m × (i0 + n) - 1`. -/
def InPlane (s : State) (m k : Nat) : Prop := m * s.x0 ≤ k ∧ k < m * (s.x0 + s.x1)

theorem inPlane_of_inRange {s : State} {m j q : Nat} (hj : InRange s j) (hq : q < m) : InPlane s m (m * j + q) :=
  ⟨Nat.le_add_right_of_le (Nat.mul_le_mul_left m hj.1), plane_index_lt hq hj.2⟩

theorem inRange_of_inPlane {s : State} {m k : Nat} (h : InPlane s m k) : InRange s (k / m) ∧ k % m < m := by
  obtain ⟨h1, h2⟩ := h
  have hm : 0 < m := Nat.pos_of_ne_zero fun h0 => by simp [h0] at h2
  rw [Nat.mul_comm] at h1 h2
  exact ⟨⟨(Nat.le_div_iff_mul_le hm).2 h1, (Nat.div_lt_iff_lt_mul hm).2 h2⟩, Nat.mod_lt k hm⟩

/-! ## RECON -/

theorem State.fetch_congr {s u : State} {S : Space} {k : Nat} (h : u.read S k = s.read S k) : u.fetch S k = s.fetch S k := by
  unfold State.fetch
  rw [h]

/-- The byte of each chip at a raw address. -/
def State.chipWord (s : State) (j : Nat) (S : Space) : Word := (s.read S j).getD 0

theorem State.read_chipWord {s : State} {j : Nat} {S : Space} (h : (s.read S j).isSome) :
    s.read S j = some (s.chipWord j S) := by
  obtain ⟨v, hv⟩ := Option.isSome_iff_exists.1 h
  rw [State.chipWord, hv, Option.getD_some]

theorem State.chipWord_of_read {s : State} {j : Nat} {S : Space} {v : Word} (h : s.read S j = some v) : s.chipWord j S = v := by
  rw [State.chipWord, h, Option.getD_some]

section
variable {α : Type} {C : PlaneCodec α} {i : Instr} {s : State}

theorem PlaneCodec.Lawful.reconGathers (L : C.Lawful) : Gathers C.recon C.chips where
  reads := by
    intro s u j hparams hj hread
    have hchips : C.chips.mapM (fun S => u.fetch S j) = C.chips.mapM (fun S => s.fetch S j) := mapM_congr fun S hS =>
      State.fetch_congr (hread S hS j ((L.chip_size S hS _).symm ▸ hj))
    rw [PlaneCodec.recon, PlaneCodec.recon, hchips, hparams]
  targets := by
    intro s j es hj hes
    simp only [PlaneCodec.recon, staged_bind_ok, Except.ok.injEq] at hes
    obtain ⟨ws, -, rfl⟩ := hes
    refine ⟨fun e he => ?_, fun e he => ?_⟩ <;> obtain ⟨q, hq, rfl⟩ := mem_planeStores.1 he
    · exact (L.plane_size _).symm ▸ plane_index_lt hq hj
    · exact L.apart

/-- RECON's sample at a raw address and a place. -/
def PlaneCodec.sampleAt (C : PlaneCodec α) (s : State) (j q : Nat) : α := C.sample s.params (C.chips.map (s.chipWord j)) q

theorem PlaneCodec.recon_written {j : Nat} (h : ∀ S ∈ C.chips, (s.read S j).isSome) :
    C.recon s j = .ok (planeStores C.plane C.m j fun q => C.toWord (C.sampleAt s j q)) := by
  rw [PlaneCodec.recon, mapM_ok fun S hS => State.fetch_ok.2 (State.read_chipWord (h S hS)), staged_ok_bind]
  rfl

/-- A chip's byte is a byte. -/
theorem PlaneCodec.Lawful.chipWord_lt (L : C.Lawful) {j : Nat} {S : Space} (hS : S ∈ C.chips) (h : (s.read S j).isSome) :
    (s.chipWord j S).toNat < 2 ^ 8 := by
  have := State.read_fits (State.read_chipWord h)
  rwa [L.chip_bytes S hS] at this

/-- RECON over a range whose chip bytes are all written. -/
theorem PlaneCommand.recon_completes (h : PlaneCommand i C.recon C.chips) (L : C.Lawful) (hp : s.params.wf) (hr : RangeOk s)
    (hsrc : ∀ j, InRange s j → ∀ S ∈ C.chips, (s.read S j).isSome) :
    ∃ t, exec i s = .next t ∧ Committed s t 0 ∧ t.cfg = s.cfg ∧ t.frags = s.frags ∧
      (∀ j q, InRange s j → q < C.m → t.read C.plane (C.m * j + q) = some (C.toWord (C.sampleAt s j q))) ∧
      SameOutside s t (elems C.plane (C.m * s.args.arg0.toNat) (C.m * s.args.arg1.toNat)) := by
  obtain ⟨t, hrun, hcommitted, hcfg, hfrags, hread, hframe⟩ :=
    h.commits hp hr fun j hj => PlaneCodec.recon_written (hsrc j hj)
  refine ⟨t, hrun, hcommitted, hcfg, hfrags, fun j q hj hq => ?_, fun a ha => hframe a fun e he hin => ha ?_⟩
  · have hfit := L.sample_fits s.params (fun S hS => L.chipWord_lt hS (hsrc j hj S hS)) hq
    refine hread ⟨C.plane, C.m * j + q, _⟩ (mem_rangeStores.2 ⟨j, hj, mem_planeStores.2 ⟨q, hq, rfl⟩⟩) hfit ?_
    intro d hd _ hindex
    obtain ⟨j', -, hd⟩ := mem_rangeStores.1 hd
    obtain ⟨q', hq', rfl⟩ := mem_planeStores.1 hd
    obtain ⟨rfl, rfl⟩ := plane_index_injective hq' hq hindex
    rfl
  · obtain ⟨j, hj, he⟩ := mem_rangeStores.1 he
    obtain ⟨q, hq, rfl⟩ := mem_planeStores.1 he
    obtain ⟨h1, h2⟩ := inPlane_of_inRange hj hq
    rw [Nat.mul_add] at h2
    exact Space.range_mono h1 h2 a hin

/-- RECON faults at the first unwritten chip byte: addresses ascending, and at one address the chips in their order. -/
theorem PlaneCommand.recon_faults (h : PlaneCommand i C.recon C.chips) (hp : s.params.wf) (hr : RangeOk s)
    {j : Nat} {S : Space} {before after : List Space} (hj : InRange s j) (hchips : C.chips = before ++ S :: after)
    (hearlier : ∀ k, InRange s k → k < j → ∀ T ∈ C.chips, (s.read T k).isSome)
    (hbefore : ∀ T ∈ before, (s.read T j).isSome) (hS : s.read S j = none) :
    exec i s = .next (faultState s 0x04 S.id j) := by
  refine h.faults_at hp hr (e := atElem .unwritten S.id j) hj
    (fun k hk hlt => ⟨_, PlaneCodec.recon_written (hearlier k hk hlt)⟩) ?_
  rw [PlaneCodec.recon, hchips, mapM_error (fun T hT => ⟨_, State.fetch_ok.2 (State.read_chipWord (hbefore T hT))⟩)
    (State.fetch_error.2 ⟨hS, rfl⟩), staged_error_bind]

/-- A RECON that commits has found every chip byte of its range written. -/
theorem PlaneCommand.recon_committed (h : PlaneCommand i C.recon C.chips) (hp : s.params.wf) {t : State}
    (ht : exec i s = .next t) (herr : t.status.err = false) :
    RangeOk s ∧ ∀ j, InRange s j → ∀ S ∈ C.chips, (s.read S j).isSome := by
  obtain ⟨hr, hall⟩ := h.gathered hp ht herr
  refine ⟨hr, fun j hj S hS => ?_⟩
  obtain ⟨es, hes⟩ := hall j hj
  rw [PlaneCodec.recon, staged_bind_ok] at hes
  obtain ⟨ws, hws, -⟩ := hes
  obtain ⟨w, hw⟩ := exists_mapM_ok_iff.1 ⟨ws, hws⟩ S hS
  rw [State.fetch_ok.1 hw]
  rfl

/-! ## SPLIT -/

theorem PlaneCodec.Lawful.splitGathers (L : C.Lawful) : Gathers C.split [C.plane] where
  reads := by
    intro s u j hparams hj hsame
    have hplane : (List.range C.m).mapM (fun q => C.read u (C.m * j + q)) =
        (List.range C.m).mapM (fun q => C.read s (C.m * j + q)) := mapM_congr fun q hq =>
      L.read_congr (hsame C.plane (by simp) _ ((L.plane_size _).symm ▸ plane_index_lt (List.mem_range.1 hq) hj))
    rw [PlaneCodec.split, PlaneCodec.split, hplane, hparams]
  targets := by
    intro s j es hj hes
    simp only [PlaneCodec.split, staged_bind_ok, Except.ok.injEq] at hes
    obtain ⟨vs, -, rfl⟩ := hes
    refine ⟨fun e he => ?_, fun e he => ?_⟩ <;> obtain ⟨S, hS, rfl⟩ := mem_chipStores.1 he
    · exact (L.chip_size S hS _).symm ▸ hj
    · rw [List.mem_singleton]
      rintro rfl
      exact L.apart hS

/-- The sample that SPLIT reads from a plane element. -/
def PlaneCodec.valueAt [Inhabited α] (C : PlaneCodec α) (s : State) (k : Nat) : α := (C.read s k).toOption.getD default

theorem PlaneCodec.valueAt_of_read [Inhabited α] {k : Nat} {v : α} (h : C.read s k = .ok v) : C.valueAt s k = v := by
  rw [PlaneCodec.valueAt, h]
  rfl

theorem PlaneCodec.read_valueAt [Inhabited α] {k : Nat} (h : ∃ v, C.read s k = .ok v) : C.read s k = .ok (C.valueAt s k) := by
  obtain ⟨v, hv⟩ := h
  rw [PlaneCodec.valueAt_of_read hv, hv]

/-- SPLIT's byte at a raw address and a chip. -/
def PlaneCodec.byteAt [Inhabited α] (C : PlaneCodec α) (s : State) (j : Nat) (S : Space) : Word :=
  C.byte s.params ((List.range C.m).map fun q => C.valueAt s (C.m * j + q)) S

/-- SPLIT over a range whose plane elements can all be read. -/
theorem PlaneCommand.split_completes [Inhabited α] (h : PlaneCommand i C.split [C.plane]) (L : C.Lawful)
    (hp : s.params.wf) (hr : RangeOk s) (hsrc : ∀ j q, InRange s j → q < C.m → ∃ v, C.read s (C.m * j + q) = .ok v) :
    ∃ t, exec i s = .next t ∧ Committed s t 0 ∧ t.cfg = s.cfg ∧ t.frags = s.frags ∧
      (∀ j, InRange s j → ∀ S ∈ C.chips, t.read S j = some (C.byteAt s j S)) ∧
      SameOutside s t (fun a => ∃ S ∈ C.chips, elems S s.args.arg0.toNat s.args.arg1.toNat a) := by
  have hgather : ∀ j, InRange s j → C.split s j = .ok (chipStores C.chips j (C.byteAt s j)) := fun j hj => by
    rw [PlaneCodec.split, mapM_ok fun q hq => PlaneCodec.read_valueAt (hsrc j q hj (List.mem_range.1 hq)), staged_ok_bind]
    rfl
  obtain ⟨t, hrun, hcommitted, hcfg, hfrags, hreads, hframe⟩ := h.commits hp hr hgather
  refine ⟨t, hrun, hcommitted, hcfg, hfrags, fun j hj S hS => ?_, fun a ha => hframe a fun e he hin => ha ?_⟩
  · have hfit : (C.byteAt s j S).toNat < 2 ^ (8 * S.bytes) := by
      rw [L.chip_bytes S hS]
      exact L.byte_fits s.params (fun q hq => State.read_fits (L.read_ok.1 (PlaneCodec.read_valueAt (hsrc j q hj hq)))) hS
    refine hreads ⟨S, j, _⟩ (mem_rangeStores.2 ⟨j, hj, mem_chipStores.2 ⟨S, hS, rfl⟩⟩) hfit ?_
    intro d hd hspace hindex
    obtain ⟨j', -, hd⟩ := mem_rangeStores.1 hd
    obtain ⟨S', -, rfl⟩ := mem_chipStores.1 hd
    obtain ⟨rfl, rfl⟩ : S' = S ∧ j' = j := ⟨hspace, hindex⟩
    rfl
  · obtain ⟨j, ⟨h1, h2⟩, he⟩ := mem_rangeStores.1 he
    obtain ⟨S, hS, rfl⟩ := mem_chipStores.1 he
    exact ⟨S, hS, Space.range_mono h1 h2 a hin⟩

/-- SPLIT faults at the first plane element, in ascending order, that cannot be read. -/
theorem PlaneCommand.split_faults (h : PlaneCommand i C.split [C.plane]) (hp : s.params.wf) (hr : RangeOk s) {k : Nat}
    {e : Raised} (hk : InPlane s C.m k) (hbefore : ∀ l, C.m * s.x0 ≤ l → l < k → ∃ v, C.read s l = .ok v)
    (he : C.read s k = .error e) : exec i s = .next (s.takeFault e) := by
  obtain ⟨hj, hq⟩ := inRange_of_inPlane hk
  have hdiv := Nat.div_add_mod k C.m
  refine h.faults_at hp hr hj (fun j' hj' hlt => ?_) ?_
  · have hread : ∀ q ∈ List.range C.m, ∃ v, C.read s (C.m * j' + q) = .ok v := fun q hq => by
      have hq := List.mem_range.1 hq
      have := plane_index_lt hq hlt
      exact hbefore _ (inPlane_of_inRange hj' hq).1 (by omega)
    obtain ⟨vs, hvs⟩ := exists_mapM_ok_iff.2 hread
    exact ⟨_, by rw [PlaneCodec.split, hvs, staged_ok_bind]⟩
  · have hfirst : ∀ q ∈ List.range' 0 (k % C.m - 0), ∃ v, C.read s (C.m * (k / C.m) + q) = .ok v := fun q hlt => by
      obtain ⟨-, hlt⟩ := List.mem_range'_1.1 hlt
      exact hbefore _ (inPlane_of_inRange hj (by omega)).1 (by omega)
    have hsplit := range'_eq_append_cons (n := C.m) (Nat.zero_le (k % C.m)) (by omega)
    rw [PlaneCodec.split, List.range_eq_range', hsplit, mapM_error hfirst (hdiv.symm ▸ he), staged_error_bind]

/-- A SPLIT that commits has read every plane element of its range. -/
theorem PlaneCommand.split_committed (h : PlaneCommand i C.split [C.plane]) (hp : s.params.wf) {t : State}
    (ht : exec i s = .next t) (herr : t.status.err = false) :
    RangeOk s ∧ ∀ j q, InRange s j → q < C.m → ∃ v, C.read s (C.m * j + q) = .ok v := by
  obtain ⟨hr, hall⟩ := h.gathered hp ht herr
  refine ⟨hr, fun j q hj hq => ?_⟩
  obtain ⟨es, hes⟩ := hall j hj
  rw [PlaneCodec.split, staged_bind_ok] at hes
  obtain ⟨vs, hvs, -⟩ := hes
  exact exists_mapM_ok_iff.1 ⟨vs, hvs⟩ q (List.mem_range.2 hq)

/-! ## The two round trips (R98) -/

/-- A byte of elements k to k+n-1 is a byte of one of them. -/
theorem elems_iff (S : Space) (k n a : Nat) : elems S k n a ↔ ∃ j, k ≤ j ∧ j < k + n ∧ S.range j 1 a := by
  constructor
  · rintro ⟨h1, h2⟩
    induction n with
    | zero => exact absurd h1 (Nat.not_le.2 h2)
    | succ n ih =>
      by_cases h : a < S.addr (k + n)
      · obtain ⟨j, hj1, hj2, hj⟩ := ih h
        exact ⟨j, hj1, by omega, hj⟩
      · exact ⟨k + n, by omega, by omega, Nat.not_lt.1 h, h2⟩
  · rintro ⟨j, h1, h2, hj⟩
    exact Space.range_mono h1 h2 a hj

/-- An element that is none of the changed ones reads as before. -/
theorem read_of_sameOutside {s t : State} {Ss : List Space} {k n : Nat}
    (h : SameOutside s t (fun a => ∃ S ∈ Ss, elems S k n a)) (hp : s.params.wf) (hSs : ∀ S ∈ Ss, k + n ≤ S.size s.params)
    {T : Space} {j : Nat} (hj : j < T.size s.params) (hne : ∀ S ∈ Ss, S ≠ T ∨ j < k ∨ k + n ≤ j) :
    t.read T j = s.read T j := by
  refine Memory.readLE_congr fun a h1 h2 => h a ?_
  rintro ⟨S, hS, ha⟩
  obtain ⟨l, hl1, hl2, hin⟩ := (elems_iff S k n a).1 ha
  have hl : S ≠ T ∨ l ≠ j := (hne S hS).imp_right (by omega)
  have happart := Space.addr_apart hp (Nat.lt_of_lt_of_le hl2 (hSs S hS)) hj hl
  simp only [Space.range, Space.addr_succ] at hin
  omega

/-- RECON leaves every element but those of its plane range alone. -/
theorem PlaneCodec.Lawful.read_of_recon_frame (L : C.Lawful) (hp : s.params.wf) (hr : RangeOk s) {t : State}
    (h : SameOutside s t (elems C.plane (C.m * s.args.arg0.toNat) (C.m * s.args.arg1.toNat))) {T : Space} {k : Nat}
    (hk : k < T.size s.params) (hne : C.plane ≠ T ∨ ¬InPlane s C.m k) : t.read T k = s.read T k := by
  have hend : C.m * s.args.arg0.toNat + C.m * s.args.arg1.toNat = C.m * (s.x0 + s.x1) := (Nat.mul_add ..).symm
  have h' : SameOutside s t (fun a => ∃ S ∈ [C.plane], elems S (C.m * s.args.arg0.toNat) (C.m * s.args.arg1.toNat) a) := by
    simpa using h
  refine read_of_sameOutside h' hp (List.forall_mem_singleton.2 ?_) hk
    (List.forall_mem_singleton.2 (hne.imp_right fun hout => ?_))
  · rw [hend, L.plane_size]
    exact Nat.mul_le_mul_left C.m hr
  · rw [hend]
    exact (lt_or_ge k _).imp_right fun hlow => Nat.le_of_not_lt fun hhigh => hout ⟨hlow, hhigh⟩

/-- SPLIT leaves every element but those of its range of the chips alone. -/
theorem PlaneCodec.Lawful.read_of_split_frame (L : C.Lawful) (hp : s.params.wf) (hr : RangeOk s) {t : State}
    (h : SameOutside s t (fun a => ∃ S ∈ C.chips, elems S s.args.arg0.toNat s.args.arg1.toNat a)) {T : Space} {k : Nat}
    (hk : k < T.size s.params) (hne : T ∉ C.chips ∨ ¬InRange s k) : t.read T k = s.read T k := by
  refine read_of_sameOutside h hp (fun S hS => (L.chip_size S hS _).symm ▸ hr) hk fun S hS => ?_
  rcases hne with hT | hout
  · exact .inl fun e => hT (e ▸ hS)
  · exact .inr ((lt_or_ge k _).imp_right fun hlow => Nat.le_of_not_lt fun hhigh => hout ⟨hlow, hhigh⟩)

theorem rangeOk_of_committed {s t : State} {w : Word} (h : Committed s t w) (hr : RangeOk s) : RangeOk t := by
  obtain ⟨-, -, hparams, hargs, -⟩ := h
  rwa [RangeOk, hparams, hargs]

theorem inRange_iff_of_committed {s t : State} {w : Word} (h : Committed s t w) {j : Nat} : InRange t j ↔ InRange s j := by
  obtain ⟨-, -, -, hargs, -⟩ := h
  rw [InRange, InRange, hargs]

theorem inPlane_iff_of_committed {s t : State} {w : Word} (h : Committed s t w) {m k : Nat} :
    InPlane t m k ↔ InPlane s m k := by
  obtain ⟨-, -, -, hargs, -⟩ := h
  rw [InPlane, InPlane, State.x0, State.x1, hargs]
  rfl

theorem err_of_committed {s t : State} {w : Word} (h : Committed s t w) : t.status.err = s.status.err := by
  obtain ⟨hstatus, -⟩ := h
  rw [hstatus]

section
variable [Inhabited α] {iS iR : Instr} {t : State} (hS : PlaneCommand iS C.split [C.plane])
  (hR : PlaneCommand iR C.recon C.chips) (L : C.Lawful) (hp : s.params.wf)
include hS hR L hp

/-- RECON makes the samples again that SPLIT made the bytes from. -/
theorem split_recon_roundTrip (ht : exec iS s = .next t) (herr : t.status.err = false) :
    ∃ u, exec iR t = .next u ∧ u.status.err = false ∧
      ∀ k, k < C.m * s.params.romBytes → u.read C.plane k = s.read C.plane k := by
  obtain ⟨hr, hread⟩ := hS.split_committed hp ht herr
  obtain ⟨t', ht', hst, -, -, hbytes, hframe⟩ := hS.split_completes L hp hr hread
  obtain rfl : t = t' := by injection ht.symm.trans ht'
  have hchips : ∀ j, InRange t j → ∀ S ∈ C.chips, t.read S j = some (C.byteAt s j S) := fun j hj =>
    hbytes j ((inRange_iff_of_committed hst).1 hj)
  have hparams : t.params = s.params := exec_params ht
  have hrt := rangeOk_of_committed hst hr
  obtain ⟨u, hu, htu, -, -, hsamples, hframe'⟩ := hR.recon_completes L (hparams ▸ hp) hrt
    fun j hj S hS => by rw [hchips j hj S hS]; rfl
  refine ⟨u, hu, (err_of_committed htu).trans herr, fun k hk => ?_⟩
  by_cases hin : InPlane s C.m k
  · obtain ⟨hj, hq⟩ := inRange_of_inPlane hin
    have hj' := (inRange_iff_of_committed hst).2 hj
    have hword : C.chips.map (t.chipWord (k / C.m)) = C.chips.map (C.byteAt s (k / C.m)) :=
      List.map_congr_left fun S hS => State.chipWord_of_read (hchips _ hj' S hS)
    have hsample : C.sampleAt t (k / C.m) (k % C.m) = C.valueAt s (C.m * (k / C.m) + k % C.m) := by
      rw [PlaneCodec.sampleAt, hword, hparams]
      exact L.sample_byte s.params hq
    have hu := hsamples _ _ hj' hq
    have hs := L.read_ok.1 (PlaneCodec.read_valueAt (hread _ _ hj hq))
    rw [hsample, ← hs, Nat.div_add_mod] at hu
    exact hu
  · have hout : ¬InPlane t C.m k := fun h => hin ((inPlane_iff_of_committed hst).1 h)
    have hk : k < C.plane.size s.params := (L.plane_size _).symm ▸ hk
    exact (L.read_of_recon_frame (hparams ▸ hp) hrt hframe' (hparams ▸ hk) (.inr hout)).trans
      (L.read_of_split_frame hp hr hframe hk (.inl L.apart))

/-- SPLIT makes the bytes again that RECON made the samples from. -/
theorem recon_split_roundTrip (ht : exec iR s = .next t) (herr : t.status.err = false) :
    ∃ u, exec iS t = .next u ∧ u.status.err = false ∧
      ∀ S ∈ C.chips, ∀ j, j < s.params.romBytes → u.read S j = s.read S j := by
  obtain ⟨hr, hwritten⟩ := hR.recon_committed hp ht herr
  obtain ⟨t', ht', hst, -, -, hsamples, hframe⟩ := hR.recon_completes L hp hr hwritten
  obtain rfl : t = t' := by injection ht.symm.trans ht'
  have hread : ∀ j q, InRange t j → q < C.m → C.read t (C.m * j + q) = .ok (C.sampleAt s j q) := fun j q hj hq =>
    L.read_ok.2 (hsamples j q ((inRange_iff_of_committed hst).1 hj) hq)
  have hparams : t.params = s.params := exec_params ht
  have hrt := rangeOk_of_committed hst hr
  obtain ⟨u, hu, htu, -, -, hbytes, hframe'⟩ := hS.split_completes L (hparams ▸ hp) hrt
    fun j q hj hq => ⟨_, hread j q hj hq⟩
  refine ⟨u, hu, (err_of_committed htu).trans herr, fun S hS j hj => ?_⟩
  by_cases hin : InRange s j
  · have hin' := (inRange_iff_of_committed hst).2 hin
    have hvalues : (List.range C.m).map (fun q => C.valueAt t (C.m * j + q)) = (List.range C.m).map (C.sampleAt s j) :=
      List.map_congr_left fun q hq => PlaneCodec.valueAt_of_read (hread j q hin' (List.mem_range.1 hq))
    have hbyte : C.byteAt t j S = s.chipWord j S := by
      rw [PlaneCodec.byteAt, hvalues, hparams]
      exact L.byte_sample s.params (fun T hT => L.chipWord_lt hT (hwritten j hin T hT)) hS
    rw [hbytes j hin' S hS, hbyte, State.read_chipWord (hwritten j hin S hS)]
  · have hout : ¬InRange t j := fun h => hin ((inRange_iff_of_committed hst).1 h)
    have hj : j < S.size s.params := (L.chip_size S hS _).symm ▸ hj
    exact (L.read_of_split_frame (hparams ▸ hp) hrt hframe' (hparams ▸ hj) (.inr hout)).trans
      (L.read_of_recon_frame hp hr hframe hj (.inl fun e => L.apart (e ▸ hS)))

end

end

end Sys2Proof.Machine
end

section
/-! Proofs of the statements of 40_reconstructor.md, part 3: luma. The unpack and pack functions in plain arithmetic and bit by
bit, with O17, and the codec made of them. -/

namespace Sys2Proof.Machine

open Sys2Proof.Claims

/-! ## Unpack and pack in plain arithmetic (R88, R94) -/

theorem toNat_getLsbD {n : Nat} (v : BitVec n) (i : Nat) : (v.getLsbD i).toNat = v.toNat / 2 ^ i % 2 :=
  Nat.toNat_testBit v.toNat i

theorem bitOf_eq (w : Word) (i : Nat) : bitOf w i = w.toNat / 2 ^ i % 2 := toNat_getLsbD w i

theorem toNat_unpack10 (o : LsbOrder) (m sel : Byte) (p : Nat) :
    (unpack10 o m sel p).toNat = lumaValue o (m.setWidth 32) (sel.setWidth 32) p := by
  have hm : (m.setWidth 32).toNat = m.toNat := BitVec.toNat_setWidth_of_le (by decide)
  have hsel : (sel.setWidth 32).toNat = sel.toNat := BitVec.toNat_setWidth_of_le (by decide)
  cases o <;>
    simp only [unpack10, lsb2, toNat_append_eq_add, BitVec.toNat_ofBool, toNat_getLsbD, lumaValue, bitOf_eq, hm, hsel] <;> omega

theorem toNat_msbOf (v : BitVec 10) : (msbOf v).toNat = v.toNat / 4 := by
  have := v.isLt
  rw [msbOf, BitVec.extractLsb'_toNat, Nat.shiftRight_eq_div_pow]
  omega

/-- The byte with bit a at place p and bit b at place p + 4: a sample's two bits in the selector byte. -/
def bitsAt (a b : Bool) (p : Nat) : Byte := (BitVec.ofBool a).setWidth 8 <<< p ||| (BitVec.ofBool b).setWidth 8 <<< (p + 4)

theorem place_normal (v : BitVec 10) (p : Nat) : place .normal v p = bitsAt (v.getLsbD 0) (v.getLsbD 1) p := rfl

theorem place_swapped (v : BitVec 10) (p : Nat) : place .swapped v p = bitsAt (v.getLsbD 1) (v.getLsbD 0) p := rfl

theorem toNat_bitsAt : ∀ p < 4, ∀ a b : Bool, (bitsAt a b p).toNat = a.toNat * 2 ^ p + b.toNat * 2 ^ (p + 4) := by decide

/-- The parts of the four samples lie apart in the selector byte, so that their OR is their sum. -/
theorem toNat_or_bitsAt (a0 a1 a2 a3 b0 b1 b2 b3 : Bool) :
    (bitsAt a0 b0 0 ||| bitsAt a1 b1 1 ||| bitsAt a2 b2 2 ||| bitsAt a3 b3 3).toNat =
      (bitsAt a0 b0 0).toNat + (bitsAt a1 b1 1).toNat + (bitsAt a2 b2 2).toNat + (bitsAt a3 b3 3).toNat := by
  revert a0 a1 a2 a3 b0 b1 b2 b3; decide

theorem toNat_place (o : LsbOrder) (v : BitVec 10) {p : Nat} (hp : p < 4) : (place o v p).toNat = selPart o v.toNat p := by
  cases o <;> simp only [place_normal, place_swapped, toNat_bitsAt p hp, toNat_getLsbD, selPart, pow_zero, pow_one, Nat.div_one]

theorem toNat_selOf (o : LsbOrder) (v0 v1 v2 v3 : BitVec 10) :
    (selOf o v0 v1 v2 v3).toNat =
      selPart o v0.toNat 0 + selPart o v1.toNat 1 + selPart o v2.toNat 2 + selPart o v3.toNat 3 := by
  simp only [← toNat_place o _ (by decide : 0 < 4), ← toNat_place o _ (by decide : 1 < 4),
    ← toNat_place o _ (by decide : 2 < 4), ← toNat_place o _ (by decide : 3 < 4)]
  cases o <;> exact toNat_or_bitsAt ..

theorem lumaValue_div (o : LsbOrder) (m sel : Word) (p : Nat) : lumaValue o m sel p / 4 = m.toNat := by
  cases o <;> simp only [lumaValue, bitOf_eq] <;> omega

theorem toNat_byte_word (b : Byte) : (b.setWidth 32 : Word).toNat = b.toNat := BitVec.toNat_setWidth_of_le (by decide)

/-! ### The two round trips (R96) -/

theorem getLsbD_bitsAt : ∀ p < 4, ∀ a b : Bool, (bitsAt a b p).getLsbD p = a ∧ (bitsAt a b p).getLsbD (p + 4) = b := by decide

/-- Each sample's bits stand in the selector byte whatever the other samples' are. -/
theorem getLsbD_or_bitsAt (a b : Nat → Bool) {p : Nat} (hp : p < 4) :
    (bitsAt (a 0) (b 0) 0 ||| bitsAt (a 1) (b 1) 1 ||| bitsAt (a 2) (b 2) 2 ||| bitsAt (a 3) (b 3) 3).getLsbD p = a p ∧
    (bitsAt (a 0) (b 0) 0 ||| bitsAt (a 1) (b 1) 1 ||| bitsAt (a 2) (b 2) 2 ||| bitsAt (a 3) (b 3) 3).getLsbD (p + 4) = b p := by
  interval_cases p
  all_goals
    generalize a 0 = a0, a 1 = a1, a 2 = a2, a 3 = a3, b 0 = b0, b 1 = b1, b 2 = b2, b 3 = b3
    revert a0 a1 a2 a3 b0 b1 b2 b3
    decide

/-- A selector byte is the four pairs of bits that it holds. -/
theorem or_bitsAt_getLsbD (sel : Byte) :
    bitsAt (sel.getLsbD 0) (sel.getLsbD 4) 0 ||| bitsAt (sel.getLsbD 1) (sel.getLsbD 5) 1 |||
      bitsAt (sel.getLsbD 2) (sel.getLsbD 6) 2 ||| bitsAt (sel.getLsbD 3) (sel.getLsbD 7) 3 = sel := by
  revert sel; decide

/-- A sample is its MSB byte with its two low bits. -/
theorem msbOf_append (v : BitVec 10) : msbOf v ++ (BitVec.ofBool (v.getLsbD 1) ++ BitVec.ofBool (v.getLsbD 0)) = v := by
  refine BitVec.eq_of_toNat_eq ?_
  simp only [toNat_append_eq_add, toNat_msbOf, BitVec.toNat_ofBool, toNat_getLsbD]
  omega

theorem unpack10_place (o : LsbOrder) (v : BitVec 10) {p : Nat} (hp : p < 4) : unpack10 o (msbOf v) (place o v p) p = v := by
  cases o <;>
    simp only [unpack10, lsb2, place_normal, place_swapped, getLsbD_bitsAt p hp] <;>
    exact msbOf_append v

theorem unpack10_selOf (o : LsbOrder) (v : Nat → BitVec 10) {p : Nat} (hp : p < 4) :
    unpack10 o (msbOf (v p)) (selOf o (v 0) (v 1) (v 2) (v 3)) p = v p := by
  cases o with
  | normal =>
    obtain ⟨hlow, hhigh⟩ := getLsbD_or_bitsAt (fun q => (v q).getLsbD 0) (fun q => (v q).getLsbD 1) hp
    simp only [unpack10, lsb2, selOf, place_normal, hlow, hhigh]
    exact msbOf_append (v p)
  | swapped =>
    obtain ⟨hlow, hhigh⟩ := getLsbD_or_bitsAt (fun q => (v q).getLsbD 1) (fun q => (v q).getLsbD 0) hp
    simp only [unpack10, lsb2, selOf, place_swapped, hlow, hhigh]
    exact msbOf_append (v p)

theorem msbOf_unpack10 (o : LsbOrder) (m sel : Byte) (p : Nat) : msbOf (unpack10 o m sel p) = m := by
  refine BitVec.eq_of_toNat_eq ?_
  rw [toNat_msbOf, toNat_unpack10, lumaValue_div, toNat_byte_word]

/-- The low bits of a byte with two bits appended. -/
theorem getLsbD_append_bits (m : Byte) (a b : Bool) :
    (m ++ (BitVec.ofBool a ++ BitVec.ofBool b)).getLsbD 0 = b ∧ (m ++ (BitVec.ofBool a ++ BitVec.ofBool b)).getLsbD 1 = a := by
  simp only [BitVec.getLsbD_append, BitVec.getLsbD_ofBool]
  simp

theorem place_unpack10 (o : LsbOrder) (m sel : Byte) (p : Nat) :
    place o (unpack10 o m sel p) p = bitsAt (sel.getLsbD p) (sel.getLsbD (p + 4)) p := by
  cases o with
  | normal =>
    obtain ⟨h0, h1⟩ := getLsbD_append_bits m (sel.getLsbD (p + 4)) (sel.getLsbD p)
    exact congrArg₂ (bitsAt · · p) h0 h1
  | swapped =>
    obtain ⟨h0, h1⟩ := getLsbD_append_bits m (sel.getLsbD p) (sel.getLsbD (p + 4))
    exact congrArg₂ (bitsAt · · p) h1 h0

theorem selOf_unpack10 (o : LsbOrder) (m : Nat → Byte) (sel : Byte) :
    selOf o (unpack10 o (m 0) sel 0) (unpack10 o (m 1) sel 1) (unpack10 o (m 2) sel 2) (unpack10 o (m 3) sel 3) = sel := by
  simp only [selOf, place_unpack10]
  exact or_bitsAt_getLsbD sel

/-- Settles O17: the pairs of bits of the four samples do not disturb one another in the selector byte. -/
theorem packUnpackRoundTrip : Obligations.PackUnpackRoundTrip := by
  refine ⟨fun o v p hp => unpack10_place o v hp, fun o m0 m1 m2 m3 sel => ⟨?_, msbOf_unpack10 .., msbOf_unpack10 ..,
    msbOf_unpack10 .., msbOf_unpack10 ..⟩⟩
  exact selOf_unpack10 o (fun p => [m0, m1, m2, m3].getD p 0) sel

/-! ## Luma -/

/-- The byte of a luma chip from its four samples (R94). -/
def lumaByte (o : LsbOrder) (vs : List (BitVec 10)) : Space → Byte
  | .lmsb0 => msbOf (vs.getD 0 0)
  | .lmsb1 => msbOf (vs.getD 1 0)
  | .lmsb2 => msbOf (vs.getD 2 0)
  | .lmsb3 => msbOf (vs.getD 3 0)
  | _ => selOf o (vs.getD 0 0) (vs.getD 1 0) (vs.getD 2 0) (vs.getD 3 0)

/-- Luma: four samples of 10 bits, the selector byte the last of the five (R88, R94). -/
def lumaCodec : PlaneCodec (BitVec 10) where
  chips := lumaChips
  plane := .luma
  m := 4
  read := State.fetchLuma10
  toWord v := v.setWidth 32
  sample p ws q := unpack10 p.lsbOrder ((ws.getD q 0).setWidth 8) ((ws.getD 4 0).setWidth 8) q
  byte p vs S := (lumaByte p.lsbOrder vs S).setWidth 32

/-- SPLIT_LUMA reads a sample that is written and at most 1023 (R95). -/
theorem State.fetchLuma10_ok {s : State} {k : Nat} {v : BitVec 10} :
    s.fetchLuma10 k = .ok v ↔ s.read .luma k = some (v.setWidth 32) := by
  simp only [State.fetchLuma10, staged_bind_ok, State.fetch_ok, require_ok, Except.ok.injEq, exists_const]
  constructor
  · rintro ⟨w, hw, hle, rfl⟩
    rw [hw]
    congr 1
    exact BitVec.eq_of_toNat_eq (by simp only [BitVec.toNat_setWidth]; omega)
  · intro h
    refine ⟨_, h, ?_, BitVec.eq_of_toNat_eq (by simp only [BitVec.toNat_setWidth]; omega)⟩
    rw [BitVec.toNat_setWidth]
    omega

theorem State.fetchLuma10_congr {s u : State} {k : Nat} (h : u.read .luma k = s.read .luma k) :
    u.fetchLuma10 k = s.fetchLuma10 k := by
  rw [State.fetchLuma10, State.fetchLuma10, State.fetch_congr h]

theorem msbChip_mem {p : Nat} (hp : p < 4) : msbChip p ∈ lumaChips := by
  interval_cases p <;> decide

/-- Chip p of the five is the MSB chip of plane p. -/
theorem lumaChips_getD (w : Space → Word) {p : Nat} (hp : p < 4) : (lumaChips.map w).getD p 0 = w (msbChip p) := by
  interval_cases p <;> rfl

theorem lumaByte_msbChip (o : LsbOrder) (v : Nat → BitVec 10) {p : Nat} (hp : p < 4) :
    lumaByte o ((List.range 4).map v) (msbChip p) = msbOf (v p) := by
  interval_cases p <;> rfl

theorem lumaByte_llsb (o : LsbOrder) (v : Nat → BitVec 10) :
    lumaByte o ((List.range 4).map v) .llsb = selOf o (v 0) (v 1) (v 2) (v 3) := rfl

/-- The five chips: the MSB chips of the four planes, and LLSB. -/
theorem lumaChip_cases {S : Space} (h : S ∈ lumaChips) : (∃ p < 4, S = msbChip p) ∨ S = .llsb := by
  simp only [lumaChips, List.mem_cons, List.not_mem_nil, or_false] at h
  rcases h with rfl | rfl | rfl | rfl | rfl
  · exact .inl ⟨0, by decide, rfl⟩
  · exact .inl ⟨1, by decide, rfl⟩
  · exact .inl ⟨2, by decide, rfl⟩
  · exact .inl ⟨3, by decide, rfl⟩
  · exact .inr rfl

theorem lumaCodec_sample (p : Params) (w : Space → Word) {q : Nat} (hq : q < 4) :
    lumaCodec.sample p (lumaChips.map w) q = unpack10 p.lsbOrder ((w (msbChip q)).setWidth 8) ((w .llsb).setWidth 8) q := by
  rw [← lumaChips_getD w hq]
  rfl

/-- A byte in a word. -/
theorem setWidth_byte (b : Byte) : (b.setWidth 32 : Word).setWidth 8 = b := BitVec.eq_of_toNat_eq (by simp)

theorem setWidth_of_lt {w : Word} (h : w.toNat < 2 ^ 8) : (w.setWidth 8 : Byte).setWidth 32 = w :=
  BitVec.eq_of_toNat_eq (by simp only [BitVec.toNat_setWidth]; omega)

theorem lumaCodec_sample_byte (p : Params) (v : Nat → BitVec 10) {q : Nat} (hq : q < 4) :
    lumaCodec.sample p (lumaChips.map (lumaCodec.byte p ((List.range 4).map v))) q = v q := by
  have hbyte : ∀ S, (lumaCodec.byte p ((List.range 4).map v) S).setWidth 8 = lumaByte p.lsbOrder ((List.range 4).map v) S :=
    fun S => setWidth_byte _
  rw [lumaCodec_sample p _ hq, hbyte, hbyte, lumaByte_msbChip _ _ hq, lumaByte_llsb, unpack10_selOf _ _ hq]

theorem lumaCodec_byte_sample (p : Params) (w : Space → Word) {S : Space} (hw : (w S).toNat < 2 ^ 8) (hS : S ∈ lumaChips) :
    lumaCodec.byte p ((List.range 4).map (lumaCodec.sample p (lumaChips.map w))) S = w S := by
  have hbyte : lumaByte p.lsbOrder ((List.range 4).map (lumaCodec.sample p (lumaChips.map w))) S = (w S).setWidth 8 := by
    rcases lumaChip_cases hS with ⟨q, hq, rfl⟩ | rfl
    · rw [lumaByte_msbChip _ _ hq, lumaCodec_sample p w hq, msbOf_unpack10]
    · rw [lumaByte_llsb, lumaCodec_sample p w (by decide), lumaCodec_sample p w (by decide), lumaCodec_sample p w (by decide),
        lumaCodec_sample p w (by decide)]
      exact selOf_unpack10 p.lsbOrder (fun q => (w (msbChip q)).setWidth 8) _
  refine Eq.trans ?_ (setWidth_of_lt hw)
  rw [← hbyte]
  rfl

theorem lumaCodec_lawful : lumaCodec.Lawful where
  chip_size S hS p := by
    rcases lumaChip_cases hS with ⟨q, hq, rfl⟩ | rfl
    · interval_cases q <;> rfl
    · rfl
  chip_bytes := by decide
  plane_size _ := rfl
  apart := by decide
  read_ok := State.fetchLuma10_ok
  read_congr := State.fetchLuma10_congr
  sample_fits p w q _ _ := (BitVec.toNat_setWidth_of_le (by decide)).trans_lt ((BitVec.isLt _).trans (by decide))
  byte_fits p v S _ _ := (toNat_byte_word _).trans_lt (BitVec.isLt _)
  sample_byte p v q hq := lumaCodec_sample_byte p v hq
  byte_sample p w S hw hS := lumaCodec_byte_sample p w (hw S hS) hS

end Sys2Proof.Machine
end

section
/-! Proofs of the statements of 40_reconstructor.md, part 4: the codec of a chroma component, the four commands as instances of
part 2, and the statements O18 to O25. -/

namespace Sys2Proof.Machine

open Sys2Proof.Claims

/-! ## Chroma -/

/-- Both of two chips. -/
theorem forall_mem_pair {Q : Space → Prop} {c0 c1 : Space} (h : Q c0 ∧ Q c1) : ∀ S ∈ [c0, c1], Q S :=
  List.forall_mem_cons.2 ⟨h.1, List.forall_mem_singleton.2 h.2⟩

/-- A chroma component: two samples of 8 bits, each the byte of one chip (R91, R97). -/
def chromaCodec (c0 c1 plane : Space) : PlaneCodec Word where
  chips := [c0, c1]
  plane := plane
  m := 2
  read s k := s.fetch plane k
  toWord v := v
  sample _ ws q := ws.getD q 0
  byte _ vs S := if S = c0 then vs.getD 0 0 else vs.getD 1 0

section
variable {c : Comp} {c0 c1 plane : Space} (h : Chroma c c0 c1 plane)
include h

theorem chroma_ne : c1 ≠ c0 := by
  rcases h with ⟨-, rfl, rfl, -⟩ | ⟨-, rfl, rfl, -⟩ <;> decide

theorem chroma_plane_bytes : plane.bytes = 1 := by
  rcases h with ⟨-, -, -, rfl⟩ | ⟨-, -, -, rfl⟩ <;> rfl

theorem selectChroma_of_chroma : selectChroma c = .ok ⟨c0, c1, plane⟩ := by
  rcases h with ⟨rfl, rfl, rfl, rfl⟩ | ⟨rfl, rfl, rfl, rfl⟩ <;> rfl

theorem chromaCodec_lawful : (chromaCodec c0 c1 plane).Lawful where
  chip_size := by rcases h with ⟨-, rfl, rfl, -⟩ | ⟨-, rfl, rfl, -⟩ <;> simp [chromaCodec, Space.size]
  chip_bytes := by rcases h with ⟨-, rfl, rfl, rfl⟩ | ⟨-, rfl, rfl, rfl⟩ <;> decide
  plane_size := by rcases h with ⟨-, -, -, rfl⟩ | ⟨-, -, -, rfl⟩ <;> exact fun _ => rfl
  apart := by rcases h with ⟨-, rfl, rfl, rfl⟩ | ⟨-, rfl, rfl, rfl⟩ <;> decide
  read_ok := State.fetch_ok
  read_congr := State.fetch_congr
  sample_fits p w q hw hq := by
    have hbytes := chroma_plane_bytes h
    obtain rfl | rfl : q = 0 ∨ q = 1 := Nat.le_one_iff_eq_zero_or_eq_one.1 (Nat.le_of_lt_succ hq)
    · exact (hw c0 (by simp [chromaCodec])).trans_eq (by rw [chromaCodec, hbytes])
    · exact (hw c1 (by simp [chromaCodec])).trans_eq (by rw [chromaCodec, hbytes])
  byte_fits p v S hv hS := by
    have hbytes := chroma_plane_bytes h
    change (if S = c0 then v 0 else v 1).toNat < 2 ^ (8 * 1)
    split
    · exact hbytes ▸ hv 0 Nat.zero_lt_two
    · exact hbytes ▸ hv 1 Nat.one_lt_two
  sample_byte p v q hq := by
    obtain rfl | rfl : q = 0 ∨ q = 1 := Nat.le_one_iff_eq_zero_or_eq_one.1 (Nat.le_of_lt_succ hq)
    · exact if_pos rfl
    · exact if_neg (chroma_ne h)
  byte_sample p w S hw hS := by
    obtain rfl | rfl : S = c0 ∨ S = c1 := by simpa [chromaCodec] using hS
    · exact if_pos rfl
    · exact if_neg (chroma_ne h)

end

/-! ## The four commands -/

theorem reconLumaAt_eq : reconLumaAt = transfer lumaCodec.recon := by
  funext j s
  simp only [reconLumaAt, transfer, PlaneCodec.recon, lumaCodec, lumaChips, List.mapM_cons, List.mapM_nil, bind_assoc,
    pure_bind, staged_ok_bind]
  rfl

theorem splitLumaAt_eq : splitLumaAt = transfer lumaCodec.split := by
  have hrange : List.range 4 = [0, 1, 2, 3] := rfl
  funext j s
  simp only [splitLumaAt, transfer, PlaneCodec.split, lumaCodec, hrange, List.mapM_cons, List.mapM_nil, bind_assoc,
    pure_bind, staged_ok_bind]
  rfl

theorem reconChromaAt_eq (c0 c1 plane : Space) :
    reconChromaAt ⟨c0, c1, plane⟩ = transfer (chromaCodec c0 c1 plane).recon := by
  funext j s
  simp only [reconChromaAt, transfer, PlaneCodec.recon, chromaCodec, List.mapM_cons, List.mapM_nil, bind_assoc,
    pure_bind, staged_ok_bind]
  rfl

theorem splitChromaAt_eq {c0 c1 : Space} (plane : Space) (h : c1 ≠ c0) :
    splitChromaAt ⟨c0, c1, plane⟩ = transfer (chromaCodec c0 c1 plane).split := by
  have hrange : List.range 2 = [0, 1] := rfl
  funext j s
  simp only [splitChromaAt, transfer, PlaneCodec.split, chromaCodec, hrange, List.mapM_cons, List.mapM_nil, bind_assoc,
    pure_bind, staged_ok_bind, chipStores, List.map_cons, List.map_nil, if_neg h, if_true]
  rfl

theorem reconLuma_planeCommand : PlaneCommand .reconLuma lumaCodec.recon lumaCodec.chips :=
  ⟨lumaCodec_lawful.reconGathers, fun s => by rw [← reconLumaAt_eq]; rfl⟩

theorem splitLuma_planeCommand : PlaneCommand .splitLuma lumaCodec.split [lumaCodec.plane] :=
  ⟨lumaCodec_lawful.splitGathers, fun s => by rw [← splitLumaAt_eq]; rfl⟩

section
variable {c : Comp} {c0 c1 plane : Space} (h : Chroma c c0 c1 plane)
include h

theorem reconChroma_planeCommand :
    PlaneCommand (.reconChroma c) (chromaCodec c0 c1 plane).recon (chromaCodec c0 c1 plane).chips := by
  refine ⟨(chromaCodec_lawful h).reconGathers, fun s => ?_⟩
  rw [bodyOf, reconChromaBody, selectChroma_of_chroma h, staged_ok_bind, reconChromaAt_eq]

theorem splitChroma_planeCommand :
    PlaneCommand (.splitChroma c) (chromaCodec c0 c1 plane).split [(chromaCodec c0 c1 plane).plane] := by
  refine ⟨(chromaCodec_lawful h).splitGathers, fun s => ?_⟩
  rw [bodyOf, splitChromaBody, selectChroma_of_chroma h, staged_ok_bind, splitChromaAt_eq plane (chroma_ne h)]

end

/-! ## The statements -/

/-- Settles O22: the range check is the first of all. -/
theorem rawRangeFaults : Obligations.RawRangeFaults := by
  intro s c hc hr i hi
  obtain ⟨c0, c1, plane, h⟩ : ∃ c0 c1 plane, Chroma c c0 c1 plane := by
    rcases hc with rfl | rfl
    · exact ⟨_, _, _, .inl ⟨rfl, rfl, rfl, rfl⟩⟩
    · exact ⟨_, _, _, .inr ⟨rfl, rfl, rfl, rfl⟩⟩
  simp only [List.mem_cons, List.not_mem_nil, or_false] at hi
  rcases hi with rfl | rfl | rfl | rfl
  · exact reconLuma_planeCommand.faults_range hr
  · exact (reconChroma_planeCommand h).faults_range hr
  · exact splitLuma_planeCommand.faults_range hr
  · exact (splitChroma_planeCommand h).faults_range hr

/-- Settles O23: the chips are read in their order at each raw address, and the first fault is the command's. -/
theorem reconFaultsAtFirstUnwritten : Obligations.ReconFaultsAtFirstUnwritten := by
  constructor
  · intro s i S before after hp hr hi hchips hearlier hbefore hS
    exact reconLuma_planeCommand.recon_faults hp hr hi hchips hearlier hbefore hS
  · intro s c c0 c1 plane i S before after hp h hr hi hchips hearlier hbefore hS
    exact (reconChroma_planeCommand h).recon_faults hp hr hi hchips (fun j hj hlt => forall_mem_pair (hearlier j hj hlt))
      hbefore hS

theorem State.fetchLuma10_of_le {s : State} {k : Nat} {w : Word} (h : s.read .luma k = some w) (hle : w.toNat ≤ 1023) :
    s.fetchLuma10 k = .ok (w.setWidth 10) := by
  rw [State.fetchLuma10, State.fetch_ok.2 h, staged_ok_bind, require_pos hle, staged_ok_bind]

/-- Settles O24: the samples are read and checked in ascending order, and the first fault is the command's. -/
theorem splitFaultsAtFirstBadSample : Obligations.SplitFaultsAtFirstBadSample := by
  constructor
  · intro s k hp hr h1 h2 hbefore
    have hread : ∀ l, 4 * s.x0 ≤ l → l < k → ∃ v, s.fetchLuma10 l = .ok v := fun l hl hlt => by
      obtain ⟨w, hw, hle⟩ := hbefore l hl hlt
      exact ⟨_, State.fetchLuma10_of_le hw hle⟩
    refine ⟨fun hnone => ?_, fun v hv hlt => ?_⟩
    · refine splitLuma_planeCommand.split_faults hp hr (e := atElem .unwritten Space.luma.id k) ⟨h1, h2⟩ hread ?_
      exact staged_bind_error.2 (.inl (State.fetch_error.2 ⟨hnone, rfl⟩))
    · refine splitLuma_planeCommand.split_faults hp hr (e := atElem .range Space.luma.id k) ⟨h1, h2⟩ hread ?_
      refine staged_bind_error.2 (.inr ⟨v, State.fetch_ok.2 hv, ?_⟩)
      rw [require_neg (Nat.not_le.2 hlt), staged_error_bind]
  · intro s c c0 c1 plane k hp h hr h1 h2 hbefore hnone
    refine (splitChroma_planeCommand h).split_faults hp hr (e := atElem .unwritten plane.id k) ⟨h1, h2⟩ (fun l hl hlt => ?_)
      (State.fetch_error.2 ⟨hnone, rfl⟩)
    obtain ⟨w, hw⟩ := Option.isSome_iff_exists.1 (hbefore l hl hlt)
    exact ⟨w, State.fetch_ok.2 hw⟩

/-- Settles O19: a chroma sample is the byte of its chip. -/
theorem reconChromaCompletes : Obligations.ReconChromaCompletes := by
  intro s c c0 c1 plane hp h hr hsrc
  obtain ⟨t, hrun, hcommitted, hcfg, hfrags, hread, hframe⟩ :=
    (reconChroma_planeCommand h).recon_completes (chromaCodec_lawful h) hp hr fun j hj => forall_mem_pair (hsrc j hj)
  refine ⟨t, hrun, hcommitted, hcfg, hfrags, fun i hi => ?_, hframe⟩
  obtain ⟨h0, h1⟩ := hsrc i hi
  rw [State.read_chipWord h0, State.read_chipWord h1]
  exact ⟨hread i 0 hi Nat.zero_lt_two, hread i 1 hi Nat.one_lt_two⟩

/-- Settles O21: a chroma chip's byte is its sample. -/
theorem splitChromaCompletes : Obligations.SplitChromaCompletes := by
  intro s c c0 c1 plane hp h hr hsrc
  have hread : ∀ j q, InRange s j → q < 2 → ∃ v, (chromaCodec c0 c1 plane).read s (2 * j + q) = .ok v := fun j q hj hq => by
    obtain ⟨h0, h1⟩ := hsrc j hj
    obtain rfl | rfl : q = 0 ∨ q = 1 := Nat.le_one_iff_eq_zero_or_eq_one.1 (Nat.le_of_lt_succ hq)
    · exact ⟨_, State.fetch_ok.2 (State.read_chipWord h0)⟩
    · exact ⟨_, State.fetch_ok.2 (State.read_chipWord h1)⟩
  obtain ⟨t, hrun, hcommitted, hcfg, hfrags, hbytes, hframe⟩ :=
    (splitChroma_planeCommand h).split_completes (chromaCodec_lawful h) hp hr hread
  have hvalue : ∀ j q, InRange s j → q < 2 →
      s.read plane (2 * j + q) = some ((chromaCodec c0 c1 plane).valueAt s (2 * j + q)) := fun j q hj hq =>
    (chromaCodec_lawful h).read_ok.1 (PlaneCodec.read_valueAt (hread j q hj hq))
  refine ⟨t, hrun, hcommitted, hcfg, hfrags, fun i hi => ⟨?_, ?_⟩, fun a ha => hframe a fun ⟨S, hS, hin⟩ => ha ?_⟩
  · rw [hbytes i hi c0 (by simp [chromaCodec])]
    exact (congrArg some (if_pos rfl)).trans (hvalue i 0 hi Nat.zero_lt_two).symm
  · rw [hbytes i hi c1 (by simp [chromaCodec]), hvalue i 1 hi Nat.one_lt_two]
    exact congrArg some (if_neg (chroma_ne h))
  · obtain rfl | rfl : S = c0 ∨ S = c1 := by simpa [chromaCodec] using hS
    · exact .inl hin
    · exact .inr hin

/-- RECON_LUMA's sample in plain arithmetic (R88). -/
theorem lumaCodec_sampleAt {s : State} {i p : Nat} {m sel : Word} (hp : p < 4) (hm : s.read (msbChip p) i = some m)
    (hsel : s.read .llsb i = some sel) :
    (lumaCodec.sampleAt s i p).toNat = lumaValue s.params.lsbOrder m sel p := by
  have hbyte : ∀ {S w}, S ∈ lumaChips → s.read S i = some w → ((s.chipWord i S).setWidth 8 : Byte).setWidth 32 = w :=
    fun hS hw => by
      rw [State.chipWord_of_read hw]
      exact State.read_byte (lumaCodec_lawful.chip_bytes _ hS) hw
  refine (congrArg BitVec.toNat (lumaCodec_sample s.params _ hp)).trans ?_
  rw [toNat_unpack10, hbyte (msbChip_mem hp) hm, hbyte (by decide) hsel]

/-- Settles O18: RECON_LUMA's samples in plain arithmetic, which at most 1023 bound. -/
theorem reconLumaCompletes : Obligations.ReconLumaCompletes := by
  intro s hp hr hsrc
  obtain ⟨t, hrun, hcommitted, hcfg, hfrags, hread, hframe⟩ :=
    reconLuma_planeCommand.recon_completes lumaCodec_lawful hp hr hsrc
  refine ⟨t, hrun, hcommitted, hcfg, hfrags, fun i p m sel hi hp hm hsel => ?_, hframe⟩
  have hvalue := lumaCodec_sampleAt hp hm hsel
  constructor
  · rw [← hvalue]
    exact Nat.le_of_lt_succ (BitVec.isLt _)
  · rw [← hvalue, BitVec.ofNat_toNat]
    exact hread i p hi hp

/-- Settles O20: SPLIT_LUMA's bytes in plain arithmetic. -/
theorem splitLumaCompletes : Obligations.SplitLumaCompletes := by
  intro s hp hr hsrc
  have hread : ∀ j q, InRange s j → q < 4 → ∃ v, s.fetchLuma10 (4 * j + q) = .ok v := fun j q hj hq => by
    obtain ⟨w, hw, hle⟩ := hsrc j q hj hq
    exact ⟨_, State.fetchLuma10_of_le hw hle⟩
  obtain ⟨t, hrun, hcommitted, hcfg, hfrags, hbytes, hframe⟩ :=
    splitLuma_planeCommand.split_completes lumaCodec_lawful hp hr hread
  refine ⟨t, hrun, hcommitted, hcfg, hfrags, fun i v0 v1 v2 v3 hi h0 h1 h2 h3 => ?_, hframe⟩
  have hvalue : ∀ {q w}, q < 4 → s.read .luma (4 * i + q) = some w →
      (lumaCodec.valueAt s (4 * i + q)).toNat = w.toNat := fun hq hw => by
    have hv := State.fetchLuma10_ok.1 (PlaneCodec.read_valueAt (C := lumaCodec) (hread i _ hi hq))
    obtain rfl := Option.some.inj (hv.symm.trans hw)
    exact (BitVec.toNat_setWidth_of_le (by decide)).symm
  have hmsb : ∀ {q w}, q < 4 → s.read .luma (4 * i + q) = some w →
      t.read (msbChip q) i = some (BitVec.ofNat 32 (w.toNat / 4)) := fun hq hw => by
    rw [hbytes i hi _ (msbChip_mem hq), ← hvalue hq hw, ← toNat_msbOf, BitVec.ofNat_toNat]
    exact congrArg (fun b : Byte => some (b.setWidth 32 : Word))
      (lumaByte_msbChip s.params.lsbOrder (fun q => lumaCodec.valueAt s (4 * i + q)) hq)
  refine ⟨hmsb (q := 0) (by decide) h0, hmsb (q := 1) (by decide) h1, hmsb (q := 2) (by decide) h2,
    hmsb (q := 3) (by decide) h3, ?_⟩
  rw [hbytes i hi .llsb (by decide), ← hvalue (q := 0) (by decide) h0, ← hvalue (q := 1) (by decide) h1,
    ← hvalue (q := 2) (by decide) h2, ← hvalue (q := 3) (by decide) h3, ← toNat_selOf, BitVec.ofNat_toNat]
  rfl

/-- Settles O25, by the two round trips of a codec: luma's and the chroma components'. -/
theorem reconSplitRoundTrips : Obligations.ReconSplitRoundTrips := by
  refine ⟨fun s t hp ht herr => ?_, fun s t hp ht herr => ?_, fun s t c c0 c1 plane hp h ht herr => ?_,
    fun s t c c0 c1 plane hp h ht herr => ?_⟩
  · exact split_recon_roundTrip splitLuma_planeCommand reconLuma_planeCommand lumaCodec_lawful hp ht herr
  · exact recon_split_roundTrip splitLuma_planeCommand reconLuma_planeCommand lumaCodec_lawful hp ht herr
  · exact split_recon_roundTrip (splitChroma_planeCommand h) (reconChroma_planeCommand h) (chromaCodec_lawful h) hp ht herr
  · exact recon_split_roundTrip (splitChroma_planeCommand h) (reconChroma_planeCommand h) (chromaCodec_lawful h) hp ht herr

end Sys2Proof.Machine
end

section
/-! Proofs of the statements of 41_vector_codec.md, part 1: the pure codec. Decode and encode of one record in plain arithmetic,
and O34. -/

namespace Sys2Proof.Machine

open Sys2Proof.Claims

theorem ScaleClass.rpc_eq (cls : ScaleClass) : cls.rpc = rpcOf cls := by cases cls <;> rfl

theorem rpcOf_pos (cls : ScaleClass) : 0 < rpcOf cls := by cases cls <;> decide

theorem back169_eq (p : Params) (rc : Nat) (cls : ScaleClass) : back169 p rc cls = porch169 p cls rc := by
  cases cls <;> rfl

/-! ## The 4:3 record (R100, R104) -/

theorem lows_eq (p : Params) (q : BitVec 2) :
    lows p q.toNat = ((patternOf p q).back.toNat, (patternOf p q).centre.toNat, (patternOf p q).front.toNat) := by
  obtain rfl | rfl | rfl | rfl : q = 0 ∨ q = 1 ∨ q = 2 ∨ q = 3 := by revert q; decide
  all_goals rfl

theorem lows_eq_iff (p : Params) (q r : BitVec 2) : lows p q.toNat = lows p r.toNat ↔ patternOf p q = patternOf p r := by
  rw [lows_eq, lows_eq]
  cases patternOf p q
  cases patternOf p r
  simp [BitVec.toNat_inj]

/-- A pattern's low bytes are bytes. -/
theorem lows_lt (p : Params) (q : BitVec 2) :
    (lows p q.toNat).1 < 256 ∧ (lows p q.toNat).2.1 < 256 ∧ (lows p q.toNat).2.2 < 256 := by
  rw [lows_eq]
  exact ⟨BitVec.isLt _, BitVec.isLt _, BitVec.isLt _⟩

/-- The raw triple of a record: high bytes from the record, low bytes from the pattern. -/
theorem dec43_eq (p : Params) (x y z : Byte) (q : BitVec 2) (hq : q = x.setWidth 2) :
    dec43 p x y z =
      { back := y.toNat * 256 + (lows p q.toNat).1
        centre := z.toNat * 256 + (lows p q.toNat).2.1
        front := y.toNat * 256 + (lows p q.toNat).2.2 } := by
  subst hq
  rw [lows_eq]
  simp only [dec43, toNat_append_eq_add, Nat.reducePow]

theorem patternIs_iff {p : Params} {q : BitVec 2} {b c f : Nat} :
    patternIs p q b c f = true ↔ lows p q.toNat = (b, c, f) := by
  simp [patternIs, lows_eq, and_assoc]

/-- The index found is the first whose pattern has the low bytes. -/
theorem leastPattern_eq_some_iff {p : Params} {b c f : Nat} {q : BitVec 2} :
    leastPattern p b c f = some q ↔ lows p q.toNat = (b, c, f) ∧ ∀ j, j < q → lows p j.toNat ≠ (b, c, f) := by
  have hfirst : ∀ (P : BitVec 2 → Bool), ([0, 1, 2, 3] : List (BitVec 2)).find? P = some q ↔ P q ∧ ∀ j, j < q → ¬P j := by
    revert q
    decide
  rw [leastPattern, hfirst]
  simp only [patternIs_iff, ne_eq]

theorem leastPattern_eq_none_iff {p : Params} {b c f : Nat} :
    leastPattern p b c f = none ↔ ∀ q : BitVec 2, lows p q.toNat ≠ (b, c, f) := by
  have hall : ∀ q : BitVec 2, q ∈ ([0, 1, 2, 3] : List (BitVec 2)) := by decide
  simp only [leastPattern, List.find?_eq_none, patternIs_iff, hall, forall_const, ne_eq]

/-- R104 as an inversion: each condition, and the record. -/
theorem enc43_ok {p : Params} {b c f : Nat} {cls : ScaleClass} {bytes : List Byte} :
    enc43 p b c f cls = .ok bytes ↔
      (b % rpcOf cls = 0 ∧ b / rpcOf cls ≤ 0xFFFF) ∧ (c % rpcOf cls = 0 ∧ c / rpcOf cls ≤ 0xFFFF) ∧
      (f % rpcOf cls = 0 ∧ f / rpcOf cls ≤ 0xFFFF ∧ f / rpcOf cls / 256 = b / rpcOf cls / 256) ∧
      ∃ q, leastPattern p (b / rpcOf cls % 256) (c / rpcOf cls % 256) (f / rpcOf cls % 256) = some q ∧
        bytes = [q.setWidth 8, BitVec.ofNat 8 (b / rpcOf cls / 256), BitVec.ofNat 8 (c / rpcOf cls / 256)] := by
  simp only [enc43, ScaleClass.rpc_eq, staged_bind_ok, require_ok, exists_const]
  refine and_congr_right fun _ => and_congr_right fun _ => and_congr_right fun _ => ?_
  split
  · next hq => simp [hq]
  · next hq => simp [hq, eq_comm]

/-- A raw address is its high byte and its low byte. -/
theorem toNat_highByte {n : Nat} (h : n ≤ 0xFFFF) : (BitVec.ofNat 8 (n / 256)).toNat * 256 + n % 256 = n := by
  rw [BitVec.toNat_ofNat]
  omega

/-- R107 (a), 4:3. -/
theorem scale43_dec43_of_enc43 {p : Params} {cls : ScaleClass} {b c f : Nat} {x y z : Byte}
    (h : enc43 p b c f cls = .ok [x, y, z]) :
    scale43 (dec43 p x y z) cls =
      { back := BitVec.ofNat 32 b, centre := BitVec.ofNat 32 c, front := BitVec.ofNat 32 f, hasFront := true } := by
  obtain ⟨⟨hb, hb'⟩, ⟨hc, hc'⟩, ⟨hf, hf', hfb⟩, q, hq, hbytes⟩ := enc43_ok.1 h
  obtain ⟨hlow, -⟩ := leastPattern_eq_some_iff.1 hq
  obtain ⟨rfl, rfl, rfl⟩ : x = q.setWidth 8 ∧ y = BitVec.ofNat 8 (b / rpcOf cls / 256) ∧
    z = BitVec.ofNat 8 (c / rpcOf cls / 256) := by simpa using hbytes
  have hseq : q = (q.setWidth 8 : Byte).setWidth 2 := BitVec.eq_of_toNat_eq (by simp)
  have hfront := toNat_highByte hf'
  rw [hfb] at hfront
  have hmul : ∀ {n : Nat}, n % rpcOf cls = 0 → n / rpcOf cls * rpcOf cls = n := fun h =>
    Nat.div_mul_cancel (Nat.dvd_of_mod_eq_zero h)
  rw [dec43_eq p _ _ _ q hseq, hlow]
  simp only [scale43, ScaleClass.rpc_eq, toNat_highByte hb', toNat_highByte hc', hfront, hmul hb, hmul hc, hmul hf]

/-- R107 (b), 4:3: the canonical form has the least index of the record's pattern. -/
theorem enc43_dec43 (p : Params) (cls : ScaleClass) (x y z : Byte) :
    ∃ q : BitVec 2, patternOf p q = patternOf p (x.setWidth 2) ∧
      (∀ j, j < q → patternOf p j ≠ patternOf p (x.setWidth 2)) ∧
      enc43 p ((dec43 p x y z).back * rpcOf cls) ((dec43 p x y z).centre * rpcOf cls)
        ((dec43 p x y z).front * rpcOf cls) cls = .ok [q.setWidth 8, y, z] := by
  obtain ⟨hb, hc, hf⟩ := lows_lt p (x.setWidth 2)
  have hy := y.isLt
  have hz := z.isLt
  have hpos := rpcOf_pos cls
  set low := lows p (x.setWidth 2 : BitVec 2).toNat with hlow
  cases hq : leastPattern p low.1 low.2.1 low.2.2 with
  | none => exact absurd hlow.symm (leastPattern_eq_none_iff.1 hq _)
  | some q =>
    obtain ⟨hpat, hleast⟩ := leastPattern_eq_some_iff.1 hq
    refine ⟨q, (lows_eq_iff p q _).1 hpat, fun j hj he => hleast j hj ((lows_eq_iff p j _).2 he), ?_⟩
    have hdiv : ∀ {n m : Nat}, m < 256 → (n * 256 + m) / 256 = n := by omega
    have hmod : ∀ {n m : Nat}, m < 256 → (n * 256 + m) % 256 = m := by omega
    rw [dec43_eq p x y z _ rfl, ← hlow, enc43_ok]
    simp only [Nat.mul_mod_left, Nat.mul_div_cancel _ hpos, hdiv hb, hdiv hc, hdiv hf, hmod hb, hmod hc, hmod hf, hq,
      true_and, and_true]
    refine ⟨by omega, by omega, by omega, q, rfl, ?_⟩
    simp

/-! ## The 16:9 record (R102, R103, R105) -/

theorem rawCentre169_eq (x y : Byte) : rawCentre169 x y = centre169 (x.setWidth 32) (y.setWidth 32) := by
  simp only [rawCentre169, centre169, bitOf_eq, toNat_byte_word, toNat_append_eq_add, BitVec.toNat_ofBool, toNat_getLsbD,
    show (0 : BitVec 8).toNat = 0 from rfl]
  omega

/-- The control byte in plain arithmetic (R105). -/
theorem toNat_control169 (rc : Nat) :
    (control169 rc).toNat = rc / 65536 % 2 * 32 + rc / 131072 % 2 * 4 + rc / 262144 % 2 * 8 := by
  have hbits : ∀ a b c : Bool, ((BitVec.ofBool a).setWidth 8 <<< 5 ||| (BitVec.ofBool b).setWidth 8 <<< 2 |||
      (BitVec.ofBool c).setWidth 8 <<< 3 : Byte).toNat = a.toNat * 32 + b.toNat * 4 + c.toNat * 8 := by decide
  rw [control169, hbits]
  simp only [Nat.toNat_testBit, Nat.reducePow]

/-- R105 as an inversion: each condition, and the record. -/
theorem enc169_ok {p : Params} {b c f : Nat} {cls : ScaleClass} {bytes : List Byte} :
    enc169 p b c f cls = .ok bytes ↔
      c % rpcOf cls = 0 ∧ (c / rpcOf cls % 256 = 0 ∧ c / rpcOf cls < 2 ^ 19) ∧
      (b : Int) = back169 p (c / rpcOf cls) cls ∧ f = 0 ∧
      bytes = [BitVec.ofNat 8 (c / rpcOf cls / 256), control169 (c / rpcOf cls)] := by
  simp only [enc169, ScaleClass.rpc_eq, staged_bind_ok, require_ok, exists_const, Except.ok.injEq, eq_comm (b := bytes)]

/-- The three bits that a control byte carries stand apart in it. -/
theorem controlBits {b5 b2 b3 : Nat} (h5 : b5 < 2) (h2 : b2 < 2) (h3 : b3 < 2) :
    (b5 * 32 + b2 * 4 + b3 * 8) / 2 ^ 5 % 2 = b5 ∧ (b5 * 32 + b2 * 4 + b3 * 8) / 2 ^ 2 % 2 = b2 ∧
      (b5 * 32 + b2 * 4 + b3 * 8) / 2 ^ 3 % 2 = b3 := by
  omega

/-- The record of a raw centre decodes to the raw centre. -/
theorem rawCentre169_record {rc : Nat} (h : rc % 256 = 0) (hlt : rc < 2 ^ 19) :
    rawCentre169 (BitVec.ofNat 8 (rc / 256)) (control169 rc) = rc := by
  have hsum : rc / 256 % 256 * 256 + rc / 65536 % 2 * 65536 + rc / 131072 % 2 * 131072 + rc / 262144 % 2 * 262144 = rc := by
    omega
  obtain ⟨h5, h2, h3⟩ := controlBits (Nat.mod_lt (rc / 65536) two_pos) (Nat.mod_lt (rc / 131072) two_pos)
    (Nat.mod_lt (rc / 262144) two_pos)
  rw [rawCentre169_eq]
  simp only [centre169, bitOf_eq, toNat_byte_word, toNat_control169, BitVec.toNat_ofNat, h5, h2, h3]
  exact hsum

/-- The control byte of a decoded record keeps bits 2, 3 and 5 of the record's (R102). -/
theorem control169_rawCentre169 (x y : Byte) : control169 (rawCentre169 x y) = y &&& 0x2C := by
  have hmask : ∀ y : Byte,
      (y &&& 0x2C).toNat = y.toNat / 2 ^ 5 % 2 * 32 + y.toNat / 2 ^ 2 % 2 * 4 + y.toNat / 2 ^ 3 % 2 * 8 := by decide
  have hx := x.isLt
  refine BitVec.eq_of_toNat_eq ?_
  rw [hmask, toNat_control169, rawCentre169_eq]
  simp only [centre169, bitOf_eq, toNat_byte_word]
  have h5 := Nat.mod_lt (y.toNat / 2 ^ 5) two_pos
  have h2 := Nat.mod_lt (y.toNat / 2 ^ 2) two_pos
  have h3 := Nat.mod_lt (y.toNat / 2 ^ 3) two_pos
  generalize y.toNat / 2 ^ 5 % 2 = b5, y.toNat / 2 ^ 2 % 2 = b2, y.toNat / 2 ^ 3 % 2 = b3 at h5 h2 h3 ⊢
  omega

theorem highByte_rawCentre169 (x y : Byte) : BitVec.ofNat 8 (rawCentre169 x y / 256) = x := by
  have hx := x.isLt
  refine BitVec.eq_of_toNat_eq ?_
  rw [rawCentre169_eq]
  simp only [centre169, bitOf_eq, toNat_byte_word, BitVec.toNat_ofNat]
  omega

/-- R107 (a), 16:9. -/
theorem scale169_rawCentre169_of_enc169 {p : Params} {cls : ScaleClass} {b c f : Nat} {x y : Byte}
    (h : enc169 p b c f cls = .ok [x, y]) :
    back169 p (rawCentre169 x y) cls = b ∧
    scale169 p (rawCentre169 x y) cls =
      { back := BitVec.ofNat 32 b, centre := BitVec.ofNat 32 c, front := BitVec.ofNat 32 f, hasFront := false } := by
  obtain ⟨hc, ⟨hlow, hlt⟩, hb, rfl, hbytes⟩ := enc169_ok.1 h
  obtain ⟨rfl, rfl⟩ : x = BitVec.ofNat 8 (c / rpcOf cls / 256) ∧ y = control169 (c / rpcOf cls) := by simpa using hbytes
  rw [rawCentre169_record hlow hlt]
  refine ⟨hb.symm, ?_⟩
  rw [scale169, ← hb, ScaleClass.rpc_eq, Nat.div_mul_cancel (Nat.dvd_of_mod_eq_zero hc)]
  rfl

/-- R107 (b), 16:9. -/
theorem enc169_rawCentre169 {p : Params} {cls : ScaleClass} {x y : Byte} (h : 0 ≤ back169 p (rawCentre169 x y) cls) :
    enc169 p (back169 p (rawCentre169 x y) cls).toNat (rawCentre169 x y * rpcOf cls) 0 cls = .ok [x, y &&& 0x2C] := by
  obtain ⟨hlow, hle⟩ := rawCentre169_range x y
  rw [enc169_ok, Nat.mul_mod_left, Nat.mul_div_cancel _ (rpcOf_pos cls), control169_rawCentre169, highByte_rawCentre169]
  exact ⟨rfl, ⟨hlow, by omega⟩, Int.toNat_of_nonneg h, rfl, rfl⟩

/-- Settles O34: R107 (a) and (b) of each format. -/
theorem codecRoundTrips : Obligations.CodecRoundTrips :=
  ⟨fun _ _ _ _ _ _ _ _ => scale43_dec43_of_enc43, fun _ _ _ _ _ _ _ => scale169_rawCentre169_of_enc169, enc43_dec43,
    fun _ _ _ _ => enc169_rawCentre169⟩

end Sys2Proof.Machine
end

section
/-! Proofs of the statements of 41_vector_codec.md, part 2: VENC, O30 to O33. The Standard fixes the format and with it E and
A(n); a record that is written lies in the CPU ROM; and each condition of R104 and R105 that fails names its register. -/

namespace Sys2Proof.Machine

open Sys2Proof.Claims

/-! ## The Standard's format (30_encoding.md R71, R80) -/

theorem State.format_of_is43 {s : State} (h : Is43 s) : s.format = .ok .f43 := by
  rw [State.format_ok]
  rcases h with h | h | h <;> rw [h] <;> rfl

theorem State.format_of_169 {s : State} (h : s.cfg.std = 1) : s.format = .ok .f169 := by
  rw [State.format_ok, h]
  rfl

/-- The formats, by the Standard. -/
theorem State.format_cases {s : State} {f : Format} (h : s.format = .ok f) :
    (f = .f43 ∧ s.cfg.std ≠ 1) ∨ (f = .f169 ∧ s.cfg.std = 1) := by
  rw [State.format_ok, formatOf] at h
  split at h
  · next h1 => exact .inr ⟨(Option.some.inj h).symm, h1⟩
  · next h1 =>
    split at h
    · exact .inl ⟨(Option.some.inj h).symm, h1⟩
    · cases h

theorem State.exists_format {s : State} (h : StdOk s) : ∃ f, s.format = .ok f := by
  by_cases h1 : s.cfg.std = 1
  · exact ⟨_, s.format_of_169 h1⟩
  · exact ⟨.f43, State.format_ok.2 ((if_neg h1).trans (if_pos h))⟩

theorem recLen_of_format {s : State} {f : Format} (h : s.format = .ok f) : recLen s = f.recBytes := by
  unfold recLen
  rcases s.format_cases h with ⟨rfl, h1⟩ | ⟨rfl, h1⟩
  · exact if_neg h1
  · exact if_pos h1

theorem recAddr_of_format {s : State} {f : Format} (h : s.format = .ok f) (n : Nat) : recAddr s n = s.recAddr f n := by
  rw [recAddr, recLen_of_format h]
  rfl

/-! ## A command that changes memory and RESULT0 commits -/

theorem committed_of_mem_result0 {s t : State} {w : Word} (h : t = { s with mem := t.mem, result0 := w }) :
    Committed s t.commit w ∧ t.commit.cfg = s.cfg ∧ t.commit.frags = s.frags := by
  rw [h]
  exact ⟨⟨rfl, rfl, rfl, rfl, rfl, rfl, rfl, rfl, rfl⟩, rfl, rfl⟩

/-! ## VENC's pseudocode (R109) -/

/-- The record of the entry in ARG1 to ARG3. -/
def State.argRecord (s : State) (f : Format) (cls : ScaleClass) : Staged (List Byte) :=
  encodeEntry s.params f s.x1 s.x2 s.x3 cls

/-- R109's checks, as the machine makes them. -/
theorem vencArgsOk_iff {s : State} {f : Format} (hf : s.format = .ok f) :
    VencArgsOk s ↔ s.x0 < s.slotCount f ∧ s.recAddr f s.x0 + f.recBytes ≤ s.params.cpuRomBytes := by
  rw [VencArgsOk, recAddr_of_format hf, recLen_of_format hf]
  rfl

section
variable {s : State} {c : Comp} {k : Component} {f : Format} (hk : componentOf c = some k) (hf : s.format = .ok f)
include hk hf

/-- VENC's pseudocode after the component and the format. -/
theorem vencBody_staging :
    bodyOf (.venc c) s.staging = (do
      require (s.x0 < s.slotCount f) (atReg .range .arg0)
      require (s.recAddr f s.x0 + f.recBytes ≤ s.params.cpuRomBytes) (atReg .range .vtStart)
      let bytes ← s.argRecord f k.cls
      .ok (s.staging.writeRecord (s.recAddr f s.x0) bytes)) := by
  have hf' : s.staging.format = .ok f := hf
  rw [bodyOf, vencBody, selectComponent_ok.2 hk, hf']
  rfl

theorem vencBody_of_argsOk (h : VencArgsOk s) :
    bodyOf (.venc c) s.staging = (do
      let bytes ← s.argRecord f k.cls
      .ok (s.staging.writeRecord (s.recAddr f s.x0) bytes)) := by
  obtain ⟨hslot, hregion⟩ := (vencArgsOk_iff hf).1 h
  rw [vencBody_staging hk hf, require_pos hslot, staged_ok_bind, require_pos hregion, staged_ok_bind]

/-- VENC of an entry that cannot be represented. -/
theorem venc_faults (h : VencArgsOk s) {e : Raised} (he : s.argRecord f k.cls = .error e) :
    exec (.venc c) s = .next (s.takeFault e) := by
  refine exec_error ?_
  rw [vencBody_of_argsOk hk hf h, he, staged_error_bind]

/-- VENC of an entry that can be represented: the record stands in the CPU ROM, and nothing else changes. -/
theorem venc_completes (h : VencArgsOk s) {bytes : List Byte} (hb : s.argRecord f k.cls = .ok bytes) :
    ∃ t, exec (.venc c) s = .next t ∧ Committed s t 0 ∧ t.cfg = s.cfg ∧ t.frags = s.frags ∧
      (∀ i (hi : i < bytes.length), t.read .cpurom (recAddr s s.args.arg0.toNat + i) = some (bytes[i].setWidth 32)) ∧
      SameOutside s t (elems .cpurom (recAddr s s.args.arg0.toNat) bytes.length) := by
  have hrun : bodyOf (.venc c) s.staging = .ok (s.staging.writeRecord (s.recAddr f s.x0) bytes) := by
    rw [vencBody_of_argsOk hk hf h, hb, staged_ok_bind]
  obtain ⟨hcommitted, hcfg, hfrags⟩ := committed_of_mem_result0 (vencBody_memOnly hrun)
  have hframe := s.staging.writeRun_frame .cpurom (s.recAddr f s.x0) (bytes.map fun b => b.setWidth 16)
  rw [List.length_map] at hframe
  rw [recAddr_of_format hf]
  refine ⟨_, exec_ok hrun, hcommitted, hcfg, hfrags, fun i hi => ?_, hframe⟩
  refine (State.read_writeRun_inside s.staging (List.length_map (as := bytes) _ ▸ hi)).trans ?_
  simp [Space.bytes]

end

/-- A VENC that commits has passed its checks and found a record. -/
theorem venc_committed {s t : State} {c : Comp} {k : Component} (hk : componentOf c = some k)
    (ht : exec (.venc c) s = .next t) (herr : t.status.err = false) :
    ∃ f bytes, s.format = .ok f ∧ VencArgsOk s ∧ s.argRecord f k.cls = .ok bytes := by
  obtain ⟨u, hu, -⟩ := exec_body_of_not_err ht herr
  simp only [bodyOf, vencBody, selectComponent_ok, staged_bind_ok, require_ok] at hu
  obtain ⟨k', hk', f, hf, _, hslot, _, hregion, bytes, hbytes, -⟩ := hu
  obtain rfl := Option.some.inj (hk.symm.trans hk')
  exact ⟨f, bytes, hf, (vencArgsOk_iff hf).2 ⟨hslot, hregion⟩, hbytes⟩

/-! ## Entries that a record cannot represent (R104 to R106) -/

section
variable {p : Params} {cls : ScaleClass} {b c f : Nat}

/-- The first condition of R104 that fails. -/
theorem enc43_error :
    (¬(b % rpcOf cls = 0 ∧ b / rpcOf cls ≤ 0xFFFF) → enc43 p b c f cls = .error (atReg .unrepr .arg1)) ∧
    (b % rpcOf cls = 0 ∧ b / rpcOf cls ≤ 0xFFFF →
      (¬(c % rpcOf cls = 0 ∧ c / rpcOf cls ≤ 0xFFFF) → enc43 p b c f cls = .error (atReg .unrepr .arg2)) ∧
      (c % rpcOf cls = 0 ∧ c / rpcOf cls ≤ 0xFFFF →
        (¬(f % rpcOf cls = 0 ∧ f / rpcOf cls ≤ 0xFFFF ∧ f / rpcOf cls / 256 = b / rpcOf cls / 256) →
          enc43 p b c f cls = .error (atReg .unrepr .arg3)) ∧
        (f % rpcOf cls = 0 ∧ f / rpcOf cls ≤ 0xFFFF ∧ f / rpcOf cls / 256 = b / rpcOf cls / 256 →
          leastPattern p (b / rpcOf cls % 256) (c / rpcOf cls % 256) (f / rpcOf cls % 256) = none →
          enc43 p b c f cls = .error (atReg .unrepr .pPat0)))) := by
  simp only [enc43, ScaleClass.rpc_eq]
  refine ⟨fun hb => ?_, fun hb => ⟨fun hc => ?_, fun hc => ⟨fun hf => ?_, fun hf hq => ?_⟩⟩⟩
  · rw [require_neg hb, staged_error_bind]
  · rw [require_pos hb, staged_ok_bind, require_neg hc, staged_error_bind]
  · rw [require_pos hb, staged_ok_bind, require_pos hc, staged_ok_bind, require_neg hf, staged_error_bind]
  · rw [require_pos hb, staged_ok_bind, require_pos hc, staged_ok_bind, require_pos hf, staged_ok_bind, hq]

/-- The first condition of R105 that fails; both conditions of the centre name ARG2. -/
theorem enc169_error :
    (¬(c % rpcOf cls = 0 ∧ c / rpcOf cls % 256 = 0 ∧ c / rpcOf cls < 2 ^ 19) →
      enc169 p b c f cls = .error (atReg .unrepr .arg2)) ∧
    (c % rpcOf cls = 0 ∧ c / rpcOf cls % 256 = 0 ∧ c / rpcOf cls < 2 ^ 19 →
      ((b : Int) ≠ back169 p (c / rpcOf cls) cls → enc169 p b c f cls = .error (atReg .unrepr .arg1)) ∧
      ((b : Int) = back169 p (c / rpcOf cls) cls → f ≠ 0 → enc169 p b c f cls = .error (atReg .unrepr .arg3))) := by
  simp only [enc169, ScaleClass.rpc_eq]
  refine ⟨fun hc => ?_, fun ⟨hc, hrc⟩ => ⟨fun hb => ?_, fun hb hf => ?_⟩⟩
  · by_cases h : c % rpcOf cls = 0
    · rw [require_pos h, staged_ok_bind, require_neg fun hrc => hc ⟨h, hrc⟩, staged_error_bind]
    · rw [require_neg h, staged_error_bind]
  · rw [require_pos hc, staged_ok_bind, require_pos hrc, staged_ok_bind, require_neg hb, staged_error_bind]
  · rw [require_pos hc, staged_ok_bind, require_pos hrc, staged_ok_bind, require_pos hb, staged_ok_bind, require_neg hf,
      staged_error_bind]

end

/-- A pattern number below 4 is a pattern index. -/
theorem toNat_ofNat_pattern {q : Nat} (h : q < 4) : (BitVec.ofNat 2 q).toNat = q := Nat.mod_eq_of_lt h

theorem toNat_ofNat_highByte {n : Nat} (h : n ≤ 0xFFFF) : (BitVec.ofNat 8 (n / 256)).toNat = n / 256 := by
  rw [BitVec.toNat_ofNat]
  omega

/-- A byte read as a word, by its number. -/
theorem some_setWidth_of_toNat {b : Byte} {n : Nat} (h : b.toNat = n) : some (b.setWidth 32) = some (BitVec.ofNat 32 n) := by
  rw [← h, BitVec.ofNat_toNat]

/-! ## The statements -/

/-- Settles O30: the conditions of R104 give the record, whose bytes VENC writes. -/
theorem vencFourThreeCompletes : Obligations.VencFourThreeCompletes := by
  intro s c k q _ hk h43 hargs hb hc hf hq hlow hleast
  have hidx := toNat_ofNat_pattern hq
  have hpat : leastPattern s.params (raw k.cls s.args.arg1 % 256) (raw k.cls s.args.arg2 % 256)
      (raw k.cls s.args.arg3 % 256) = some (BitVec.ofNat 2 q) :=
    leastPattern_eq_some_iff.2 ⟨hidx.symm ▸ hlow, fun j hj => hleast j.toNat (hidx ▸ hj)⟩
  have hrec : s.argRecord .f43 k.cls = .ok [(BitVec.ofNat 2 q).setWidth 8,
      BitVec.ofNat 8 (raw k.cls s.args.arg1 / 256), BitVec.ofNat 8 (raw k.cls s.args.arg2 / 256)] :=
    enc43_ok.2 ⟨hb, hc, and_assoc.1 hf, _, hpat, rfl⟩
  obtain ⟨t, ht, hcommitted, hcfg, hfrags, hread, hframe⟩ := venc_completes hk (s.format_of_is43 h43) hargs hrec
  have hidx8 : ((BitVec.ofNat 2 q).setWidth 8 : Byte).toNat = q := by
    rw [BitVec.toNat_setWidth_of_le (by decide), hidx]
  exact ⟨t, ht, hcommitted, hcfg, hfrags, (hread 0 (by simp)).trans (some_setWidth_of_toNat hidx8),
    (hread 1 (by simp)).trans (some_setWidth_of_toNat (toNat_ofNat_highByte hb.2)),
    (hread 2 (by simp)).trans (some_setWidth_of_toNat (toNat_ofNat_highByte hc.2)), hframe⟩

/-- Settles O31: the conditions of R105 give the record, whose bytes VENC writes. -/
theorem vencSixteenNineCompletes : Obligations.VencSixteenNineCompletes := by
  intro s c k _ hk h169 hargs ⟨hscale, hraw⟩ hb hf
  have hrec : s.argRecord .f169 k.cls = .ok [BitVec.ofNat 8 (raw k.cls s.args.arg2 / 256),
      control169 (raw k.cls s.args.arg2)] :=
    enc169_ok.2 ⟨hscale, hraw, by rw [back169_eq]; exact hb, congrArg BitVec.toNat hf, rfl⟩
  obtain ⟨t, ht, hcommitted, hcfg, hfrags, hread, hframe⟩ := venc_completes hk (s.format_of_169 h169) hargs hrec
  exact ⟨t, ht, hcommitted, hcfg, hfrags, (hread 0 (by simp)).trans (some_setWidth_of_toNat (BitVec.toNat_ofNat ..)),
    (hread 1 (by simp)).trans (some_setWidth_of_toNat (toNat_control169 _)), hframe⟩

/-- Settles O32: the two range checks, after the component and the Standard. -/
theorem vencArgumentFaults : Obligations.VencArgumentFaults := by
  intro s c hc hstd
  obtain ⟨k, hk⟩ := selectComponent_named hc
  rw [selectComponent_ok] at hk
  obtain ⟨f, hf⟩ := s.exists_format hstd
  rw [recLen_of_format hf, recAddr_of_format hf]
  refine ⟨fun h => exec_error (f := atReg .range .arg0) ?_, fun h h' => exec_error (f := atReg .range .vtStart) ?_⟩
  · rw [vencBody_staging hk hf, require_neg (p := s.x0 < s.slotCount f) (Nat.not_lt.2 h), staged_error_bind]
  · rw [vencBody_staging hk hf, require_pos (p := s.x0 < s.slotCount f) h, staged_ok_bind,
      require_neg (p := s.recAddr f s.x0 + f.recBytes ≤ s.params.cpuRomBytes) (Nat.not_le.2 h'), staged_error_bind]

/-- Settles O33: the first condition of the format that fails. -/
theorem vencUnrepresentableFaults : Obligations.VencUnrepresentableFaults := by
  intro s c k hk hargs
  refine ⟨fun h43 => ?_, fun h169 => ?_⟩
  · have hfault {e} := @venc_faults s c k _ hk (s.format_of_is43 h43) hargs e
    obtain ⟨hback, hrest⟩ := @enc43_error s.params k.cls s.x1 s.x2 s.x3
    refine ⟨fun hb => hfault (hback hb), fun hb hc => hfault ((hrest hb).1 hc),
      fun hb hc hf => hfault (((hrest hb).2 hc).1 fun h => hf (and_assoc.2 h)),
      fun hb hc hf hq => hfault (((hrest hb).2 hc).2 (and_assoc.1 hf) ?_)⟩
    exact leastPattern_eq_none_iff.2 fun q => hq q.toNat q.isLt
  · have hfault {e} := @venc_faults s c k _ hk (s.format_of_169 h169) hargs e
    obtain ⟨hcentre, hrest⟩ := @enc169_error s.params k.cls s.x1 s.x2 s.x3
    simp only [back169_eq] at hrest
    exact ⟨fun hc => hfault (hcentre hc), fun hc hb => hfault ((hrest hc).1 hb),
      fun hc hb hf => hfault ((hrest hc).2 hb fun h => hf (BitVec.eq_of_toNat_eq h))⟩

end Sys2Proof.Machine
end

section
/-! Proofs of the statements of 41_vector_codec.md, part 3: VDEC, O26 to O29, and O35. The loop body reads the bytes of one record,
checks them, and writes one slot of both vector files (`vdecAt_eq`). No slot lies in the CPU ROM, so the state that the loop starts
in settles which records are read (`VdecPrefix`). -/

namespace Sys2Proof.Machine

open Sys2Proof.Claims

/-! ## One byte, and one record, of the CPU ROM -/

theorem State.fetchRom_ok {s : State} {a : Nat} {b : Byte} :
    s.fetchRom a = .ok b ↔ s.read .cpurom a = some (b.setWidth 32) := by
  simp only [State.fetchRom, staged_bind_ok, State.fetch_ok, Except.ok.injEq]
  constructor
  · rintro ⟨v, hv, rfl⟩
    rw [hv, State.read_byte rfl hv]
  · exact fun h => ⟨_, h, setWidth_byte b⟩

theorem State.fetchRom_unwritten {s : State} {a : Nat} (h : s.read .cpurom a = none) :
    s.fetchRom a = .error (atElem .unwritten Space.cpurom.id a) := by
  rw [State.fetchRom, State.fetch_error.2 ⟨h, rfl⟩, staged_error_bind]

theorem State.fetchRom_written {s : State} {a : Nat} (h : (s.read .cpurom a).isSome) : ∃ b, s.fetchRom a = .ok b := by
  obtain ⟨v, hv⟩ := Option.isSome_iff_exists.1 h
  exact ⟨v.setWidth 8, State.fetchRom_ok.2 (by rw [hv, State.read_byte rfl hv])⟩

/-- The word of a written byte of the CPU ROM is a byte. -/
theorem State.byte_of_read_rom {s : State} {a : Nat} {v : Word} (h : s.read .cpurom a = some v) :
    ∃ b : Byte, v = b.setWidth 32 := ⟨v.setWidth 8, (State.read_byte rfl h).symm⟩

/-- The bytes of record n, in ascending order. -/
def State.recordBytes (s : State) (f : Format) (n : Nat) : Staged (List Byte) :=
  (List.range f.recBytes).mapM fun i => s.fetchRom (s.recAddr f n + i)

/-- The check of a record's bytes: in the 16:9 format no back porch is negative (R103). -/
def checkRecord (p : Params) (f : Format) (a : Nat) (bytes : List Byte) : Staged Unit :=
  match f with
  | .f43 => .ok ()
  | .f169 =>
    let rc := rawCentre169 (bytes.getD 0 0) (bytes.getD 1 0)
    require (0 ≤ back169 p rc .L ∧ 0 ≤ back169 p rc .C) (atElem .range Space.cpurom.id a)

/-- The entry of a record's bytes for a class (R101, R103). -/
def entryOf (p : Params) (f : Format) (bytes : List Byte) (cls : ScaleClass) : VectorEntry :=
  match f with
  | .f43 => scale43 (dec43 p (bytes.getD 0 0) (bytes.getD 1 0) (bytes.getD 2 0)) cls
  | .f169 => scale169 p (rawCentre169 (bytes.getD 0 0) (bytes.getD 1 0)) cls

/-- Record n: its bytes, read and checked. -/
def State.record (s : State) (f : Format) (n : Nat) : Staged (List Byte) := do
  let bytes ← s.recordBytes f n
  checkRecord s.params f (s.recAddr f n) bytes
  .ok bytes

/-- Slot n of both vector files takes the entries of a record's bytes. -/
def State.writeEntries (s : State) (f : Format) (n : Nat) (bytes : List Byte) : State :=
  (s.writeSlot .L n (entryOf s.params f bytes .L)).writeSlot .C n (entryOf s.params f bytes .C)

/-- The loop body of VDEC: a record, and a slot of both vector files. -/
theorem vdecAt_eq (f : Format) (n : Nat) (s : State) : vdecAt f n s = (do
    let bytes ← s.record f n
    .ok (s.writeEntries f n bytes)) := by
  have h3 : List.range 3 = [0, 1, 2] := rfl
  have h2 : List.range 2 = [0, 1] := rfl
  cases f with
  | f43 =>
    simp only [vdecAt, State.record, State.recordBytes, Format.recBytes, h3, List.mapM_cons, List.mapM_nil, bind_assoc,
      pure_bind]
    rfl
  | f169 =>
    simp only [vdecAt, State.record, State.recordBytes, Format.recBytes, h2, List.mapM_cons, List.mapM_nil, bind_assoc,
      pure_bind]
    rfl

/-- The format, the parameters and the bytes of the CPU ROM settle a record. -/
theorem State.record_congr {s u : State} {f : Format} {n : Nat} (hp : u.params = s.params) (hc : u.cfg = s.cfg)
    (hread : ∀ i, i < f.recBytes → u.read .cpurom (s.recAddr f n + i) = s.read .cpurom (s.recAddr f n + i)) :
    u.record f n = s.record f n := by
  have haddr : u.recAddr f n = s.recAddr f n := by rw [State.recAddr, State.recAddr, hc]
  have hbytes : u.recordBytes f n = s.recordBytes f n := mapM_congr fun i hi => by
    rw [haddr, State.fetchRom, State.fetchRom, State.fetch_congr (hread i (List.mem_range.1 hi))]
  rw [State.record, State.record, hbytes, haddr, hp]

/-! ## The slots of both vector files -/

section
variable (s : State) (f : Format) {n : Nat} (bytes : List Byte)

theorem State.writeEntries_memOnly : MemOnly s (s.writeEntries f n bytes) :=
  (MemOnly.writeSlot s .L n _).trans (MemOnly.writeSlot _ .C n _)

theorem State.writeEntries_frame :
    FrameOf (fun a => ScaleClass.slotRange .L n 1 a ∨ ScaleClass.slotRange .C n 1 a) s (s.writeEntries f n bytes) :=
  ((s.writeSlot_frame .L n _).mono fun _ => .inl).trans ((State.writeSlot_frame _ .C n _).mono fun _ => .inr)

variable (hp : s.params.wf) (hn : n < s.params.vecCap)
include hp hn

theorem State.read_writeEntries {S : Space} {k : Nat} (hk : k < S.size s.params) :
    (s.writeEntries f n bytes).read S k = s.read S k := by
  rw [State.writeEntries, State.read_writeSlot _ _ (by simpa using hp) (by simpa using hk) (by simpa using hn),
    State.read_writeSlot _ _ hp hk hn]

theorem State.readSlot_writeEntries_same (cls : ScaleClass) :
    (s.writeEntries f n bytes).readSlot cls n = some (entryOf s.params f bytes cls) := by
  cases cls with
  | L =>
    rw [State.writeEntries, State.readSlot_writeSlot_other _ _ (by simpa using hp) (by simpa using hn) (by simpa using hn)
      (.inl (by decide)), State.readSlot_writeSlot_same]
  | C => rw [State.writeEntries, State.readSlot_writeSlot_same]

theorem State.readSlot_writeEntries_other (cls : ScaleClass) {m : Nat} (hm : m < s.params.vecCap) (h : n ≠ m) :
    (s.writeEntries f n bytes).readSlot cls m = s.readSlot cls m := by
  rw [State.writeEntries, State.readSlot_writeSlot_other _ _ (by simpa using hp) (by simpa using hn) (by simpa using hm) (.inr h),
    State.readSlot_writeSlot_other _ _ hp hn hm (.inr h)]

end

/-! ## The loop (R108) -/

/-- A loop fails where its body fails, when the iterations before all answer a state. -/
theorem forRange_fails {body : Nat → State → Staged State} {i n k : Nat} {s : State} {e : Raised} (P : Nat → State → Prop)
    (h0 : P i s) (hstep : ∀ j u, i ≤ j → j < k → P j u → ∃ v, body j u = .ok v ∧ P (j + 1) v) (hik : i ≤ k)
    (hkn : k < i + n) (hfail : ∀ u, P k u → body k u = .error e) : forRange body i n s = .error e := by
  induction n generalizing i s with
  | zero => omega
  | succ n ih =>
    rw [forRange]
    rcases Nat.eq_or_lt_of_le hik with rfl | hlt
    · rw [hfail s h0]
    · obtain ⟨u, hu, hPu⟩ := hstep i s (Nat.le_refl i) hlt h0
      rw [hu]
      exact ih hPu (fun j v h1 h2 => hstep j v (by omega) h2) hlt (by omega)

/-- The loop of VDEC has decoded the records of the command's range below j: memory alone differs, in the slots of the range
only, the CPU ROM is as before, and each slot holds its record's entries. -/
structure VdecPrefix (s : State) (f : Format) (j : Nat) (u : State) : Prop where
  only : MemOnly s.staging u
  frame : FrameOf (fun a => slots .L s.x0 s.x1 a ∨ slots .C s.x0 s.x1 a) s u
  rom : ∀ k, k < s.params.cpuRomBytes → u.read .cpurom k = s.read .cpurom k
  slot : ∀ n cls bytes, InRange s n → n < j → s.record f n = .ok bytes →
    u.readSlot cls n = some (entryOf s.params f bytes cls)

theorem VdecPrefix.start (s : State) (f : Format) : VdecPrefix s f s.x0 s.staging where
  only := .refl _
  frame := FrameOf.refl _ _
  rom _ _ := rfl
  slot _ _ _ hn hlt := absurd hn.1 (Nat.not_le.2 hlt)

/-- R108's checks, as the machine makes them. -/
theorem vdecArgsOk_iff {s : State} {f : Format} (hf : s.format = .ok f) :
    VdecArgsOk s ↔ (s.x0 + s.x1 ≤ s.slotCount f ∧ s.x0 + s.x1 ≤ s.params.vecCap) ∧
      (s.x1 = 0 ∨ s.recAddr f (s.x0 + s.x1 - 1) + f.recBytes ≤ s.params.cpuRomBytes) := by
  have hzero : s.args.arg1 = 0 ↔ s.x1 = 0 := BitVec.toNat_inj.symm
  rw [VdecArgsOk, recAddr_of_format hf, recLen_of_format hf, hzero, and_assoc]
  rfl

/-- VDEC's pseudocode after the format. -/
theorem vdecBody_staging {s : State} {f : Format} (hf : s.format = .ok f) :
    bodyOf .vdec s.staging = (do
      require (s.x0 + s.x1 ≤ s.slotCount f ∧ s.x0 + s.x1 ≤ s.params.vecCap) (atReg .range .arg1)
      require (s.x1 = 0 ∨ s.recAddr f (s.x0 + s.x1 - 1) + f.recBytes ≤ s.params.cpuRomBytes) (atReg .range .vtStart)
      let t ← forRange (vdecAt f) s.x0 s.x1 s.staging
      .ok { t with result0 := s.args.arg1 }) := by
  have hf' : s.staging.format = .ok f := hf
  rw [bodyOf, vdecBody, hf']
  rfl

section
variable {s : State} {f : Format} (hp : s.params.wf) (hf : s.format = .ok f) (hargs : VdecArgsOk s)

section
include hf hargs

theorem vdecBody_of_argsOk :
    bodyOf .vdec s.staging = (do
      let t ← forRange (vdecAt f) s.x0 s.x1 s.staging
      .ok { t with result0 := s.args.arg1 }) := by
  obtain ⟨hslot, hregion⟩ := (vdecArgsOk_iff hf).1 hargs
  rw [vdecBody_staging hf, require_pos hslot, staged_ok_bind, require_pos hregion, staged_ok_bind]

/-- The slots of the command's range exist, and its records lie in the CPU ROM. -/
theorem vdec_bounds {n : Nat} (hn : InRange s n) :
    n < s.params.vecCap ∧ s.recAddr f n + f.recBytes ≤ s.params.cpuRomBytes := by
  obtain ⟨⟨-, hcap⟩, hregion⟩ := (vdecArgsOk_iff hf).1 hargs
  obtain ⟨h1, h2⟩ : s.x0 ≤ n ∧ n < s.x0 + s.x1 := hn
  have hmono : n * f.recBytes ≤ (s.x0 + s.x1 - 1) * f.recBytes := Nat.mul_le_mul_right _ (by omega)
  unfold State.recAddr at hregion ⊢
  omega

/-- The writes of the loop do not change what a record is. -/
theorem VdecPrefix.record {j n : Nat} {u : State} (h : VdecPrefix s f j u) (hn : InRange s n) : u.record f n = s.record f n := by
  obtain ⟨-, hregion⟩ := vdec_bounds hf hargs hn
  refine State.record_congr ?_ ?_ fun i hi => h.rom _ (by omega)
  · rw [h.only]; rfl
  · rw [h.only]; rfl

end

include hp hf hargs

/-- An iteration that answers a state has decoded one more record. -/
theorem VdecPrefix.step {j : Nat} {u v : State} (h : VdecPrefix s f j u) (hj : InRange s j) (hv : vdecAt f j u = .ok v) :
    VdecPrefix s f (j + 1) v ∧ ∃ bytes, s.record f j = .ok bytes := by
  obtain ⟨hcap, -⟩ := vdec_bounds hf hargs hj
  have hparams : u.params = s.params := by rw [h.only]; rfl
  rw [vdecAt_eq, h.record hf hargs hj, staged_bind_ok] at hv
  obtain ⟨bytes, hbytes, hv⟩ := hv
  obtain rfl := Except.ok.inj hv
  rw [← hparams] at hp hcap
  refine ⟨⟨h.only.trans (u.writeEntries_memOnly f bytes), h.frame.trans ((u.writeEntries_frame f bytes).mono fun a ha => ?_),
    fun k hk => ?_, fun n cls bytes' hn hlt hrec => ?_⟩, bytes, hbytes⟩
  · obtain ⟨h1, h2⟩ := hj
    exact ha.imp (ScaleClass.slotRange_mono h1 h2 a) (ScaleClass.slotRange_mono h1 h2 a)
  · rw [u.read_writeEntries f bytes hp hcap (hparams ▸ hk), h.rom k hk]
  · rcases Nat.eq_or_lt_of_le (Nat.le_of_lt_succ hlt) with rfl | hlt
    · obtain rfl := Except.ok.inj (hbytes.symm.trans hrec)
      rw [u.readSlot_writeEntries_same f bytes hp hcap, hparams]
    · rw [u.readSlot_writeEntries_other f bytes hp hcap cls (by omega) (by omega), h.slot n cls bytes' hn hlt hrec]

theorem VdecPrefix.next {j : Nat} {u : State} (h : VdecPrefix s f j u) (hj : InRange s j)
    (hrec : ∃ bytes, s.record f j = .ok bytes) : ∃ v, vdecAt f j u = .ok v ∧ VdecPrefix s f (j + 1) v := by
  obtain ⟨bytes, hbytes⟩ := hrec
  have hv : vdecAt f j u = .ok (u.writeEntries f j bytes) := by
    rw [vdecAt_eq, h.record hf hargs hj, hbytes, staged_ok_bind]
  exact ⟨_, hv, (h.step hp hf hargs hj hv).1⟩

/-- VDEC of records that can all be decoded: the slots hold the entries, and nothing else changes. -/
theorem vdec_completes (hrec : ∀ n, InRange s n → ∃ bytes, s.record f n = .ok bytes) :
    ∃ t, exec .vdec s = .next t ∧ Committed s t s.args.arg1 ∧ t.cfg = s.cfg ∧ t.frags = s.frags ∧
      (∀ n cls bytes, InRange s n → s.record f n = .ok bytes → t.readSlot cls n = some (entryOf s.params f bytes cls)) ∧
      SameOutside s t (fun x => slots .L s.args.arg0.toNat s.args.arg1.toNat x ∨
        slots .C s.args.arg0.toNat s.args.arg1.toNat x) := by
  obtain ⟨u, hu, hend⟩ := forRange_completes (body := vdecAt f) (n := s.x1) (VdecPrefix s f) (VdecPrefix.start s f)
    fun j v h1 h2 hv => hv.next hp hf hargs ⟨h1, h2⟩ (hrec j ⟨h1, h2⟩)
  have hrun : bodyOf .vdec s.staging = .ok { u with result0 := s.args.arg1 } := by
    rw [vdecBody_of_argsOk hf hargs, hu, staged_ok_bind]
  have hchange : ({ u with result0 := s.args.arg1 } : State) = { s with mem := u.mem, result0 := s.args.arg1 } := by
    rw [hend.only]; rfl
  obtain ⟨hcommitted, hcfg, hfrags⟩ := committed_of_mem_result0 hchange
  exact ⟨_, exec_ok hrun, hcommitted, hcfg, hfrags, fun n cls bytes hn => hend.slot n cls bytes hn hn.2, hend.frame⟩

/-- VDEC faults at the first record that cannot be decoded. -/
theorem vdec_faults_at {n : Nat} {e : Raised} (hn : InRange s n)
    (hbefore : ∀ m, InRange s m → m < n → ∃ bytes, s.record f m = .ok bytes) (he : s.record f n = .error e) :
    exec .vdec s = .next (s.takeFault e) := by
  refine exec_error ?_
  have hrange : ∀ {j}, s.x0 ≤ j → j < n → InRange s j := fun h1 h2 => ⟨h1, Nat.lt_trans h2 hn.2⟩
  rw [vdecBody_of_argsOk hf hargs, forRange_fails (n := s.x1) (VdecPrefix s f) (VdecPrefix.start s f)
    (fun j u h1 h2 hu => hu.next hp hf hargs (hrange h1 h2) (hbefore j (hrange h1 h2) h2)) hn.1 hn.2 fun u hu => ?_,
    staged_error_bind]
  rw [vdecAt_eq, hu.record hf hargs hn, he, staged_error_bind]

end

/-- A VDEC that commits has passed its checks and decoded every record of its range. -/
theorem vdec_committed {s t : State} {f : Format} (hp : s.params.wf) (hf : s.format = .ok f) (ht : exec .vdec s = .next t)
    (herr : t.status.err = false) : VdecArgsOk s ∧ ∀ n, InRange s n → ∃ bytes, s.record f n = .ok bytes := by
  obtain ⟨u, hu, -⟩ := exec_body_of_not_err ht herr
  simp only [vdecBody_staging hf, staged_bind_ok, require_ok] at hu
  obtain ⟨_, hslot, _, hregion, v, hv, -⟩ := hu
  have hargs := (vdecArgsOk_iff hf).2 ⟨hslot, hregion⟩
  obtain ⟨-, hall⟩ := forRange_ok
    (fun j u => VdecPrefix s f j u ∧ ∀ n, InRange s n → n < j → ∃ bytes, s.record f n = .ok bytes) hv
    ⟨.start s f, fun n hn hlt => absurd hn.1 (Nat.not_le.2 hlt)⟩ fun j u v h1 h2 ⟨hu, hrec⟩ hv => by
      obtain ⟨hnext, hbytes⟩ := hu.step hp hf hargs ⟨h1, h2⟩ hv
      refine ⟨hnext, fun n hn hlt => ?_⟩
      rcases Nat.eq_or_lt_of_le (Nat.le_of_lt_succ hlt) with rfl | hlt
      · exact hbytes
      · exact hrec n hn hlt
  exact ⟨hargs, fun n hn => hall n hn hn.2⟩

/-! ## Records by their bytes -/

theorem entry43_eq (p : Params) (cls : ScaleClass) (x y z : Byte) :
    entryOf p .f43 [x, y, z] cls = entry43 p cls (x.setWidth 32) (y.setWidth 32) (z.setWidth 32) := by
  have hseq : (x.setWidth 2 : BitVec 2).toNat = x.toNat % 4 := BitVec.toNat_setWidth ..
  have hdec := dec43_eq p x y z _ rfl
  rw [hseq] at hdec
  simp only [entryOf, List.getD_cons_zero, List.getD_cons_succ, hdec, scale43, ScaleClass.rpc_eq, entry43, toNat_byte_word]

section
variable {s : State} {n : Nat}

theorem State.recordBytes_ok {f : Format} {bytes : List Byte} (hlen : bytes.length = f.recBytes)
    (hread : ∀ i (hi : i < bytes.length), s.read .cpurom (s.recAddr f n + i) = some (bytes[i].setWidth 32)) :
    s.recordBytes f n = .ok bytes := by
  have hbytes : (List.range f.recBytes).map (fun i => bytes.getD i 0) = bytes := by
    refine List.ext_getElem (by simp [hlen]) fun i h1 h2 => ?_
    simp [h2]
  rw [State.recordBytes, mapM_ok (v := fun i => bytes.getD i 0) fun i hi => ?_, hbytes]
  have hi : i < bytes.length := hlen ▸ List.mem_range.1 hi
  rw [State.fetchRom_ok, hread i hi, List.getD_eq_getElem _ _ hi]

theorem State.record43_ok {x y z : Byte} (hx : s.read .cpurom (s.recAddr .f43 n) = some (x.setWidth 32))
    (hy : s.read .cpurom (s.recAddr .f43 n + 1) = some (y.setWidth 32))
    (hz : s.read .cpurom (s.recAddr .f43 n + 2) = some (z.setWidth 32)) : s.record .f43 n = .ok [x, y, z] := by
  have hbytes : s.recordBytes .f43 n = .ok [x, y, z] := State.recordBytes_ok rfl fun i hi => by
    simp only [List.length_cons, List.length_nil] at hi
    interval_cases i
    · exact hx
    · exact hy
    · exact hz
  rw [State.record, hbytes, staged_ok_bind, checkRecord, staged_ok_bind]

theorem State.recordBytes169_ok {x y : Byte} (hx : s.read .cpurom (s.recAddr .f169 n) = some (x.setWidth 32))
    (hy : s.read .cpurom (s.recAddr .f169 n + 1) = some (y.setWidth 32)) : s.recordBytes .f169 n = .ok [x, y] :=
  State.recordBytes_ok rfl fun i hi => by
    simp only [List.length_cons, List.length_nil] at hi
    interval_cases i
    · exact hx
    · exact hy

/-- The check of a 16:9 record, in terms of R103's formula. -/
theorem checkRecord169 (p : Params) (a : Nat) (x y : Byte) :
    checkRecord p .f169 a [x, y] =
      require (0 ≤ porch169 p .L (centre169 (x.setWidth 32) (y.setWidth 32)) ∧
        0 ≤ porch169 p .C (centre169 (x.setWidth 32) (y.setWidth 32))) (atElem .range Space.cpurom.id a) := by
  simp only [checkRecord, List.getD_cons_zero, List.getD_cons_succ, rawCentre169_eq, back169_eq]

theorem State.record169_ok {x y : Byte} (hx : s.read .cpurom (s.recAddr .f169 n) = some (x.setWidth 32))
    (hy : s.read .cpurom (s.recAddr .f169 n + 1) = some (y.setWidth 32))
    (hporch : ∀ cls, 0 ≤ porch169 s.params cls (centre169 (x.setWidth 32) (y.setWidth 32))) :
    s.record .f169 n = .ok [x, y] := by
  rw [State.record, State.recordBytes169_ok hx hy, staged_ok_bind, checkRecord169, require_pos ⟨hporch .L, hporch .C⟩,
    staged_ok_bind]

/-- A negative back porch is found at the record. -/
theorem State.record169_error {x y : Byte} {cls : ScaleClass}
    (hx : s.read .cpurom (s.recAddr .f169 n) = some (x.setWidth 32))
    (hy : s.read .cpurom (s.recAddr .f169 n + 1) = some (y.setWidth 32))
    (hporch : porch169 s.params cls (centre169 (x.setWidth 32) (y.setWidth 32)) < 0) :
    s.record .f169 n = .error (atElem .range Space.cpurom.id (s.recAddr .f169 n)) := by
  have hneg : ¬(0 ≤ porch169 s.params .L (centre169 (x.setWidth 32) (y.setWidth 32)) ∧
      0 ≤ porch169 s.params .C (centre169 (x.setWidth 32) (y.setWidth 32))) := fun ⟨hL, hC⟩ => by
    cases cls with
    | L => exact Int.not_le.2 hporch hL
    | C => exact Int.not_le.2 hporch hC
  rw [State.record, State.recordBytes169_ok hx hy, staged_ok_bind, checkRecord169, require_neg hneg, staged_error_bind]

/-- A record's first unwritten byte faults. -/
theorem State.record_unwritten {f : Format} {b : Nat} (hb : b < f.recBytes)
    (hbefore : ∀ d, d < b → (s.read .cpurom (s.recAddr f n + d)).isSome) (hnone : s.read .cpurom (s.recAddr f n + b) = none) :
    s.record f n = .error (atElem .unwritten Space.cpurom.id (s.recAddr f n + b)) := by
  have hfirst : ∀ d ∈ List.range' 0 (b - 0), ∃ v, s.fetchRom (s.recAddr f n + d) = .ok v := fun d hd =>
    State.fetchRom_written (hbefore d (by have := List.mem_range'_1.1 hd; omega))
  have hsplit := range'_eq_append_cons (n := f.recBytes) (Nat.zero_le b) (by omega)
  rw [State.record, State.recordBytes, List.range_eq_range', hsplit, mapM_error hfirst (State.fetchRom_unwritten hnone),
    staged_error_bind]

/-- A record whose bytes are written, and in the 16:9 format with no back porch negative, is decoded. -/
theorem State.record_of_written {f : Format} (hw : ∀ b, b < f.recBytes → (s.read .cpurom (s.recAddr f n + b)).isSome)
    (hporch : f = .f169 → ∀ high control cls, s.read .cpurom (s.recAddr f n) = some high →
      s.read .cpurom (s.recAddr f n + 1) = some control → 0 ≤ porch169 s.params cls (centre169 high control)) :
    ∃ bytes, s.record f n = .ok bytes := by
  have hbyte : ∀ b, b < f.recBytes → ∃ x : Byte, s.read .cpurom (s.recAddr f n + b) = some (x.setWidth 32) := fun b hb => by
    obtain ⟨x, hx⟩ := State.fetchRom_written (hw b hb)
    exact ⟨x, State.fetchRom_ok.1 hx⟩
  cases f with
  | f43 =>
    obtain ⟨x, hx⟩ := hbyte 0 (by decide)
    obtain ⟨y, hy⟩ := hbyte 1 (by decide)
    obtain ⟨z, hz⟩ := hbyte 2 (by decide)
    exact ⟨_, State.record43_ok hx hy hz⟩
  | f169 =>
    obtain ⟨x, hx⟩ := hbyte 0 (by decide)
    obtain ⟨y, hy⟩ := hbyte 1 (by decide)
    exact ⟨_, State.record169_ok hx hy fun cls => hporch rfl _ _ cls hx hy⟩

end

/-- The values of a 16:9 entry fit their words. -/
theorem scale169_values {p : Params} {rc : Nat} {cls : ScaleClass} (hrc : rc ≤ 0x7FF00) (h : 0 ≤ back169 p rc cls) :
    ((scale169 p rc cls).back.toNat : Int) = back169 p rc cls ∧ (scale169 p rc cls).centre.toNat = rc * cls.rpc := by
  have hback : (back169 p rc cls).toNat ≤ rc * cls.rpc := by
    unfold back169 at h ⊢
    cases cls <;> cases p.bp169Mode <;> simp only [ScaleClass.rpc, ScaleClass.off] at h ⊢ <;> omega
  have hcentre : rc * cls.rpc ≤ 0x7FF00 * 4 := Nat.mul_le_mul hrc (by cases cls <;> decide)
  simp only [scale169]
  rw [toNat_ofNat_small (by omega), toNat_ofNat_small (by omega)]
  exact ⟨Int.toNat_of_nonneg h, rfl⟩

/-- The entry of a 16:9 record in plain arithmetic. -/
theorem entryOf169 {p : Params} {cls : ScaleClass} {x y : Byte}
    (h : 0 ≤ porch169 p cls (centre169 (x.setWidth 32) (y.setWidth 32))) :
    ((entryOf p .f169 [x, y] cls).back.toNat : Int) = porch169 p cls (centre169 (x.setWidth 32) (y.setWidth 32)) ∧
      (entryOf p .f169 [x, y] cls).centre.toNat = centre169 (x.setWidth 32) (y.setWidth 32) * rpcOf cls := by
  obtain ⟨-, hle⟩ := rawCentre169_range x y
  rw [← rawCentre169_eq, ← back169_eq] at h ⊢
  rw [← ScaleClass.rpc_eq]
  exact scale169_values hle h

/-! ## The statements -/

/-- Settles O26: every record is decoded, and its entries are those of R100 and R101. -/
theorem vdecFourThreeCompletes : Obligations.VdecFourThreeCompletes := by
  intro s hp h43 hargs hw
  have hf := s.format_of_is43 h43
  simp only [recAddr_of_format hf] at hw ⊢
  obtain ⟨t, ht, hcommitted, hcfg, hfrags, hslot, hframe⟩ :=
    vdec_completes hp hf hargs fun n hn => State.record_of_written (hw n hn) fun h => by cases h
  refine ⟨t, ht, hcommitted, hcfg, hfrags, fun n seq a b hn hseq ha hb => ?_, hframe⟩
  obtain ⟨x, rfl⟩ := State.byte_of_read_rom hseq
  obtain ⟨y, rfl⟩ := State.byte_of_read_rom ha
  obtain ⟨z, rfl⟩ := State.byte_of_read_rom hb
  have hrec := State.record43_ok hseq ha hb
  rw [← entry43_eq, ← entry43_eq]
  exact ⟨hslot n .L _ hn hrec, hslot n .C _ hn hrec⟩

/-- Settles O27: every record is decoded, and its entries are those of R102 and R103. -/
theorem vdecSixteenNineCompletes : Obligations.VdecSixteenNineCompletes := by
  intro s hp h169 hargs hw
  have hf := s.format_of_169 h169
  simp only [recAddr_of_format hf] at hw ⊢
  have hporch : ∀ {n high control}, InRange s n → s.read .cpurom (s.recAddr .f169 n) = some high →
      s.read .cpurom (s.recAddr .f169 n + 1) = some control → ∀ cls, 0 ≤ porch169 s.params cls (centre169 high control) :=
    fun hn hhigh hcontrol => by
      obtain ⟨_, _, h1, h2, h⟩ := hw _ hn
      obtain rfl := Option.some.inj (h1.symm.trans hhigh)
      obtain rfl := Option.some.inj (h2.symm.trans hcontrol)
      exact h
  have hrecord : ∀ {n high control}, InRange s n → s.read .cpurom (s.recAddr .f169 n) = some high →
      s.read .cpurom (s.recAddr .f169 n + 1) = some control → ∃ x y : Byte, high = x.setWidth 32 ∧
      control = y.setWidth 32 ∧ s.record .f169 n = .ok [x, y] := fun hn hhigh hcontrol => by
    obtain ⟨x, rfl⟩ := State.byte_of_read_rom hhigh
    obtain ⟨y, rfl⟩ := State.byte_of_read_rom hcontrol
    exact ⟨x, y, rfl, rfl, State.record169_ok hhigh hcontrol (hporch hn hhigh hcontrol)⟩
  obtain ⟨t, ht, hcommitted, hcfg, hfrags, hslot, hframe⟩ := vdec_completes hp hf hargs fun n hn => by
    obtain ⟨_, _, hhigh, hcontrol, -⟩ := hw n hn
    obtain ⟨x, y, -, -, hrec⟩ := hrecord hn hhigh hcontrol
    exact ⟨_, hrec⟩
  refine ⟨t, ht, hcommitted, hcfg, hfrags, fun n high control cls hn hhigh hcontrol => ?_, hframe⟩
  have hpos := hporch hn hhigh hcontrol cls
  obtain ⟨x, y, rfl, rfl, hrec⟩ := hrecord hn hhigh hcontrol
  obtain ⟨hback, hcentre⟩ := entryOf169 hpos
  exact ⟨_, hslot n cls _ hn hrec, hback, hcentre, rfl, rfl⟩

/-- Settles O28: the two range checks, after the Standard. -/
theorem vdecArgumentFaults : Obligations.VdecArgumentFaults := by
  intro s hstd
  obtain ⟨f, hf⟩ := s.exists_format hstd
  simp only [recLen_of_format hf, recAddr_of_format hf]
  refine ⟨fun h => exec_error (f := atReg .range .arg1) ?_, fun h1 h2 h0 h => exec_error (f := atReg .range .vtStart) ?_⟩
  · have hslot : ¬(s.x0 + s.x1 ≤ s.slotCount f ∧ s.x0 + s.x1 ≤ s.params.vecCap) := fun ⟨h1, h2⟩ =>
      h.elim (Nat.not_lt.2 h1) (Nat.not_lt.2 h2)
    rw [vdecBody_staging hf, require_neg hslot, staged_error_bind]
  · have hslot : s.x0 + s.x1 ≤ s.slotCount f ∧ s.x0 + s.x1 ≤ s.params.vecCap := ⟨h1, h2⟩
    have hregion : ¬(s.x1 = 0 ∨ s.recAddr f (s.x0 + s.x1 - 1) + f.recBytes ≤ s.params.cpuRomBytes) := fun h' =>
      h'.elim (fun h' => h0 (BitVec.eq_of_toNat_eq h')) (Nat.not_le.2 h)
    rw [vdecBody_staging hf, require_pos hslot, staged_ok_bind, require_neg hregion, staged_error_bind]

/-- Settles O29: the records before are decoded, and the loop ends with the fault of the first that is not. -/
theorem vdecRecordFaults : Obligations.VdecRecordFaults := by
  intro s n hp hstd hargs hn hbefore
  obtain ⟨f, hf⟩ := s.exists_format hstd
  simp only [recLen_of_format hf, recAddr_of_format hf] at hbefore ⊢
  have hfault {e} := @vdec_faults_at s f hp hf hargs n e hn fun m hm hlt => by
    obtain ⟨hw, hporch⟩ := hbefore m hm hlt
    refine State.record_of_written hw fun h => hporch ?_
    rcases s.format_cases hf with ⟨rfl, -⟩ | ⟨-, h169⟩
    · cases h
    · exact h169
  refine ⟨fun b hb hwritten hnone => hfault (State.record_unwritten hb hwritten hnone),
    fun high control cls h169 hhigh hcontrol hneg => ?_⟩
  obtain rfl : f = .f169 := Except.ok.inj (hf.symm.trans (s.format_of_169 h169))
  obtain ⟨x, rfl⟩ := State.byte_of_read_rom hhigh
  obtain ⟨y, rfl⟩ := State.byte_of_read_rom hcontrol
  exact hfault (State.record169_error hhigh hcontrol hneg)

/-- The record of the entry in ARG1 to ARG3 decodes to the entry (R107 (a)). -/
theorem entryOf_argRecord {s : State} {f : Format} {cls : ScaleClass} {bytes : List Byte}
    (h : s.argRecord f cls = .ok bytes) :
    entryOf s.params f bytes cls =
      { back := s.args.arg1, centre := s.args.arg2, front := s.args.arg3, hasFront := f.hasFront } := by
  have harg : ∀ w : Word, BitVec.ofNat 32 w.toNat = w := fun w => by simp
  have hlen := encodeEntry_length h
  cases f with
  | f43 =>
    obtain ⟨x, y, z, rfl⟩ := List.length_eq_three.1 hlen
    refine (scale43_dec43_of_enc43 h).trans ?_
    simp only [State.x1, State.x2, State.x3, harg, Format.hasFront]
  | f169 =>
    obtain ⟨x, y, rfl⟩ := List.length_eq_two.1 hlen
    refine (scale169_rawCentre169_of_enc169 h).2.trans ?_
    simp only [State.x1, State.x2, State.x3, harg, Format.hasFront]

theorem State.hasFront_of_format {s : State} {f : Format} (h : s.format = .ok f) : f.hasFront = (s.cfg.std != 1) := by
  rcases s.format_cases h with ⟨rfl, h1⟩ | ⟨rfl, h1⟩
  · exact (bne_iff_ne.2 h1).symm
  · rw [h1]
    rfl

/-- A record that is decoded is its bytes. -/
theorem State.recordBytes_of_record {s : State} {f : Format} {n : Nat} {bytes : List Byte} (h : s.record f n = .ok bytes) :
    s.recordBytes f n = .ok bytes := by
  simp only [State.record, staged_bind_ok, Except.ok.injEq] at h
  obtain ⟨_, hbytes, _, -, rfl⟩ := h
  exact hbytes

/-- A VDEC that commits puts the entries of the bytes in the CPU ROM into the slots. -/
theorem vdec_slot_of_bytes {s t : State} {f : Format} {n : Nat} {bytes : List Byte} (hp : s.params.wf)
    (hf : s.format = .ok f) (ht : exec .vdec s = .next t) (herr : t.status.err = false) (hn : InRange s n)
    (hlen : bytes.length = f.recBytes)
    (hread : ∀ i (hi : i < bytes.length), s.read .cpurom (recAddr s n + i) = some (bytes[i].setWidth 32)) (cls : ScaleClass) :
    t.readSlot cls n = some (entryOf s.params f bytes cls) := by
  rw [recAddr_of_format hf] at hread
  obtain ⟨hargs, hrec⟩ := vdec_committed hp hf ht herr
  obtain ⟨t', ht', -, -, -, hslot, -⟩ := vdec_completes hp hf hargs hrec
  obtain rfl : t = t' := by injection ht.symm.trans ht'
  obtain ⟨bytes', hbytes'⟩ := hrec n hn
  obtain rfl := Except.ok.inj ((State.recordBytes_of_record hbytes').symm.trans (State.recordBytes_ok hlen hread))
  exact hslot n cls _ hn hbytes'

/-- Settles O35: VDEC reads the record that VENC wrote, which decodes to VENC's entry. -/
theorem vencThenVdecGivesEntry : Obligations.VencThenVdecGivesEntry := by
  intro s c k t u hp hk ht hterr hu huerr
  obtain ⟨f, bytes, hf, hargs, hrec⟩ := venc_committed hk ht hterr
  obtain ⟨t', ht', ⟨-, -, hparams, hargs', -⟩, hcfg, -, hread, -⟩ := venc_completes hk hf hargs hrec
  obtain rfl : t = t' := by injection ht.symm.trans ht'
  have hft : t.format = .ok f := by rw [State.format_ok, hcfg, ← State.format_ok, hf]
  have haddr : recAddr t s.args.arg0.toNat = recAddr s s.args.arg0.toNat := by
    rw [recAddr, recAddr, recLen, recLen, hcfg]
  have hn : InRange { t with args := { t.args with arg1 := 1 } } s.args.arg0.toNat := by
    rw [← hargs']
    exact ⟨Nat.le_refl _, Nat.lt_succ_self _⟩
  rw [← haddr] at hread
  have hslot := vdec_slot_of_bytes (s := { t with args := { t.args with arg1 := 1 } }) (hparams ▸ hp) hft hu huerr hn
    (encodeEntry_length hrec) hread k.cls
  rw [hslot, hparams, entryOf_argRecord hrec, s.hasFront_of_format hf]

end Sys2Proof.Machine
end

section
/-! Proofs of the statements of 42_raster_assembler.md, part 1: the Standard's format and the geometry in the terms of the
statements, and STITCH_GEN, O36 and O37. -/

namespace Sys2Proof.Machine

open Sys2Proof.Claims

/-! ## The geometry (R111, R112, R118) -/

theorem Component.rpc_eq (c : Component) : c.rpc = rpcOf c.cls := c.cls.rpc_eq

section
variable {s : State} {f : Format} (hf : s.format = .ok f)

theorem bpls_eq (s : State) (c : Component) : bpls s c = s.bpl c := by rw [bpls, State.bpl, c.rpc_eq]

theorem cls'_eq (s : State) (c : Component) : cls' s c = s.cl c := by rw [cls', State.cl, c.rpc_eq]

include hf

/-- FPLs(c): GEOM_FPL counts under a 4:3 Standard only. -/
theorem fpls_of_format (c : Component) : fpls s c = s.fpl f c := by
  rcases s.format_cases hf with ⟨rfl, h1⟩ | ⟨rfl, h1⟩
  · rw [fpls, if_neg h1, State.fpl, c.rpc_eq]
  · exact if_pos h1

theorem width_of_format (c : Component) : width s c = s.lineWidth f c := by
  rw [width, bpls_eq, cls'_eq, fpls_of_format hf, State.lineWidth]

theorem stitchOf_of_format (t : Nat) : stitchOf s t = s.stitchSlot f t := by
  rcases s.format_cases hf with ⟨rfl, h1⟩ | ⟨rfl, h1⟩
  · exact if_neg h1
  · exact if_pos h1

theorem agrees_iff {e : VectorEntry} : Agrees s e ↔ e.hasFront = f.hasFront := by
  rw [Agrees, s.hasFront_of_format hf]

end

theorem capOf_eq (s : State) (c : Component) : capOf s c = rasterCap s.params c := by cases c <;> rfl

/-! ## STITCH_GEN's loop (R119) -/

theorem MemOnly.write (s : State) (S : Space) (k : Nat) (v : Word) : MemOnly s (s.write S k v) := rfl

/-- The loop of STITCH_GEN has written entries 0 to j-1, and nothing else. -/
structure StitchPrefix (s : State) (j : Nat) (u : State) : Prop where
  only : MemOnly s.staging u
  frame : FrameOf (Space.stitch.range 0 j) s u
  entry : ∀ t, t < j → u.read .stitch t = some (BitVec.ofNat 32 (stitchOf s t))

theorem StitchPrefix.start (s : State) : StitchPrefix s 0 s.staging where
  only := .refl _
  frame := FrameOf.refl _ _
  entry _ ht := absurd ht (Nat.not_lt_zero _)

/-- The loop body, in a state whose configuration is the command's. -/
theorem stitchGenAt_eq {s u : State} {f : Format} (hf : s.format = .ok f) (hu : MemOnly s.staging u) (j : Nat) :
    stitchGenAt f j u = (do
      require (stitchOf s j ≤ 0xFFFFF) (atReg .range .arg0)
      .ok (u.write .stitch j (BitVec.ofNat 32 (stitchOf s j)))) := by
  have hslot : u.stitchSlot f j = stitchOf s j := by rw [stitchOf_of_format hf, hu]; rfl
  rw [stitchGenAt, hslot]

theorem StitchPrefix.next {s u : State} {f : Format} {j : Nat} (h : StitchPrefix s j u) (hf : s.format = .ok f)
    (hp : s.params.wf) (hj : j < s.params.stitchCap) (hslot : stitchOf s j ≤ 0xFFFFF) :
    ∃ v, stitchGenAt f j u = .ok v ∧ StitchPrefix s (j + 1) v := by
  have hparams : u.params = s.params := by rw [h.only]; rfl
  refine ⟨_, by rw [stitchGenAt_eq hf h.only, require_pos hslot, staged_ok_bind], h.only.trans (.write ..), ?_,
    fun t ht => ?_⟩
  · exact (h.frame.mono (Space.range_mono (Nat.le_refl 0) (by omega))).trans
      ((u.write_frame .stitch j _).mono (Space.range_mono (Nat.zero_le j) (by omega)))
  · rcases Nat.eq_or_lt_of_le (Nat.le_of_lt_succ ht) with rfl | hlt
    · exact u.read_write_fits t (BitVec.isLt _)
    · have hother := u.read_write_other (S := .stitch) (T := .stitch) (BitVec.ofNat 32 (stitchOf s j)) (hparams ▸ hp)
        (k := j) (j := t) (hparams ▸ hj) (hparams ▸ Nat.lt_trans hlt hj) (.inr (Nat.ne_of_gt hlt))
      rw [hother, h.entry t hlt]

section
variable {s : State} {f : Format} (hf : s.format = .ok f)
include hf

/-- STITCH_GEN's pseudocode after the format. -/
theorem stitchGenBody_staging :
    bodyOf .stitchGen s.staging = (do
      require (s.x0 ≤ s.params.stitchCap) (atReg .range .arg0)
      let t ← forRange (stitchGenAt f) 0 s.x0 s.staging
      .ok { t with cfg := { t.cfg with stitchLen := s.args.arg0.setWidth 23 } }) := by
  have hf' : s.staging.format = .ok f := hf
  rw [bodyOf, stitchGenBody, hf']
  rfl

/-- The loop raises at its first slot index above 20 bits. -/
theorem stitchGen_loop_fails (h : ∃ t, t < s.x0 ∧ 0xFFFFF < stitchOf s t) :
    forRange (stitchGenAt f) 0 s.x0 s.staging = .error (atReg .range .arg0) := by
  obtain ⟨hlt, hbad⟩ := Nat.find_spec h
  have hbefore : ∀ j, j < Nat.find h → stitchOf s j ≤ 0xFFFFF := fun j hj =>
    Nat.le_of_not_lt fun hj' => Nat.find_min h hj ⟨Nat.lt_trans hj hlt, hj'⟩
  refine forRange_fails (k := Nat.find h) (fun _ u => MemOnly s.staging u) (.refl _) (fun j u _ hj hu => ?_) (Nat.zero_le _)
    (by omega) fun u hu => ?_
  · rw [stitchGenAt_eq hf hu, require_pos (hbefore j hj), staged_ok_bind]
    exact ⟨_, rfl, hu.trans (.write ..)⟩
  · rw [stitchGenAt_eq hf hu, require_neg (Nat.not_le.2 hbad), staged_error_bind]

end

/-- Settles O36: each iteration writes one entry, and the entries lie apart. -/
theorem stitchGenCompletes : Obligations.StitchGenCompletes := by
  intro s hp hstd (hcap : s.x0 ≤ s.params.stitchCap) (hslots : ∀ t, t < s.x0 → stitchOf s t ≤ 0xFFFFF)
  obtain ⟨f, hf⟩ := s.exists_format hstd
  obtain ⟨u, hu, hend⟩ := forRange_completes (body := stitchGenAt f) (i := 0) (n := s.x0) (StitchPrefix s) (.start s)
    fun j v _ hj hv => hv.next hf hp (by omega) (hslots j (by omega))
  rw [Nat.zero_add] at hend
  obtain ⟨honly, hframe, hentry⟩ := hend
  have hlen : (s.args.arg0.setWidth 23 : BitVec 23).toNat = s.x0 := by
    obtain ⟨-, ⟨-, hmax⟩, -⟩ := hp
    exact (BitVec.toNat_setWidth ..).trans (Nat.mod_eq_of_lt (hcap.trans_lt (by omega)))
  refine ⟨_, exec_ok (i := .stitchGen)
    (t := { u with cfg := { u.cfg with stitchLen := s.args.arg0.setWidth 23 } }) ?_, ?_⟩
  · rw [stitchGenBody_staging hf, require_pos hcap, staged_ok_bind, hu, staged_ok_bind]
  · rw [honly]
    exact ⟨⟨rfl, rfl, rfl, rfl, rfl, rfl, rfl, rfl, rfl⟩, rfl, rfl, hlen, hentry, hframe⟩

/-- Settles O37: the check of M comes first, and the loop raises the same fault. -/
theorem stitchGenFaults : Obligations.StitchGenFaults := by
  intro s hstd h
  obtain ⟨f, hf⟩ := s.exists_format hstd
  refine exec_error (f := atReg .range .arg0) ?_
  rw [stitchGenBody_staging hf]
  by_cases hcap : s.x0 ≤ s.params.stitchCap
  · rw [require_pos hcap, staged_ok_bind, stitchGen_loop_fails hf (h.resolve_left (Nat.not_lt.2 hcap)), staged_error_bind]
  · rw [require_neg hcap, staged_error_bind]

end Sys2Proof.Machine
end

section
/-! Proofs of the statements of 42_raster_assembler.md, part 2: line assembly (R113 to R116). A segment is checked, copied and
recorded; what it does depends on the parameters, on the plane, and on the fragments recorded so far (`Assembled`). -/

namespace Sys2Proof.Machine

open Sys2Proof.Claims

/-! ## Keys that are new to the map (R116) -/

/-- The distinct keys of a list that the map does not hold. -/
theorem newKeys_eq_card (s : State) (keys : List FragKey) :
    newKeys s keys = (keys.filter fun k => !s.hasFrag k).toFinset.card := (List.card_toFinset _).symm

theorem newKeys_append_known {s : State} {keys : List FragKey} {k : FragKey} (h : s.hasFrag k = true ∨ k ∈ keys) :
    newKeys s (keys ++ [k]) = newKeys s keys := by
  simp only [newKeys_eq_card]
  congr 1
  ext k'
  simp only [List.mem_toFinset, List.mem_filter, List.mem_append, List.mem_singleton]
  constructor
  · rintro ⟨hk | rfl, hnew⟩
    · exact ⟨hk, hnew⟩
    · exact ⟨h.resolve_left (by simpa using hnew), hnew⟩
  · exact fun ⟨hk, hnew⟩ => ⟨.inl hk, hnew⟩

theorem newKeys_append_new {s : State} {keys : List FragKey} {k : FragKey} (hs : s.hasFrag k = false) (hk : k ∉ keys) :
    newKeys s (keys ++ [k]) = newKeys s keys + 1 := by
  have hnot : k ∉ (keys.filter fun k => !s.hasFrag k).toFinset := by simp [hk]
  rw [newKeys_eq_card, newKeys_eq_card, ← Finset.card_insert_of_notMem hnot]
  congr 1
  ext k'
  simp only [List.filter_append, List.filter_singleton, hs, List.mem_toFinset, List.mem_append, Finset.mem_insert]
  simp [or_comm]

theorem newKeys_le_append (s : State) (keys more : List FragKey) : newKeys s keys ≤ newKeys s (keys ++ more) := by
  rw [newKeys_eq_card, newKeys_eq_card]
  refine Finset.card_le_card fun k hk => ?_
  simp only [List.mem_toFinset, List.mem_filter, List.mem_append] at hk ⊢
  exact ⟨.inl hk.1, hk.2⟩

/-- Room for some keys is room for the first of them. -/
theorem room_of_append {s : State} {keys more : List FragKey} (h : Room s (keys ++ more)) : Room s keys := fun cap hcap =>
  Nat.le_trans (Nat.add_le_add_left (newKeys_le_append s keys more) _) (h cap hcap)

theorem keysOf_append (c : Component) (gs hs : List (Nat × Nat)) : keysOf c (gs ++ hs) = keysOf c gs ++ keysOf c hs := by
  rw [keysOf, List.filter_append, List.map_append]
  rfl

/-- A segment of length 0 has no key. -/
theorem keysOf_empty (c : Component) {g : Nat × Nat} (h : g.2 = 0) : keysOf c [g] = [] := by simp [keysOf, h]

theorem keysOf_singleton (c : Component) {g : Nat × Nat} (h : g.2 ≠ 0) : keysOf c [g] = [keyOf c g] := by simp [keysOf, h]

theorem mem_keysOf {c : Component} {gs : List (Nat × Nat)} {k : FragKey} :
    k ∈ keysOf c gs ↔ ∃ g ∈ gs, g.2 ≠ 0 ∧ k = keyOf c g := by
  simp only [keysOf, List.mem_map, List.mem_filter, decide_eq_true_eq]
  exact ⟨fun ⟨g, ⟨hg, h0⟩, e⟩ => ⟨g, hg, h0, e.symm⟩, fun ⟨g, hg, h0, e⟩ => ⟨g, ⟨hg, h0⟩, e.symm⟩⟩

/-! ## Recording (R116) -/

theorem State.hasFrag_iff {s : State} {k : FragKey} : s.hasFrag k = true ↔ ∃ f ∈ s.frags, f.key = k := by
  simp [State.hasFrag]

theorem State.recordFragment_known {t : State} {k : FragKey} (xs : List Sample) (h : t.hasFrag k = true) :
    t.recordFragment k xs = .ok t := if_pos h

theorem State.recordFragment_new {t : State} {k : FragKey} (xs : List Sample) (h : t.hasFrag k = false)
    (hroom : t.params.fragCap ≠ some t.frags.length) :
    t.recordFragment k xs = .ok { t with frags := fragInsert t.frags { key := k, samples := xs } } := by
  rw [State.recordFragment, h, if_neg Bool.false_ne_true, if_neg hroom]

theorem State.recordFragment_full {t : State} {k : FragKey} (xs : List Sample) (h : t.hasFrag k = false)
    (hfull : t.params.fragCap = some t.frags.length) :
    t.recordFragment k xs = .error (atReg .fragFull .fragCount) := by
  rw [State.recordFragment, h, if_neg Bool.false_ne_true, if_pos hfull]

/-- The sample that a plane element holds. -/
def State.planeSample (s : State) (c : Component) (k : Nat) : Sample := (s.chipWord k c.plane).setWidth 16

/-- The samples of a segment. -/
def segSamples (s : State) (c : Component) (g : Nat × Nat) : List Sample :=
  (List.range g.2).map fun x => s.planeSample c (g.1 + x)

/-- The samples of some segments, one after the other. -/
def lineSamples (s : State) (c : Component) (gs : List (Nat × Nat)) : List Sample := gs.flatMap (segSamples s c)

theorem segSamples_length (s : State) (c : Component) (g : Nat × Nat) : (segSamples s c g).length = g.2 := by
  simp [segSamples]

/-- A readable segment's elements are written. -/
theorem written_of_segReadable {s : State} {c : Component} {g : Nat × Nat} (h : SegReadable s c g) {k : Nat} (h1 : g.1 ≤ k)
    (h2 : k < g.1 + g.2) : k < c.plane.size s.params ∧ (s.read c.plane k).isSome := by
  rcases h with h | ⟨hend, h⟩
  · omega
  · exact ⟨by omega, h k h1 h2⟩

theorem recorded_nil {s t : State} (c : Component) (h : t.frags = s.frags) : Recorded s t c [] := by
  refine ⟨fun f hf => h ▸ hf, by simp [keysOf], fun f hf => .inl (h ▸ hf), ?_⟩
  rw [h]
  rfl

section
variable {s t : State} {c : Component} {gs : List (Nat × Nat)} {g : Nat × Nat} (h : Recorded s t c gs)
include h

/-- The map holds the keys that were there and those recorded, and no others. -/
theorem hasFrag_iff_of_recorded {k : FragKey} : t.hasFrag k = true ↔ s.hasFrag k = true ∨ k ∈ keysOf c gs := by
  obtain ⟨hkept, hkeys, hfrom, -⟩ := h
  rw [State.hasFrag_iff, State.hasFrag_iff]
  constructor
  · rintro ⟨f, hf, rfl⟩
    rcases hfrom f hf with hs | ⟨g, hg, h0, hkey, -⟩
    · exact .inl ⟨f, hs, rfl⟩
    · exact .inr (mem_keysOf.2 ⟨g, hg, h0, hkey⟩)
  · rintro (⟨f, hf, hk⟩ | hk)
    · exact ⟨f, hkept f hf, hk⟩
    · exact hkeys k hk

theorem hasFrag_eq_false_of_recorded {k : FragKey} (hs : s.hasFrag k = false) (hk : k ∉ keysOf c gs) : t.hasFrag k = false := by
  rw [← Bool.not_eq_true, hasFrag_iff_of_recorded h]
  simp [hs, hk]

/-- A segment of length 0 records nothing. -/
theorem recorded_append_empty (h0 : g.2 = 0) : Recorded s t c (gs ++ [g]) := by
  obtain ⟨hkept, hkeys, hfrom, hcount⟩ := h
  have heq : keysOf c (gs ++ [g]) = keysOf c gs := by rw [keysOf_append, keysOf_empty c h0, List.append_nil]
  refine ⟨hkept, by rwa [heq], fun f hf => (hfrom f hf).imp_right ?_, by rwa [heq]⟩
  rintro ⟨g', hg', hrest⟩
  exact ⟨g', List.mem_append_left _ hg', hrest⟩

/-- A key that the map holds is kept as it is. -/
theorem recorded_append_known (h0 : g.2 ≠ 0) (hk : t.hasFrag (keyOf c g) = true) : Recorded s t c (gs ++ [g]) := by
  have hknown := (hasFrag_iff_of_recorded h).1 hk
  obtain ⟨hkept, hkeys, hfrom, hcount⟩ := h
  have heq : keysOf c (gs ++ [g]) = keysOf c gs ++ [keyOf c g] := by rw [keysOf_append, keysOf_singleton c h0]
  refine ⟨hkept, ?_, fun f hf => (hfrom f hf).imp_right ?_, ?_⟩
  · rw [heq]
    exact List.forall_mem_append.2 ⟨hkeys, List.forall_mem_singleton.2 (State.hasFrag_iff.1 hk)⟩
  · rintro ⟨g', hg', hrest⟩
    exact ⟨g', List.mem_append_left _ hg', hrest⟩
  · rw [heq, newKeys_append_known hknown, hcount]

/-- A new key enters the map with the samples of its segment. -/
theorem recorded_append_new (h0 : g.2 ≠ 0) (hk : t.hasFrag (keyOf c g) = false) (hg : SegReadable s c g) :
    Recorded s { t with frags := fragInsert t.frags { key := keyOf c g, samples := segSamples s c g } } c (gs ++ [g]) := by
  have hnew : ¬(s.hasFrag (keyOf c g) = true ∨ keyOf c g ∈ keysOf c gs) := by
    rw [← hasFrag_iff_of_recorded h, hk]
    exact Bool.false_ne_true
  obtain ⟨hkept, hkeys, hfrom, hcount⟩ := h
  have heq : keysOf c (gs ++ [g]) = keysOf c gs ++ [keyOf c g] := by rw [keysOf_append, keysOf_singleton c h0]
  refine ⟨fun f hf => mem_fragInsert.2 (.inr (hkept f hf)), ?_, fun f hf => ?_, ?_⟩
  · rw [heq]
    refine List.forall_mem_append.2 ⟨fun k hk => ?_, List.forall_mem_singleton.2 ⟨_, mem_fragInsert.2 (.inl rfl), rfl⟩⟩
    obtain ⟨f, hf, hfk⟩ := hkeys k hk
    exact ⟨f, mem_fragInsert.2 (.inr hf), hfk⟩
  · rcases mem_fragInsert.1 hf with rfl | hf
    · refine .inr ⟨g, by simp, h0, rfl, segSamples_length s c g, fun x hx => ?_⟩
      rw [segSamples_length] at hx
      obtain ⟨-, hw⟩ := written_of_segReadable hg (k := g.1 + x) (by omega) (by omega)
      exact ⟨_, State.read_chipWord hw, by simp [segSamples, State.planeSample]⟩
    · rcases hfrom f hf with hs | ⟨g', hg', hrest⟩
      · exact .inl hs
      · exact .inr ⟨g', List.mem_append_left _ hg', hrest⟩
  · obtain ⟨hs, hgs⟩ := not_or.1 hnew
    rw [heq, newKeys_append_new (by simpa using hs) hgs, length_fragInsert, hcount]
    rfl

end

/-! ## The staging copy while lines are assembled -/

/-- A staging copy in which lines of component c are assembled: memory and the map alone may differ from the command's start,
memory in the raster space only, and the map by the fragments of the segments `gs`. -/
structure Assembled (s : State) (c : Component) (gs : List (Nat × Nat)) (t : State) : Prop where
  only : t = { s.staging with mem := t.mem, frags := t.frags }
  reads : ∀ S k, S ≠ c.raster → k < S.size s.params → t.read S k = s.read S k
  slots : ∀ n, n < s.params.vecCap → t.readSlot c.cls n = s.readSlot c.cls n
  recorded : Recorded s t c gs

theorem Assembled.start (s : State) (c : Component) : Assembled s c [] s.staging where
  only := rfl
  reads _ _ _ _ := rfl
  slots _ _ := rfl
  recorded := recorded_nil c rfl

/-- The fragment map as it comes out of a segment. -/
theorem Assembled.withFrags {s t : State} {c : Component} {gs gs' : List (Nat × Nat)} (h : Assembled s c gs t)
    {fs : List Fragment} (hfs : Recorded s { t with frags := fs } c gs') : Assembled s c gs' { t with frags := fs } where
  only := by rw [h.only]
  reads := h.reads
  slots := h.slots
  recorded := hfs

/-- A segment given by its start and length. -/
def toSeg (g : Nat × Nat) : Segment where
  start := g.1
  len := g.2

theorem segKey_toSeg (c : Component) (g : Nat × Nat) : segKey c (toSeg g) = keyOf c g := by
  rw [segKey, keyOf, c.rpc_eq]
  rfl

theorem Component.plane_ne_raster (c : Component) : c.plane ≠ c.raster := by cases c <;> decide

/-- Why a segment fails, once the segments `gs` are recorded (R115, R116). -/
inductive SegFails (s : State) (c : Component) (gs : List (Nat × Nat)) (g : Nat × Nat) : Raised → Prop
  | range (h : c.plane.size s.params < g.1 + g.2) : SegFails s c gs g (atElem .range c.plane.id g.1)
  | unwritten {x : Nat} (hend : g.1 + g.2 ≤ c.plane.size s.params) (h1 : g.1 ≤ x) (h2 : x < g.1 + g.2)
      (hfirst : ∀ y, g.1 ≤ y → y < x → (s.read c.plane y).isSome) (hnone : s.read c.plane x = none) :
      SegFails s c gs g (atElem .unwritten c.plane.id x)
  | full (hread : SegReadable s c g) (hnew : ∀ f ∈ s.frags, f.key ≠ keyOf c g) (hkey : keyOf c g ∉ keysOf c gs)
      (hfull : s.params.fragCap = some (s.frags.length + newKeys s (keysOf c gs))) :
      SegFails s c gs g (atReg .fragFull .fragCount)

section
variable {s t : State} {c : Component} {gs : List (Nat × Nat)} (h : Assembled s c gs t)
include h

theorem Assembled.params : t.params = s.params := by rw [h.only]; rfl

theorem Assembled.cfg : t.cfg = s.cfg := by rw [h.only]; rfl

/-- A readable segment is copied from the plane. -/
theorem Assembled.fetchRun {g : Nat × Nat} (hg : SegReadable s c g) : t.fetchRun c.plane g.1 g.2 = .ok (segSamples s c g) := by
  have hread : ∀ i, i < g.2 → t.read c.plane (g.1 + i) = some (s.chipWord (g.1 + i) c.plane) := fun i hi => by
    obtain ⟨hsize, hw⟩ := written_of_segReadable (k := g.1 + i) hg (by omega) (by omega)
    rw [h.reads _ _ c.plane_ne_raster hsize, State.read_chipWord hw]
  obtain ⟨xs, hxs⟩ := State.fetchRun_written (s := t) fun i hi => by rw [hread i hi]; rfl
  obtain ⟨hlen, hval⟩ := State.fetchRun_ok hxs
  rw [hxs]
  congr 1
  refine List.ext_getElem (hlen.trans (segSamples_length s c g).symm) fun i hi _ => ?_
  obtain ⟨v, hv, hx⟩ := hval i hi
  obtain rfl := Option.some.inj ((hread i (hlen ▸ hi)).symm.trans hv)
  rw [hx]
  simp [segSamples, State.planeSample]

/-- The first unwritten element of a segment faults. -/
theorem Assembled.fetchRun_unwritten {a n x : Nat} (hend : a + n ≤ c.plane.size s.params) (h1 : a ≤ x) (h2 : x < a + n)
    (hfirst : ∀ y, a ≤ y → y < x → (s.read c.plane y).isSome) (hnone : s.read c.plane x = none) :
    t.fetchRun c.plane a n = .error (atElem .unwritten c.plane.id x) := by
  have hread : ∀ k, k < a + n → t.read c.plane k = s.read c.plane k := fun k hk =>
    h.reads _ _ c.plane_ne_raster (by omega)
  have hx : a + (x - a) = x := by omega
  cases hrun : t.fetchRun c.plane a n with
  | ok xs =>
    obtain ⟨hlen, hval⟩ := State.fetchRun_ok hrun
    obtain ⟨v, hv, -⟩ := hval (x - a) (by omega)
    rw [hx, hread x h2, hnone] at hv
    cases hv
  | error e =>
    obtain ⟨i, hi, hnone', hfirst', rfl⟩ := State.fetchRun_error hrun
    rcases Nat.lt_trichotomy i (x - a) with hlt | rfl | hgt
    · have := hfirst (a + i) (by omega) (by omega)
      rw [← hread _ (by omega), hnone'] at this
      cases this
    · rw [hx]
    · have := hfirst' (x - a) hgt
      rw [hx, hread x h2, hnone] at this
      cases this

/-- A segment with samples: the range check, the copy and the record. -/
theorem Assembled.assembleSegment_eq {g : Nat × Nat} (h0 : g.2 ≠ 0) :
    t.assembleSegment c (toSeg g) = (do
      require (g.1 + g.2 ≤ c.plane.size s.params) (atElem .range c.plane.id g.1)
      let xs ← t.fetchRun c.plane g.1 g.2
      let u ← t.recordFragment (keyOf c g) xs
      .ok (u, xs)) := by
  rw [State.assembleSegment, segKey_toSeg, h.params, if_neg (show (toSeg g).len ≠ 0 from h0)]
  rfl

/-- A readable segment for whose key there is room is copied and recorded. -/
theorem Assembled.segment {g : Nat × Nat} (hg : SegReadable s c g) (hroom : Room s (keysOf c (gs ++ [g]))) :
    ∃ u, t.assembleSegment c (toSeg g) = .ok (u, segSamples s c g) ∧ u.mem = t.mem ∧ Assembled s c (gs ++ [g]) u := by
  by_cases h0 : g.2 = 0
  · refine ⟨t, ?_, rfl, h.withFrags (recorded_append_empty h.recorded h0)⟩
    rw [State.assembleSegment, if_pos (show (toSeg g).len = 0 from h0), segSamples, h0]
    rfl
  rw [h.assembleSegment_eq h0, require_pos (hg.resolve_left h0).1, staged_ok_bind, h.fetchRun hg, staged_ok_bind]
  cases hk : t.hasFrag (keyOf c g) with
  | true =>
    rw [State.recordFragment_known _ hk, staged_ok_bind]
    exact ⟨t, rfl, rfl, h.withFrags (recorded_append_known h.recorded h0 hk)⟩
  | false =>
    have hnext := recorded_append_new h.recorded h0 hk hg
    have hcap : t.params.fragCap ≠ some t.frags.length := fun hfull => by
      obtain ⟨-, -, -, hcount⟩ := hnext
      rw [length_fragInsert] at hcount
      have := hroom _ (h.params ▸ hfull)
      omega
    rw [State.recordFragment_new _ hk hcap, staged_ok_bind]
    exact ⟨_, rfl, rfl, h.withFrags hnext⟩

/-- A segment that fails raises its fault. -/
theorem Assembled.segment_fails {g : Nat × Nat} {e : Raised} (h0 : g.2 ≠ 0) (hg : SegFails s c gs g e) :
    t.assembleSegment c (toSeg g) = .error e := by
  rw [h.assembleSegment_eq h0]
  cases hg with
  | range hend => rw [require_neg (Nat.not_le.2 hend), staged_error_bind]
  | unwritten hend h1 h2 hfirst hnone =>
    rw [require_pos hend, staged_ok_bind, h.fetchRun_unwritten hend h1 h2 hfirst hnone, staged_error_bind]
  | full hread hnew hkey hfull =>
    obtain ⟨-, -, -, hcount⟩ := h.recorded
    have hk : t.hasFrag (keyOf c g) = false := hasFrag_eq_false_of_recorded h.recorded (by simpa [State.hasFrag] using hnew) hkey
    rw [require_pos (hread.resolve_left h0).1, staged_ok_bind, h.fetchRun hread, staged_ok_bind,
      State.recordFragment_full _ hk (by rw [h.params, hfull, hcount]), staged_error_bind]

end

/-! ## The segments of a line -/

theorem State.assemble_cons (t : State) (c : Component) (g : Segment) (gs : List Segment) :
    t.assemble c (g :: gs) = (do
      let r ← t.assembleSegment c g
      let q ← r.1.assemble c gs
      .ok (q.1, r.2 ++ q.2)) := by
  rw [State.assemble]
  cases t.assembleSegment c g with
  | error e => rfl
  | ok r => cases hq : r.1.assemble c gs <;> simp [hq, bind, Except.bind]

section
variable {s t : State} {c : Component} {gs : List (Nat × Nat)}

/-- Readable segments for whose keys there is room are copied and recorded, one after the other. -/
theorem Assembled.segments {line : List (Nat × Nat)} (h : Assembled s c gs t) (hline : ∀ g ∈ line, SegReadable s c g)
    (hroom : Room s (keysOf c (gs ++ line))) :
    ∃ u, t.assemble c (line.map toSeg) = .ok (u, lineSamples s c line) ∧ u.mem = t.mem ∧ Assembled s c (gs ++ line) u := by
  induction line generalizing gs t with
  | nil => exact ⟨t, rfl, rfl, by rwa [List.append_nil]⟩
  | cons g line ih =>
    obtain ⟨hg, hline⟩ := List.forall_mem_cons.1 hline
    rw [List.append_cons] at hroom ⊢
    obtain ⟨u, hu, hmem, hnext⟩ := h.segment hg (by rw [keysOf_append] at hroom; exact room_of_append hroom)
    obtain ⟨v, hv, hmem', hend⟩ := ih hnext hline hroom
    refine ⟨v, ?_, hmem'.trans hmem, hend⟩
    rw [List.map_cons, State.assemble_cons, hu, staged_ok_bind, hv, staged_ok_bind]
    rfl

/-- The first segment of a line that fails raises its fault. -/
theorem Assembled.segments_fail {before after : List (Nat × Nat)} {g : Nat × Nat} {e : Raised} (h : Assembled s c gs t)
    (hbefore : ∀ b ∈ before, SegReadable s c b) (hroom : Room s (keysOf c (gs ++ before))) (h0 : g.2 ≠ 0)
    (hg : SegFails s c (gs ++ before) g e) : t.assemble c ((before ++ g :: after).map toSeg) = .error e := by
  induction before generalizing gs t with
  | nil =>
    rw [List.append_nil] at hg
    rw [List.nil_append, List.map_cons, State.assemble_cons, h.segment_fails h0 hg, staged_error_bind]
  | cons b before ih =>
    obtain ⟨hb, hbefore⟩ := List.forall_mem_cons.1 hbefore
    rw [List.append_cons] at hroom hg
    obtain ⟨u, hu, -, hnext⟩ := h.segment hb (by rw [keysOf_append] at hroom; exact room_of_append hroom)
    rw [List.cons_append, List.map_cons, State.assemble_cons, hu, staged_ok_bind, ih hnext hbefore hroom hg,
      staged_error_bind]

end

end Sys2Proof.Machine
end

section
/-! Proofs of the statements of 42_raster_assembler.md, part 3: a line in the raster space (R117), and ASM_LINE and ASM_BLANK,
O38 to O42. -/

namespace Sys2Proof.Machine

open Sys2Proof.Claims

/-! ## The pixels of an assembled line (R113) -/

/-- Every pixel of a line is copied from an element of one of its segments. -/
theorem lineSource_mem_segment (s : State) (c : Component) (e : VectorEntry) {x : Nat} (hx : x < width s c) :
    ∃ g ∈ lineSegs s c e, g.1 ≤ lineSource s c e x ∧ lineSource s c e x < g.1 + g.2 := by
  unfold width at hx
  unfold lineSource
  by_cases hback : x < bpls s c
  · rw [if_pos hback]
    exact ⟨(e.back.toNat, bpls s c), by simp [lineSegs], by omega, by omega⟩
  rw [if_neg hback]
  by_cases hcentre : x < bpls s c + cls' s c
  · rw [if_pos hcentre]
    exact ⟨(e.centre.toNat, cls' s c), by simp [lineSegs], by omega, by omega⟩
  rw [if_neg hcentre]
  have hstd : s.cfg.std ≠ 1 := fun h => by
    have : fpls s c = 0 := if_pos h
    omega
  exact ⟨(e.front.toNat, fpls s c), by rw [lineSegs, if_neg hstd]; simp, by omega, by omega⟩

/-- The line of an entry is the samples that R113 names, in order. -/
theorem lineSamples_lineSegs (s : State) (c : Component) (e : VectorEntry) :
    lineSamples s c (lineSegs s c e) =
      (List.range (width s c)).map fun x => s.planeSample c (lineSource s c e x) := by
  have hback : (List.range (bpls s c)).map (fun x => s.planeSample c (lineSource s c e x)) =
      segSamples s c (e.back.toNat, bpls s c) := List.map_congr_left fun x hx => by
    rw [lineSource, if_pos (List.mem_range.1 hx)]
  have hcentre : (List.range (cls' s c)).map (fun x => s.planeSample c (lineSource s c e (bpls s c + x))) =
      segSamples s c (e.centre.toNat, cls' s c) := List.map_congr_left fun x hx => by
    have := List.mem_range.1 hx
    rw [lineSource, if_neg (by omega), if_pos (by omega), Nat.add_sub_cancel_left]
  have hfront : (List.range (fpls s c)).map (fun x => s.planeSample c (lineSource s c e (bpls s c + cls' s c + x))) =
      segSamples s c (e.front.toNat, fpls s c) := List.map_congr_left fun x _ => by
    rw [lineSource, if_neg (by omega), if_neg (by omega), Nat.add_assoc, Nat.add_sub_cancel_left, Nat.add_sub_cancel_left]
  have hlast : lineSamples s c (if s.cfg.std = 1 then [] else [(e.front.toNat, fpls s c)]) =
      segSamples s c (e.front.toNat, fpls s c) := by
    split
    · next h => rw [fpls, if_pos h]; rfl
    · simp [lineSamples]
  rw [width, List.range_add, List.range_add, List.map_append, List.map_append, List.map_map, List.map_map]
  refine Eq.trans ?_ (congrArg₂ (· ++ ·) (congrArg₂ (· ++ ·) hback hcentre) hfront).symm
  rw [← hlast]
  simp [lineSegs, lineSamples]

theorem lineSamples_length (s : State) (c : Component) (e : VectorEntry) :
    (lineSamples s c (lineSegs s c e)).length = width s c := by
  rw [lineSamples_lineSegs, List.length_map, List.length_range]

/-- The value that an element of the raster space of component c holds after a write of a sample. -/
def rasterWord (c : Component) (v : Sample) : Word := ((v.setWidth 32).setWidth (8 * c.raster.bytes)).setWidth 32

/-- A plane element's sample, written to the raster space, is the plane element's value: the copy is unchanged (R113). -/
theorem rasterWord_planeSample {s : State} {c : Component} {k : Nat} (h : (s.read c.plane k).isSome) :
    some (rasterWord c (s.planeSample c k)) = s.read c.plane k := by
  have hfit := State.read_fits (State.read_chipWord h)
  rw [State.read_chipWord h]
  congr 1
  refine BitVec.eq_of_toNat_eq ?_
  cases c <;> simp only [Component.plane, Space.bytes] at hfit <;>
    simp only [rasterWord, State.planeSample, Component.plane, Component.raster, Space.bytes, BitVec.toNat_setWidth] <;>
    omega

/-- A blank line's sample in the raster space (R121). -/
theorem rasterWord_blankValue (s : State) (c : Component) : rasterWord c (s.blankValue c) = blankOf s c := by
  refine BitVec.eq_of_toNat_eq ?_
  have hY := s.cfg.blankY.isLt
  have hC := s.cfg.blankC.isLt
  cases c <;>
    simp only [rasterWord, State.blankValue, blankOf, Component.raster, Space.bytes, BitVec.toNat_setWidth, reduceCtorEq,
      if_true, if_false] <;>
    omega

/-! ## Lines in the raster space (R117) -/

/-- An output line of a raster space with room for n lines ends inside the space. -/
theorem line_end_le {s : State} {c : Component} {j n : Nat} (hj : j < n) (hcap : n * width s c ≤ capOf s c) :
    j * width s c + width s c ≤ c.raster.size s.params := by
  have hmul : (j + 1) * width s c ≤ n * width s c := Nat.mul_le_mul_right _ hj
  rw [Nat.add_mul, Nat.one_mul] at hmul
  exact (hmul.trans hcap).trans_eq (capOf_eq s c)

section
variable {s : State} {f : Format} (hf : s.format = .ok f)
include hf

theorem State.segments_of_format (c : Component) (e : VectorEntry) : s.segments f c e = (lineSegs s c e).map toSeg := by
  rcases s.format_cases hf with ⟨rfl, h1⟩ | ⟨rfl, h1⟩
  · rw [lineSegs, if_neg h1, State.segments, ← fpls_of_format hf, ← bpls_eq, ← cls'_eq]
    rfl
  · rw [lineSegs, if_pos h1, State.segments, ← bpls_eq, ← cls'_eq]
    rfl

section
variable {t : State} {c : Component} {gs : List (Nat × Nat)} (h : Assembled s c gs t)
include h

theorem Assembled.segments_eq (e : VectorEntry) : t.segments f c e = (lineSegs s c e).map toSeg := by
  rw [← s.segments_of_format hf, h.only]
  rfl

theorem Assembled.lineWidth : t.lineWidth f c = width s c := by
  rw [width_of_format hf, h.only]
  rfl

theorem Assembled.blankLine : t.blankLine f c = List.replicate (width s c) (s.blankValue c) := by
  rw [State.blankLine, h.lineWidth hf, h.only]
  rfl

omit hf in
/-- After a write of memory it is still memory and the map alone that differ. -/
theorem Assembled.only_of_memOnly {u : State} (hu : MemOnly t u) : u = { s.staging with mem := u.mem, frags := u.frags } := by
  unfold MemOnly at hu
  rw [h.only] at hu
  rw [hu]

/-- A line of W(c) samples is written as a whole: what else is read, and the map, stay as they are. -/
theorem Assembled.writeLine {j n : Nat} {xs : List Sample} (hp : s.params.wf) (hj : j < n)
    (hcap : n * width s c ≤ capOf s c) (hlen : xs.length = width s c) :
    Assembled s c gs (t.writeLine f c j xs) ∧
      FrameOf (c.raster.range (j * width s c) (width s c)) t (t.writeLine f c j xs) ∧
      ∀ x (hx : x < xs.length), (t.writeLine f c j xs).read c.raster (j * width s c + x) = some (rasterWord c xs[x]) := by
  have hend := line_end_le hj hcap
  have hframe := t.writeRun_frame c.raster (j * t.lineWidth f c) xs
  have hwrite : t.writeLine f c j xs = t.writeRun c.raster (j * t.lineWidth f c) xs := rfl
  rw [← hwrite, hlen, h.lineWidth hf] at hframe
  rw [← h.params] at hend
  have hpt : t.params.wf := h.params ▸ hp
  refine ⟨⟨?_, fun S k hS hk => ?_, fun m hm => ?_, ?_⟩, hframe, fun x hx => ?_⟩
  · exact h.only_of_memOnly (State.writeRun_eq ..)
  · rw [hframe.read hpt hend (h.params ▸ hk) (.inl hS.symm), h.reads S k hS hk]
  · rw [hframe.readSlot hpt hend (h.params ▸ hm), h.slots m hm]
  · have hrec := h.recorded
    rwa [Recorded, ← State.writeLine_frags t f c j xs] at hrec
  · rw [hwrite, h.lineWidth hf]
    exact t.read_writeRun_inside hx

/-- A blank line (R121). -/
theorem Assembled.writeBlank {j n : Nat} (hp : s.params.wf) (hj : j < n) (hcap : n * width s c ≤ capOf s c) :
    Assembled s c gs (t.writeLine f c j (t.blankLine f c)) ∧
      FrameOf (c.raster.range (j * width s c) (width s c)) t (t.writeLine f c j (t.blankLine f c)) ∧
      ∀ x, x < width s c →
        (t.writeLine f c j (t.blankLine f c)).read c.raster (j * width s c + x) = some (blankOf s c) := by
  have hlen : (t.blankLine f c).length = width s c := by rw [h.blankLine hf, List.length_replicate]
  obtain ⟨hasm, hframe, hread⟩ := h.writeLine hf hp hj hcap hlen
  refine ⟨hasm, hframe, fun x hx => ?_⟩
  rw [hread x (hlen.symm ▸ hx), ← rasterWord_blankValue]
  simp [h.blankLine hf]

/-- The line of an entry: its segments are copied and recorded (R113, R116). -/
theorem Assembled.assembleLine {e : VectorEntry} {j n : Nat} (hp : s.params.wf) (hj : j < n)
    (hcap : n * width s c ≤ capOf s c) (hsegs : ∀ g ∈ lineSegs s c e, SegReadable s c g)
    (hroom : Room s (keysOf c (gs ++ lineSegs s c e))) :
    ∃ u, t.assembleLine f c e j = .ok u ∧ Assembled s c (gs ++ lineSegs s c e) u ∧
      FrameOf (c.raster.range (j * width s c) (width s c)) t u ∧
      ∀ x, x < width s c → u.read c.raster (j * width s c + x) = s.read c.plane (lineSource s c e x) := by
  obtain ⟨v, hv, hmem, hasm⟩ := h.segments hsegs hroom
  obtain ⟨hasm', hframe, hread⟩ := hasm.writeLine hf hp hj hcap (lineSamples_length s c e)
  refine ⟨_, ?_, hasm', fun a ha => ?_, fun x hx => ?_⟩
  · rw [State.assembleLine, h.segments_eq hf, hv, staged_ok_bind]
  · rw [hframe a ha, hmem]
  · obtain ⟨g, hg, h1, h2⟩ := lineSource_mem_segment s c e hx
    rw [hread x (by rwa [lineSamples_length]), ← rasterWord_planeSample (written_of_segReadable (hsegs g hg) h1 h2).2]
    simp [lineSamples_lineSegs]

/-- The line of an entry fails at its first segment that fails. -/
theorem Assembled.assembleLine_fails {e : VectorEntry} {j : Nat} {before after : List (Nat × Nat)} {g : Nat × Nat}
    {r : Raised} (hline : lineSegs s c e = before ++ g :: after) (hbefore : ∀ b ∈ before, SegReadable s c b)
    (hroom : Room s (keysOf c (gs ++ before))) (h0 : g.2 ≠ 0) (hg : SegFails s c (gs ++ before) g r) :
    t.assembleLine f c e j = .error r := by
  rw [State.assembleLine, h.segments_eq hf, hline, h.segments_fail hbefore hroom h0 hg, staged_error_bind]

/-- The slot's checks (R114, R120). -/
theorem Assembled.lineEntry_ok {n : Nat} {e : VectorEntry} (hn : n < s.params.vecCap) (he : s.readSlot c.cls n = some e)
    (hagree : Agrees s e) : t.lineEntry f c n = .ok e := by
  rw [State.lineEntry, State.fetchSlot_ok.2 ((h.slots n hn).trans he), staged_ok_bind, require_pos ((agrees_iff hf).1 hagree),
    staged_ok_bind]

theorem Assembled.lineEntry_disagrees {n : Nat} {e : VectorEntry} (hn : n < s.params.vecCap)
    (he : s.readSlot c.cls n = some e) (hagree : ¬Agrees s e) :
    t.lineEntry f c n = .error (atElem .config c.cls.vecId n) := by
  rw [State.lineEntry, State.fetchSlot_ok.2 ((h.slots n hn).trans he), staged_ok_bind,
    require_neg fun h' => hagree ((agrees_iff hf).2 h'), staged_error_bind]

omit hf in
theorem Assembled.lineEntry_unwritten {n : Nat} (hn : n < s.params.vecCap) (he : s.readSlot c.cls n = none) :
    t.lineEntry f c n = .error (atElem .unwritten c.cls.vecId n) := by
  rw [State.lineEntry, State.fetchSlot_error.2 ⟨(h.slots n hn).trans he, rfl⟩, staged_error_bind]

end

end

/-- A command that assembled lines commits memory and the map. -/
theorem Assembled.committed {s t : State} {c : Component} {gs : List (Nat × Nat)} (h : Assembled s c gs t) :
    Committed s t.commit 0 ∧ t.commit.cfg = s.cfg ∧ Recorded s t.commit c gs := by
  refine ⟨?_, h.cfg, h.recorded⟩
  rw [h.only]
  exact ⟨rfl, rfl, rfl, rfl, rfl, rfl, rfl, rfl, rfl⟩

/-! ## ASM_LINE (R120) -/

section
variable {s : State} {c : Comp} {k : Component} {f : Format} (hk : componentOf c = some k) (hf : s.format = .ok f)
include hk hf

/-- ASM_LINE's pseudocode after the component and the format. -/
theorem asmLineBody_staging :
    bodyOf (.asmLine c) s.staging = (do
      require (s.x0 < s.params.vecCap) (atReg .range .arg0)
      let e ← s.staging.lineEntry f k s.x0
      require ((s.x1 + 1) * width s k ≤ capOf s k) (atReg .range .arg1)
      s.staging.assembleLine f k e s.x1) := by
  have hf' : s.staging.format = .ok f := hf
  rw [bodyOf, asmLineBody, selectComponent_ok.2 hk, staged_ok_bind, hf', width_of_format hf, capOf_eq]
  rfl

/-- ASM_LINE of a slot that agrees, and of an output line inside the raster space. -/
theorem asmLineBody_of_argsOk {e : VectorEntry} (hslot : s.x0 < s.params.vecCap) (he : s.readSlot k.cls s.x0 = some e)
    (hagree : Agrees s e) (hcap : (s.x1 + 1) * width s k ≤ capOf s k) :
    bodyOf (.asmLine c) s.staging = s.staging.assembleLine f k e s.x1 := by
  rw [asmLineBody_staging hk hf, require_pos hslot, staged_ok_bind, (Assembled.start s k).lineEntry_ok hf hslot he hagree,
    staged_ok_bind, require_pos hcap, staged_ok_bind]

end

/-- Settles O38: the segments of the slot's entry are copied and recorded, and the line is written. -/
theorem asmLineCompletes : Obligations.AsmLineCompletes := by
  intro s c k e hp hk hstd hslot he hagree hcap hsegs hroom
  obtain ⟨f, hf⟩ := s.exists_format hstd
  obtain ⟨u, hu, hasm, hframe, hread⟩ :=
    (Assembled.start s k).assembleLine (e := e) hf hp (Nat.lt_succ_self s.x1) hcap hsegs hroom
  obtain ⟨hcommitted, hcfg, hrecorded⟩ := hasm.committed
  refine ⟨_, exec_ok (i := .asmLine c) (t := u) ?_, hcommitted, hcfg, hrecorded, hread, hframe⟩
  rw [asmLineBody_of_argsOk hk hf hslot he hagree hcap, hu]

/-- Settles O39: the checks in the order of R120's pseudocode. -/
theorem asmLineFaults : Obligations.AsmLineFaults := by
  intro s c k hk hstd
  obtain ⟨f, hf⟩ := s.exists_format hstd
  have hstart := Assembled.start s k
  refine ⟨fun h => exec_error (f := atReg .range .arg0) ?_,
    fun (hslot : s.x0 < s.params.vecCap) he => exec_error (f := atElem .unwritten k.cls.vecId s.x0) ?_,
    fun e (hslot : s.x0 < s.params.vecCap) he hagree => exec_error (f := atElem .config k.cls.vecId s.x0) ?_,
    fun e (hslot : s.x0 < s.params.vecCap) he hagree h => exec_error (f := atReg .range .arg1) ?_⟩ <;>
    rw [asmLineBody_staging hk hf]
  · rw [require_neg (p := s.x0 < s.params.vecCap) (Nat.not_lt.2 h), staged_error_bind]
  · rw [require_pos hslot, staged_ok_bind, hstart.lineEntry_unwritten hslot he, staged_error_bind]
  · rw [require_pos hslot, staged_ok_bind, hstart.lineEntry_disagrees hf hslot he hagree, staged_error_bind]
  · rw [require_pos hslot, staged_ok_bind, hstart.lineEntry_ok hf hslot he hagree, staged_ok_bind,
      require_neg (p := (s.x1 + 1) * width s k ≤ capOf s k) (Nat.not_le.2 h), staged_error_bind]

/-- Settles O40: the line fails at its first segment that fails, whichever the cause. -/
theorem asmLineSegmentFaults : Obligations.AsmLineSegmentFaults := by
  intro s c k e before g after hk hstd hslot he hagree hcap hline h0 hbefore hroom
  obtain ⟨f, hf⟩ := s.exists_format hstd
  have hfault {r} (hg : SegFails s k before g r) : exec (.asmLine c) s = .next (s.takeFault r) := exec_error (by
    rw [asmLineBody_of_argsOk hk hf hslot he hagree hcap,
      (Assembled.start s k).assembleLine_fails hf hline hbefore hroom h0 hg])
  exact ⟨fun h => hfault (.range h), fun x hend h1 h2 hfirst hnone => hfault (.unwritten hend h1 h2 hfirst hnone),
    fun hread hnew hkey hfull => hfault (.full hread hnew hkey hfull)⟩

/-! ## ASM_BLANK (R122) -/

theorem State.format_ntsc {s : State} (h : s.cfg.std = 2) : s.format = .ok .f43 := s.format_of_is43 (.inr (.inl h))

theorem State.isNtsc_iff {s : State} : s.isNtsc = true ↔ s.cfg.std = 2 := by rw [State.isNtsc, beq_iff_eq]

/-- ASM_BLANK's pseudocode under NTSC. -/
theorem asmBlankBody_ntsc {s : State} {c : Comp} {k : Component} (hk : componentOf c = some k) (h : s.cfg.std = 2) :
    bodyOf (.asmBlank c) s.staging = (do
      require ((s.x1 + 1) * width s k ≤ capOf s k) (atReg .range .arg1)
      .ok (s.staging.writeLine .f43 k s.x1 (s.staging.blankLine .f43 k))) := by
  have hf' : s.staging.format = .ok .f43 := s.format_ntsc h
  have hn : s.staging.isNtsc = true := State.isNtsc_iff.2 h
  rw [bodyOf, asmBlankBody, selectComponent_ok.2 hk, staged_ok_bind, hf', staged_ok_bind, require_pos hn, staged_ok_bind,
    width_of_format (s.format_ntsc h), capOf_eq]
  rfl

/-- Outside NTSC ASM_BLANK raises CONFIG at STD, for a reserved Standard too. -/
theorem asmBlankBody_not_ntsc {s : State} {c : Comp} {k : Component} (hk : componentOf c = some k) (h : s.cfg.std ≠ 2) :
    bodyOf (.asmBlank c) s.staging = .error (atReg .config .std) := by
  have hn : ¬s.staging.isNtsc = true := fun h' => h (State.isNtsc_iff.1 h')
  by_cases hstd : StdOk s
  · obtain ⟨f, hf⟩ := s.staging.exists_format hstd
    rw [bodyOf, asmBlankBody, selectComponent_ok.2 hk, staged_ok_bind, hf, staged_ok_bind, require_neg hn, staged_error_bind]
  · have hf : s.staging.format = .error (atReg .config .std) := State.format_reserved hstd
    rw [bodyOf, asmBlankBody, selectComponent_ok.2 hk, staged_ok_bind, hf, staged_error_bind]

/-- Settles O41: the blank line is written, and nothing is recorded. -/
theorem asmBlankCompletes : Obligations.AsmBlankCompletes := by
  intro s c k hp hk hntsc hcap
  obtain ⟨-, hframe, hread⟩ :=
    (Assembled.start s k).writeBlank (s.format_ntsc hntsc) hp (Nat.lt_succ_self s.x1) hcap
  have hrun : bodyOf (.asmBlank c) s.staging = .ok (s.staging.writeLine .f43 k s.x1 (s.staging.blankLine .f43 k)) := by
    rw [asmBlankBody_ntsc hk hntsc, require_pos (p := (s.x1 + 1) * width s k ≤ capOf s k) hcap, staged_ok_bind]
  obtain ⟨hcommitted, hcfg, hfrags⟩ := committed_of_mem_result0 (asmBlankBody_memOnly hrun)
  exact ⟨_, exec_ok hrun, hcommitted, hcfg, hfrags, hread, hframe⟩

/-- Settles O42: the Standard is looked at before the output line. -/
theorem asmBlankFaults : Obligations.AsmBlankFaults := by
  intro s c k hk
  refine ⟨fun h => exec_error (asmBlankBody_not_ntsc hk h), fun hntsc h => exec_error (f := atReg .range .arg1) ?_⟩
  rw [asmBlankBody_ntsc hk hntsc, require_neg (p := (s.x1 + 1) * width s k ≤ capOf s k) (Nat.not_le.2 h), staged_error_bind]

end Sys2Proof.Machine
end

section
/-! Proofs of the statements of 42_raster_assembler.md, part 4: ASM_FRAME, O43 to O45. The lines of a frame are written to the
raster space, where nothing is read, so each line is what the state that the loop starts in says (`FramePrefix`). -/

namespace Sys2Proof.Machine

open Sys2Proof.Claims

/-! ## Stitch entries (30_encoding.md R81) -/

theorem isBlank_iff (w : Word) : isBlank w ↔ stitchBlank w = true := by
  have hbit : (stitchBlank w).toNat = w.toNat / 2 ^ 31 % 2 := toNat_getLsbD w 31
  have hlt := w.isLt
  unfold isBlank
  cases hb : stitchBlank w <;> rw [hb] at hbit <;> simp only [Bool.toNat_false, Bool.toNat_true] at hbit
  · simp only [Bool.false_eq_true, iff_false]
    omega
  · simp only [iff_true]
    omega

theorem stitchRsvd_eq_zero_iff (w : Word) : stitchRsvd w = 0 ↔ rsvdOf w = 0 := by
  have hval : (stitchRsvd w).toNat = rsvdOf w := by
    rw [stitchRsvd, BitVec.extractLsb'_toNat, Nat.shiftRight_eq_div_pow, rsvdOf]
  rw [← hval, ← BitVec.toNat_inj]
  rfl

theorem stitchVindex_eq (w : Word) : stitchVindex w = vindexOf w := by
  rw [stitchVindex, BitVec.extractLsb'_toNat, Nat.shiftRight_zero, vindexOf]

section
variable {s : State} {c : Component} {j : Nat} {w : Word} (hw : s.read .stitch j = some w)
include hw

theorem frameSegs_blank (hb : isBlank w) : frameSegs s c j = [] := by
  rw [frameSegs, hw]
  exact if_pos hb

theorem frameSegs_vector (hb : ¬isBlank w) {e : VectorEntry} (he : s.readSlot c.cls (vindexOf w) = some e) :
    frameSegs s c j = lineSegs s c e := by
  rw [frameSegs, hw]
  refine (if_neg hb).trans ?_
  rw [he]

end

theorem framesUpTo_succ (s : State) (c : Component) (j : Nat) :
    framesUpTo s c (j + 1) = framesUpTo s c j ++ frameSegs s c j := by
  simp [framesUpTo, List.range_succ]

/-- Room for the keys of some lines is room for those of the first of them. -/
theorem room_framesUpTo {s : State} {c : Component} {j n : Nat} (hj : j ≤ n) (h : Room s (keysOf c (framesUpTo s c n))) :
    Room s (keysOf c (framesUpTo s c j)) := by
  induction hj with
  | refl => exact h
  | step _ ih =>
    rw [framesUpTo_succ, keysOf_append] at h
    exact ih (room_of_append h)

/-! ## One output line (R123) -/

theorem Component.stitch_ne_raster (c : Component) : .stitch ≠ c.raster := by cases c <;> decide

section
variable {s t : State} {c : Component} {gs : List (Nat × Nat)} {f : Format} {j : Nat} (h : Assembled s c gs t)
  (hj : j < s.params.stitchCap)
include h hj

theorem Assembled.read_stitch : t.read .stitch j = s.read .stitch j := h.reads .stitch j c.stitch_ne_raster hj

theorem Assembled.asmFrameAt_unwritten (hnone : s.read .stitch j = none) :
    asmFrameAt f c j t = .error (atElem .unwritten Space.stitch.id j) := by
  rw [asmFrameAt, State.fetch_error.2 ⟨(h.read_stitch hj).trans hnone, rfl⟩, staged_error_bind]

variable {w : Word} (hw : s.read .stitch j = some w)
include hw

theorem Assembled.fetch_stitch : t.fetch .stitch j = .ok w := State.fetch_ok.2 ((h.read_stitch hj).trans hw)

theorem Assembled.asmFrameAt_rsvd (hr : rsvdOf w ≠ 0) :
    asmFrameAt f c j t = .error (atElem .config Space.stitch.id j) := by
  rw [asmFrameAt, h.fetch_stitch hj hw, staged_ok_bind, require_neg fun h' => hr ((stitchRsvd_eq_zero_iff w).1 h'),
    staged_error_bind]

variable (hr : rsvdOf w = 0)
include hr

theorem Assembled.asmFrameAt_blank (hb : isBlank w) :
    asmFrameAt f c j t = (do
      require (s.isNtsc = true) (atElem .config Space.stitch.id j)
      .ok (t.writeLine f c j (t.blankLine f c))) := by
  have hn : t.isNtsc = s.isNtsc := by rw [State.isNtsc, State.isNtsc, h.cfg]
  rw [asmFrameAt, h.fetch_stitch hj hw, staged_ok_bind, require_pos ((stitchRsvd_eq_zero_iff w).2 hr), staged_ok_bind,
    if_pos ((isBlank_iff w).1 hb), hn]

theorem Assembled.asmFrameAt_vector (hb : ¬isBlank w) :
    asmFrameAt f c j t = (do
      require (vindexOf w < s.params.vecCap) (atElem .range Space.stitch.id j)
      let e ← t.lineEntry f c (vindexOf w)
      t.assembleLine f c e j) := by
  rw [asmFrameAt, h.fetch_stitch hj hw, staged_ok_bind, require_pos ((stitchRsvd_eq_zero_iff w).2 hr), staged_ok_bind,
    if_neg fun h' => hb ((isBlank_iff w).2 h'), stitchVindex_eq, h.params]

/-- The line of a slot that agrees with the format. -/
theorem Assembled.asmFrameAt_entry (hf : s.format = .ok f) (hb : ¬isBlank w) {e : VectorEntry}
    (hv : vindexOf w < s.params.vecCap) (he : s.readSlot c.cls (vindexOf w) = some e) (hagree : Agrees s e) :
    asmFrameAt f c j t = t.assembleLine f c e j := by
  rw [h.asmFrameAt_vector hj hw hr hb, require_pos hv, staged_ok_bind, h.lineEntry_ok hf hv he hagree, staged_ok_bind]

end

/-! ## The loop (R123) -/

/-- Output line t stands in the raster space: blank, or copied from the plane. -/
def LineWritten (s : State) (c : Component) (t : Nat) (u : State) : Prop :=
  ∀ w x, s.read .stitch t = some w → x < width s c →
    (isBlank w → u.read c.raster (t * width s c + x) = some (blankOf s c)) ∧
    (∀ e, ¬isBlank w → s.readSlot c.cls (vindexOf w) = some e →
      u.read c.raster (t * width s c + x) = s.read c.plane (lineSource s c e x))

/-- The loop of ASM_FRAME has written output lines 0 to j-1, and no other element; their segments are recorded. -/
structure FramePrefix (s : State) (c : Component) (j : Nat) (u : State) : Prop where
  assembled : Assembled s c (framesUpTo s c j) u
  frame : FrameOf (c.raster.range 0 (j * width s c)) s u
  lines : ∀ t, t < j → LineWritten s c t u

theorem FramePrefix.start (s : State) (c : Component) : FramePrefix s c 0 s.staging where
  assembled := Assembled.start s c
  frame := FrameOf.refl _ _
  lines _ ht := absurd ht (Nat.not_lt_zero _)

section
variable {s u : State} {c : Component} {f : Format} {j n : Nat} (h : FramePrefix s c j u) (hp : s.params.wf)
  (hj : j < n) (hcap : n * width s c ≤ capOf s c)
include h hp hj hcap

/-- One more line, in elements of its own. -/
theorem FramePrefix.extend {v : State} (hasm : Assembled s c (framesUpTo s c (j + 1)) v)
    (hframe : FrameOf (c.raster.range (j * width s c) (width s c)) u v) (hline : LineWritten s c j v) :
    FramePrefix s c (j + 1) v := by
  have hend := line_end_le hj hcap
  rw [← h.assembled.params] at hend
  have hnext : (j + 1) * width s c = j * width s c + width s c := by rw [Nat.add_mul, Nat.one_mul]
  refine ⟨hasm, ?_, fun t ht => ?_⟩
  · exact (h.frame.mono (Space.range_mono (Nat.le_refl 0) (by omega))).trans
      (hframe.mono (Space.range_mono (Nat.zero_le _) (by omega)))
  · rcases Nat.eq_or_lt_of_le (Nat.le_of_lt_succ ht) with rfl | hlt
    · exact hline
    · intro w x hw hx
      have hbelow : (t + 1) * width s c ≤ j * width s c := Nat.mul_le_mul_right _ hlt
      rw [Nat.add_mul, Nat.one_mul] at hbelow
      rw [hframe.read (T := c.raster) (j := t * width s c + x) (h.assembled.params ▸ hp) hend (by omega)
        (.inr (.inl (by omega)))]
      exact h.lines t hlt w x hw hx

/-- An output line that passes its checks, with room for its keys, is written. -/
theorem FramePrefix.next (hf : s.format = .ok f) (hstitch : j < s.params.stitchCap) (hok : FrameLineOk s c j)
    (hroom : Room s (keysOf c (framesUpTo s c (j + 1)))) : ∃ v, asmFrameAt f c j u = .ok v ∧ FramePrefix s c (j + 1) v := by
  have hasm := h.assembled
  obtain ⟨w, hw, hr, ⟨hb, hntsc⟩ | ⟨hb, hv, e, he, hagree, hsegs⟩⟩ := hok
  · obtain ⟨hblank, hframe, hread⟩ := hasm.writeBlank hf hp hj hcap
    refine ⟨_, ?_, h.extend hp hj hcap ?_ hframe fun w' x hw' hx => ?_⟩
    · rw [hasm.asmFrameAt_blank hstitch hw hr hb, require_pos (State.isNtsc_iff.2 hntsc), staged_ok_bind]
    · rwa [framesUpTo_succ, frameSegs_blank hw hb, List.append_nil]
    · obtain rfl := Option.some.inj (hw.symm.trans hw')
      exact ⟨fun _ => hread x hx, fun _ hnot => absurd hb hnot⟩
  · rw [framesUpTo_succ, frameSegs_vector hw hb he] at hroom
    obtain ⟨v, hrun, hline, hframe, hread⟩ := hasm.assembleLine hf hp hj hcap hsegs hroom
    refine ⟨v, ?_, h.extend hp hj hcap ?_ hframe fun w' x hw' hx => ?_⟩
    · rw [hasm.asmFrameAt_entry hstitch hw hr hf hb hv he hagree, hrun]
    · rwa [framesUpTo_succ, frameSegs_vector hw hb he]
    · obtain rfl := Option.some.inj (hw.symm.trans hw')
      refine ⟨fun hyes => absurd hyes hb, fun e' _ he' => ?_⟩
      obtain rfl := Option.some.inj (he.symm.trans he')
      exact hread x hx

end

/-! ## ASM_FRAME -/

section
variable {s : State} {c : Comp} {k : Component} {f : Format} (hk : componentOf c = some k) (hf : s.format = .ok f)
include hk hf

/-- ASM_FRAME's pseudocode after the component and the format. -/
theorem asmFrameBody_staging :
    bodyOf (.asmFrame c) s.staging = (do
      require (s.cfg.stitchLen.toNat ≤ s.params.stitchCap) (atReg .range .stitchLen)
      require (s.cfg.stitchLen.toNat * width s k ≤ capOf s k) (atReg .range .stitchLen)
      forRange (asmFrameAt f k) 0 s.cfg.stitchLen.toNat s.staging) := by
  have hf' : s.staging.format = .ok f := hf
  rw [bodyOf, asmFrameBody, selectComponent_ok.2 hk, staged_ok_bind, hf', width_of_format hf, capOf_eq]
  rfl

variable (hstitch : s.cfg.stitchLen.toNat ≤ s.params.stitchCap) (hcap : s.cfg.stitchLen.toNat * width s k ≤ capOf s k)
include hstitch hcap

theorem asmFrameBody_of_argsOk :
    bodyOf (.asmFrame c) s.staging = forRange (asmFrameAt f k) 0 s.cfg.stitchLen.toNat s.staging := by
  rw [asmFrameBody_staging hk hf, require_pos hstitch, staged_ok_bind, require_pos hcap, staged_ok_bind]

/-- ASM_FRAME faults at the first output line that fails. -/
theorem asmFrame_faults_at {t : Nat} {r : Raised} (hp : s.params.wf) (ht : t < s.cfg.stitchLen.toNat)
    (hbefore : ∀ j, j < t → FrameLineOk s k j) (hroom : Room s (keysOf k (framesUpTo s k t)))
    (hfail : ∀ u, Assembled s k (framesUpTo s k t) u → asmFrameAt f k t u = .error r) :
    exec (.asmFrame c) s = .next (s.takeFault r) := by
  refine exec_error ?_
  rw [asmFrameBody_of_argsOk hk hf hstitch hcap]
  refine forRange_fails (k := t) (FramePrefix s k) (.start s k) (fun j u _ hj hu => ?_) (Nat.zero_le t) (by omega)
    fun u hu => hfail u hu.assembled
  exact hu.next hp (Nat.lt_trans hj ht) hcap hf (by omega) (hbefore j hj) (room_framesUpTo hj hroom)

end

/-- Settles O43: every line is written in elements of its own, from what the command started with. -/
theorem asmFrameCompletes : Obligations.AsmFrameCompletes := by
  intro s c k hp hk hstd hstitch hcap hlines hroom
  obtain ⟨f, hf⟩ := s.exists_format hstd
  obtain ⟨u, hu, hend⟩ := forRange_completes (body := asmFrameAt f k) (n := s.cfg.stitchLen.toNat) (FramePrefix s k)
    (.start s k) fun j v _ hj hv => by
      rw [Nat.zero_add] at hj
      exact hv.next hp hj hcap hf (Nat.lt_of_lt_of_le hj hstitch) (hlines j hj) (room_framesUpTo hj hroom)
  rw [Nat.zero_add] at hend
  obtain ⟨hcommitted, hcfg, hrecorded⟩ := hend.assembled.committed
  refine ⟨_, exec_ok (i := .asmFrame c) (t := u) ?_, hcommitted, hcfg, hrecorded,
    fun t w x ht hw hx => hend.lines t ht w x hw hx, hend.frame⟩
  rw [asmFrameBody_of_argsOk hk hf hstitch hcap, hu]

/-- Settles O44: the checks of STITCH_LEN, and then those of one line, in the order of R123's pseudocode. -/
theorem asmFrameFaults : Obligations.AsmFrameFaults := by
  intro s c k hk hstd
  obtain ⟨f, hf⟩ := s.exists_format hstd
  refine ⟨fun h => exec_error (f := atReg .range .stitchLen) ?_, fun t hp hstitch hcap ht hbefore hroom => ?_⟩
  · rw [asmFrameBody_staging hk hf]
    by_cases hstitch : s.cfg.stitchLen.toNat ≤ s.params.stitchCap
    · rw [require_pos hstitch, staged_ok_bind, require_neg (Nat.not_le.2 (h.resolve_left (Nat.not_lt.2 hstitch))),
        staged_error_bind]
    · rw [require_neg hstitch, staged_error_bind]
  · have hj := Nat.lt_of_lt_of_le ht hstitch
    have hfault {r} := @asmFrame_faults_at s c k f hk hf hstitch hcap t r hp ht hbefore hroom
    refine ⟨fun hnone => hfault fun u hu => hu.asmFrameAt_unwritten hj hnone, fun w hw =>
      ⟨fun hr => hfault fun u hu => hu.asmFrameAt_rsvd hj hw hr,
       fun hr hb hntsc => hfault (r := atElem .config Space.stitch.id t) fun u hu => ?_,
       fun hr hb hv => hfault (r := atElem .range Space.stitch.id t) fun u hu => ?_,
       fun hr hb hv hnone => hfault (r := atElem .unwritten k.cls.vecId (vindexOf w)) fun u hu => ?_,
       fun e hr hb hv he hagree => hfault (r := atElem .config k.cls.vecId (vindexOf w)) fun u hu => ?_⟩⟩
    · rw [hu.asmFrameAt_blank hj hw hr hb, require_neg fun h => hntsc (State.isNtsc_iff.1 h), staged_error_bind]
    · rw [hu.asmFrameAt_vector hj hw hr hb, require_neg (Nat.not_lt.2 hv), staged_error_bind]
    · rw [hu.asmFrameAt_vector hj hw hr hb, require_pos hv, staged_ok_bind, hu.lineEntry_unwritten hv hnone,
        staged_error_bind]
    · rw [hu.asmFrameAt_vector hj hw hr hb, require_pos hv, staged_ok_bind, hu.lineEntry_disagrees hf hv he hagree,
        staged_error_bind]

/-- Settles O45: the line fails at its first segment that fails, the keys of the lines before it being recorded. -/
theorem asmFrameSegmentFaults : Obligations.AsmFrameSegmentFaults := by
  intro s c k t w e before g after hp hk hstd hstitch hcap ht hlines hw hr hb hv he hagree hline h0 hbefore hroom
  obtain ⟨f, hf⟩ := s.exists_format hstd
  have hroom' : Room s (keysOf k (framesUpTo s k t)) := room_of_append (keysOf_append k _ before ▸ hroom)
  have hfault {r} (hg : SegFails s k (framesUpTo s k t ++ before) g r) : exec (.asmFrame c) s = .next (s.takeFault r) :=
    asmFrame_faults_at hk hf hstitch hcap hp ht hlines hroom' fun u hu => by
      rw [hu.asmFrameAt_entry (Nat.lt_of_lt_of_le ht hstitch) hw hr hf hb hv he hagree]
      exact hu.assembleLine_fails hf hline hbefore hroom h0 hg
  exact ⟨fun h => hfault (.range h), fun x hend h1 h2 hfirst hnone => hfault (.unwritten hend h1 h2 hfirst hnone),
    fun hread hnew hkey hfull => hfault (.full hread hnew hkey hfull)⟩

end Sys2Proof.Machine
end

section
/-! Proofs of the statements of 43_session.md: O14, O15 and O16. The pseudocode of each command is evaluated on the staging copy;
the commit that follows is `exec_ok`'s. -/

namespace Sys2Proof.Machine

open Sys2Proof.Claims

/-- While ERR = 1 a write of CMD stores the word, and its command does not run (60_exceptions.md R135). -/
theorem step_cmd_of_err {s : State} {w : Word} {rest : List HostAccess} (h : NextIsCmd s w rest)
    (he : s.status.err = true) : step s = .next { s with script := rest, cmd := w } := by
  obtain ⟨hs, hb⟩ := h
  rw [step_cmd hs hb, issueCommand, if_pos he]
  rfl

/-- On a usable component the pseudocode of FRAG_QUERY writes RESULT0 with the answer for the key in the arguments (43_session.md
R128). -/
theorem fragQueryBody_of_component (s : State) {c : Comp} {k : Component} (hk : componentOf c = some k) :
    fragQueryBody c s = .ok { s with result0 := if s.hasFrag ⟨k, s.args.arg0, s.args.arg1⟩ then 1 else 0 } := by
  rw [fragQueryBody, selectComponent_ok.2 hk, staged_ok_bind]

/-- No fragment has a key of zero length (42_raster_assembler.md R116). -/
theorem State.fragsOk.hasFrag_rawLen_zero {s : State} (h : s.fragsOk) {k : FragKey} (hk : k.rawLen = 0) :
    s.hasFrag k = false := by
  obtain ⟨_, _, hlen⟩ := h
  rw [← Bool.not_eq_true, State.hasFrag_iff]
  rintro ⟨f, hf, rfl⟩
  exact (hlen f hf).1 hk

/-- Settles O14: the body of NOP changes nothing, and no command runs while ERR = 1. -/
theorem nopCompletes : Obligations.NopCompletes :=
  ⟨by decide, fun _ => exec_ok (i := .nop) rfl, fun _ _ => step_cmd_of_err⟩

/-- Settles O15: the body of FRAG_CLEAR empties the map, whose size FRAG_COUNT reads. -/
theorem fragClearCompletes : Obligations.FragClearCompletes :=
  ⟨by decide, fun _ => ⟨exec_ok (i := .fragClear) rfl, rfl⟩⟩

/-- Settles O16: a usable component gives the answer for its key, which is a miss where no key has length zero; COMP = 1 is not
usable. -/
theorem fragQueryCompletes : Obligations.FragQueryCompletes := by
  refine ⟨fun s c k hk => exec_ok (i := .fragQuery c) (fragQueryBody_of_component s.staging hk), ?_,
    fun s => exec_error (bodyOf_not_wf s.staging rfl), by decide⟩
  intro s c t hfrags _ hlen hc ht
  obtain ⟨k, hk⟩ := selectComponent_named hc
  have hmiss : s.hasFrag ⟨k, s.args.arg0, s.args.arg1⟩ = false := hfrags.hasFrag_rawLen_zero hlen
  rw [exec_ok (i := .fragQuery c) (fragQueryBody_of_component s.staging (selectComponent_ok.1 hk)),
    Host.Outcome.next.injEq] at ht
  subst ht
  exact if_neg (Bool.eq_false_iff.1 hmiss)

end Sys2Proof.Machine
end

section
/-! Proofs of the statements of 60_exceptions.md: O7, O8 and O10. That no command raises ILLEGAL is a property of its
pseudocode, `NeverIllegal`: the elementary steps have it, and sequencing and loops keep it, so each proof about a piece of
pseudocode has the shape of that pseudocode. -/

namespace Sys2Proof.Machine

open Sys2Proof.Claims

/-! ## How a command ends -/

/-- The fault taken, spelled out field by field (60_exceptions.md R132). -/
theorem State.takeFault_eq_faultState (s : State) (f : Raised) :
    s.takeFault f = faultState s f.cause.code f.space f.index.toNat := by
  rw [faultState, BitVec.ofNat_toNat, BitVec.setWidth_eq]
  rfl

/-- Settles O10: a command commits or takes a fault, and either writes the flags. -/
theorem everyCommandEnds : Obligations.EveryCommandEnds := by
  intro i s
  obtain ⟨t, ht⟩ := runCommand_next (bodyOf i) s
  rw [← exec_eq] at ht
  refine ⟨t, ht, ?_⟩
  rcases exec_cases ht with ⟨u, hu, rfl⟩ | ⟨f, rfl⟩
  · exact ⟨rfl, .inl ⟨rfl, by simp [hu.effect.status]⟩⟩
  · exact ⟨rfl, .inr ⟨rfl, rfl⟩⟩

/-! ## A fault stays until a reset -/

/-- ERR, ERRCODE, ERROP and FAULT_INFO are as before. -/
structure SameFault (s t : State) : Prop where
  err : t.status.err = s.status.err
  errcode : t.status.errcode = s.status.errcode
  errop : t.status.errop = s.status.errop
  info : t.faultInfo = s.faultInfo

/-- While ERR = 1 a write of a register is a soft reset or keeps the fault. -/
theorem State.writeReg_sameFault {s t : State} {r : Reg} {v : Word} (h : s.writeReg r v = .next t)
    (he : s.status.err = true) : (r = .ctrl ∧ v.getLsbD 0 = true ∧ t = s.softReset) ∨ SameFault s t := by
  rcases writeReg_cases h with ⟨_, hi⟩ | hr | ⟨_, rfl⟩ | ⟨_, rfl⟩ | rfl
  · rcases issueCommand_cases hi with ⟨_, rfl⟩ | ⟨hne, _⟩
    · exact .inr ⟨rfl, rfl, rfl, rfl⟩
    · exact absurd (he.symm.trans hne) (by decide)
  · exact .inl hr
  · exact .inr ⟨rfl, rfl, rfl, rfl⟩
  · exact .inr ⟨rfl, rfl, rfl, rfl⟩
  · exact .inr ⟨rfl, rfl, rfl, rfl⟩

/-- While ERR = 1 a step is a soft reset, which clears it, or keeps the fault. -/
theorem step_sameFault {s t : State} (h : step s = .next t) (he : s.status.err = true) :
    (NextIsSoftReset s ∧ t.status.err = false) ∨ SameFault s t := by
  rcases step_cases h with ⟨_, rfl⟩ | ⟨_, rest, hs, ⟨v, rfl⟩ | ⟨n, rfl⟩ | ⟨n, rfl⟩ | rfl | ⟨S, k, v, _, rfl⟩ |
    ⟨a, n, v, r, rfl, hr, hw⟩ | rfl⟩
  · exact .inr ⟨rfl, rfl, rfl, rfl⟩
  · exact .inr ⟨rfl, rfl, rfl, rfl⟩
  · exact .inr ⟨rfl, rfl, rfl, rfl⟩
  · exact .inr ⟨rfl, rfl, rfl, rfl⟩
  · exact .inr ⟨rfl, rfl, rfl, rfl⟩
  · exact .inr ⟨rfl, rfl, rfl, rfl⟩
  · rcases State.writeReg_sameFault hw he with ⟨rfl, hv, rfl⟩ | hsame
    · obtain ⟨rfl, rfl⟩ := target_reg hr
      exact .inl ⟨⟨v, rest, hs, hv⟩, rfl⟩
    · exact .inr ⟨hsame.err, hsame.errcode, hsame.errop, hsame.info⟩
  · exact .inr ⟨rfl, rfl, rfl, rfl⟩

/-- Settles O7: no access but the soft reset touches the fault's fields while ERR = 1. -/
theorem faultIsStickyUntilReset : Obligations.FaultIsStickyUntilReset := by
  refine ⟨fun _ _ _ => step_cmd_of_err, fun s t he h => ?_⟩
  rcases step_sameFault h he with hreset | hsame
  · exact .inr hreset
  · exact .inl ⟨hsame.err.trans he, hsame.errcode, hsame.errop, hsame.info⟩

/-! ## Which faults the pseudocode raises -/

@[simp] theorem atReg_cause (c : Cause) (r : Reg) : (atReg c r).cause = c := rfl

@[simp] theorem atElem_cause (c : Cause) (i : BitVec 8) (k : Nat) : (atElem c i k).cause = c := rfl

/-- The step of the pseudocode does not raise ILLEGAL, the fault of a command word (30_encoding.md R73). -/
structure NeverIllegal {α : Type} (x : Staged α) : Prop where
  cause_ne : ∀ e, x = .error e → e.cause ≠ .illegal

/-! ### Sequencing, loops and the shared steps -/

theorem NeverIllegal.ok {α : Type} (a : α) : NeverIllegal (.ok a : Staged α) := ⟨fun _ h => nomatch h⟩

theorem NeverIllegal.error {α : Type} {e : Raised} (h : e.cause ≠ .illegal := by simp) :
    NeverIllegal (.error e : Staged α) := ⟨fun _ he => Except.error.inj he ▸ h⟩

theorem NeverIllegal.bind {α β : Type} {x : Staged α} {f : α → Staged β} (hx : NeverIllegal x)
    (hf : ∀ a, NeverIllegal (f a)) : NeverIllegal (x >>= f) := by
  refine ⟨fun e he => ?_⟩
  rcases staged_bind_error.1 he with hx' | ⟨a, _, ha⟩
  · exact hx.cause_ne e hx'
  · exact (hf a).cause_ne e ha

theorem NeverIllegal.require {p : Prop} [Decidable p] {f : Raised} (h : f.cause ≠ .illegal := by simp) :
    NeverIllegal (require p f) := by
  refine ⟨fun e he => ?_⟩
  obtain ⟨_, rfl⟩ := require_error.1 he
  exact h

theorem NeverIllegal.forRange {body : Nat → State → Staged State} (h : ∀ j u, NeverIllegal (body j u)) (i n : Nat)
    (s : State) : NeverIllegal (forRange body i n s) := by
  refine ⟨fun e he => ?_⟩
  obtain ⟨j, u, _, _, _, hu⟩ := forRange_error (fun _ _ => True) he trivial fun _ _ _ _ _ _ _ => trivial
  exact (h j u).cause_ne e hu

theorem NeverIllegal.fetch (s : State) (S : Space) (k : Nat) : NeverIllegal (s.fetch S k) := by
  refine ⟨fun e he => ?_⟩
  obtain ⟨_, rfl⟩ := State.fetch_error.1 he
  simp

theorem NeverIllegal.fetchSlot (s : State) (cls : ScaleClass) (n : Nat) : NeverIllegal (s.fetchSlot cls n) := by
  refine ⟨fun e he => ?_⟩
  obtain ⟨_, rfl⟩ := State.fetchSlot_error.1 he
  simp

theorem NeverIllegal.fetchRun (s : State) (S : Space) (k n : Nat) : NeverIllegal (s.fetchRun S k n) := by
  refine ⟨fun e he => ?_⟩
  obtain ⟨_, _, _, _, rfl⟩ := State.fetchRun_error he
  simp

theorem NeverIllegal.selectComponent (c : Comp) : NeverIllegal (selectComponent c) := by
  cases c with
  | lumaLsb => exact .error
  | luma | rY | bY => exact .ok _

theorem NeverIllegal.selectChroma (c : Comp) : NeverIllegal (selectChroma c) := by
  cases c with
  | luma | lumaLsb => exact .error
  | rY | bY => exact .ok _

theorem NeverIllegal.format (s : State) : NeverIllegal s.format := by
  rw [State.format]
  split
  · exact .ok _
  · exact .error

/-! ### The reconstructor -/

theorem NeverIllegal.requireRawRange (s : State) : NeverIllegal s.requireRawRange := .require

theorem NeverIllegal.reconLumaAt (i : Nat) (s : State) : NeverIllegal (reconLumaAt i s) :=
  .bind (.fetch ..) fun _ => .bind (.fetch ..) fun _ => .bind (.fetch ..) fun _ => .bind (.fetch ..) fun _ =>
    .bind (.fetch ..) fun _ => .ok _

theorem NeverIllegal.reconChromaAt (k : ChromaSpaces) (i : Nat) (s : State) : NeverIllegal (reconChromaAt k i s) :=
  .bind (.fetch ..) fun _ => .bind (.fetch ..) fun _ => .ok _

theorem NeverIllegal.fetchLuma10 (s : State) (k : Nat) : NeverIllegal (s.fetchLuma10 k) :=
  .bind (.fetch ..) fun _ => .bind .require fun _ => .ok _

theorem NeverIllegal.splitLumaAt (i : Nat) (s : State) : NeverIllegal (splitLumaAt i s) :=
  .bind (.fetchLuma10 ..) fun _ => .bind (.fetchLuma10 ..) fun _ => .bind (.fetchLuma10 ..) fun _ =>
    .bind (.fetchLuma10 ..) fun _ => .ok _

theorem NeverIllegal.splitChromaAt (k : ChromaSpaces) (i : Nat) (s : State) : NeverIllegal (splitChromaAt k i s) :=
  .bind (.fetch ..) fun _ => .bind (.fetch ..) fun _ => .ok _

/-! ### The vector codec -/

theorem NeverIllegal.fetchRom (s : State) (a : Nat) : NeverIllegal (s.fetchRom a) := .bind (.fetch ..) fun _ => .ok _

theorem NeverIllegal.vdecAt (f : Format) (n : Nat) (s : State) : NeverIllegal (vdecAt f n s) := by
  cases f with
  | f43 => exact .bind (.fetchRom ..) fun _ => .bind (.fetchRom ..) fun _ => .bind (.fetchRom ..) fun _ => .ok _
  | f169 => exact .bind (.fetchRom ..) fun _ => .bind (.fetchRom ..) fun _ => .bind .require fun _ => .ok _

theorem NeverIllegal.enc43 (p : Params) (b c f : Nat) (cls : ScaleClass) : NeverIllegal (enc43 p b c f cls) := by
  refine .bind .require fun _ => .bind .require fun _ => .bind .require fun _ => ?_
  split
  · exact .error
  · exact .ok _

theorem NeverIllegal.enc169 (p : Params) (b c f : Nat) (cls : ScaleClass) : NeverIllegal (enc169 p b c f cls) :=
  .bind .require fun _ => .bind .require fun _ => .bind .require fun _ => .bind .require fun _ => .ok _

theorem NeverIllegal.encodeEntry (p : Params) (f : Format) (b c fr : Nat) (cls : ScaleClass) :
    NeverIllegal (encodeEntry p f b c fr cls) := by
  cases f with
  | f43 => exact .enc43 ..
  | f169 => exact .enc169 ..

/-! ### The raster assembler -/

theorem NeverIllegal.recordFragment (s : State) (k : FragKey) (xs : List Sample) : NeverIllegal (s.recordFragment k xs) := by
  rw [State.recordFragment]
  split
  · exact .ok _
  · split
    · exact .error
    · exact .ok _

theorem NeverIllegal.assembleSegment (s : State) (c : Component) (g : Segment) : NeverIllegal (s.assembleSegment c g) := by
  rw [State.assembleSegment]
  split
  · exact .ok _
  · exact .bind .require fun _ => .bind (.fetchRun ..) fun _ => .bind (.recordFragment ..) fun _ => .ok _

theorem NeverIllegal.assemble (s : State) (c : Component) (gs : List Segment) : NeverIllegal (s.assemble c gs) := by
  induction gs generalizing s with
  | nil => exact .ok _
  | cons g gs ih =>
    rw [State.assemble_cons]
    exact .bind (.assembleSegment ..) fun _ => .bind (ih _) fun _ => .ok _

theorem NeverIllegal.lineEntry (s : State) (f : Format) (c : Component) (n : Nat) : NeverIllegal (s.lineEntry f c n) :=
  .bind (.fetchSlot ..) fun _ => .bind .require fun _ => .ok _

theorem NeverIllegal.assembleLine (s : State) (f : Format) (c : Component) (e : VectorEntry) (j : Nat) :
    NeverIllegal (s.assembleLine f c e j) := .bind (.assemble ..) fun _ => .ok _

theorem NeverIllegal.stitchGenAt (f : Format) (t : Nat) (s : State) : NeverIllegal (stitchGenAt f t s) :=
  .bind .require fun _ => .ok _

theorem NeverIllegal.asmFrameAt (f : Format) (c : Component) (t : Nat) (s : State) : NeverIllegal (asmFrameAt f c t s) := by
  refine .bind (.fetch ..) fun w => .bind .require fun _ => ?_
  split
  · exact .bind .require fun _ => .ok _
  · exact .bind .require fun _ => .bind (.lineEntry ..) fun _ => .assembleLine ..

/-! ### All thirteen -/

/-- No command's pseudocode raises ILLEGAL. -/
theorem NeverIllegal.bodyOf (i : Instr) (s : State) : NeverIllegal (bodyOf i s) := by
  cases i with
  | nop => exact .ok _
  | reconLuma => exact .bind (.requireRawRange _) fun _ => .forRange .reconLumaAt ..
  | reconChroma c =>
    exact .bind (.selectChroma _) fun k => .bind (.requireRawRange _) fun _ => .forRange (.reconChromaAt k) ..
  | splitLuma => exact .bind (.requireRawRange _) fun _ => .forRange .splitLumaAt ..
  | splitChroma c =>
    exact .bind (.selectChroma _) fun k => .bind (.requireRawRange _) fun _ => .forRange (.splitChromaAt k) ..
  | vdec =>
    exact .bind (.format _) fun f => .bind .require fun _ => .bind .require fun _ =>
      .bind (.forRange (.vdecAt f) ..) fun _ => .ok _
  | venc c =>
    exact .bind (.selectComponent _) fun _ => .bind (.format _) fun _ => .bind .require fun _ =>
      .bind .require fun _ => .bind (.encodeEntry ..) fun _ => .ok _
  | stitchGen =>
    exact .bind (.format _) fun f => .bind .require fun _ => .bind (.forRange (.stitchGenAt f) ..) fun _ => .ok _
  | asmLine c =>
    exact .bind (.selectComponent _) fun _ => .bind (.format _) fun _ => .bind .require fun _ =>
      .bind (.lineEntry ..) fun _ => .bind .require fun _ => .assembleLine ..
  | asmBlank c =>
    exact .bind (.selectComponent _) fun _ => .bind (.format _) fun _ => .bind .require fun _ =>
      .bind .require fun _ => .ok _
  | asmFrame c =>
    exact .bind (.selectComponent _) fun k => .bind (.format _) fun f => .bind .require fun _ =>
      .bind .require fun _ => .forRange (.asmFrameAt f k) ..
  | fragClear => exact .ok _
  | fragQuery c => exact .bind (.selectComponent _) fun _ => .ok _

/-- The codes of R130 that a command's own pseudocode reports. -/
theorem Cause.code_mem_of_ne_illegal {c : Cause} (h : c ≠ .illegal) :
    c.code ∈ ([0x02, 0x03, 0x04, 0x05, 0x06] : List (BitVec 8)) := by
  cases c with
  | illegal => exact absurd rfl h
  | config | range | unwritten | unrepr | fragFull => decide

/-- A command that started with ERR = 0 ends with ERR = 1 only by a fault that its pseudocode raised. -/
theorem exec_fault_of_err {i : Instr} {s t : State} (h : exec i s = .next t) (hs : s.status.err = false)
    (ht : t.status.err = true) : ∃ f, bodyOf i s.staging = .error f ∧ t = s.takeFault f := by
  rcases exec_body_cases h with ⟨u, _, rfl⟩ | hf
  · rcases exec_cases h with ⟨v, hv, e⟩ | ⟨f, e⟩
    · exact absurd ht (by simp [e, hv.effect.status, hs])
    · exact absurd (congrArg (fun r => r.status.done) e) (by simp)
  · exact hf

/-- Settles O8: a raise takes the fault in the state before the command, and no command's pseudocode raises ILLEGAL. -/
theorem faultIsPrecise : Obligations.FaultIsPrecise := by
  refine ⟨fun body s f h => ?_, fun i s t hs h ht => ?_, rfl⟩
  · rw [← s.takeFault_eq_faultState]
    exact runCommand_error h
  · obtain ⟨f, hf, rfl⟩ := exec_fault_of_err h hs ht
    exact ⟨_, _, _, Cause.code_mem_of_ne_illegal ((NeverIllegal.bodyOf i _).cause_ne f hf), s.takeFault_eq_faultState f⟩

end Sys2Proof.Machine
end
